-- ==== Sys2Proof/Word.lean ====
section
/-! DEFINITION. Sys2Proof/Word.lean: the word types of the block.
Bits are numbered from 0 at the least significant end (00_scope.md R7). -/

namespace Sys2Proof

/-- A byte: the unit in which BUF is listed (20_memory.md R44). -/
abbrev Byte := BitVec 8

/-- One half of a BUF cell (10_state.md R37). -/
abbrev Half := BitVec 32

/-- A register, a command word or a BUF cell (00_scope.md R6, 10_state.md R18). -/
abbrev Word := BitVec 64

end Sys2Proof
end

