-- ==== Sys2Proof/Syntax.lean ====
section
/-! DEFINITION. Sys2Proof/Syntax.lean: the command set, one constructor per row of spec/opcode_table.json.
A command has no immediate and no register number: all operands come from the latched descriptors
(30_encoding.md R62, R69), so a command carries only its two free fields, CHK and W (R71). -/

namespace Sys2Proof

/-- CHK, bit 8 of the command word: which entry point (R65). -/
inductive Entry where
  | unchecked
  | checked
  deriving DecidableEq, Repr

/-- W, bit 9 of the command word: the torus width (R66). -/
inductive Width where
  | w32
  | w64
  deriving DecidableEq, Repr

/-- K, bit 10 of the command word: the ciphertext kind (R67). -/
inductive Kind where
  | lwe
  | glwe
  deriving DecidableEq, Repr

/-- The commands. Each row of the opcode map, with its entry point and its torus width (R70, R71). -/
inductive Instr where
  | nop (e : Entry) (w : Width)
  | ufill (e : Entry) (w : Width)
  | nfill (e : Entry) (w : Width)
  | dot (e : Entry) (w : Width)
  | dota (e : Entry) (w : Width)
  | dots (e : Entry) (w : Width)
  | accld (e : Entry) (w : Width)
  | accadd (e : Entry) (w : Width)
  | accst (e : Entry) (w : Width)
  | encLwe (e : Entry) (w : Width)
  | encGlwe (e : Entry) (w : Width)
  | aencLwe (e : Entry) (w : Width)
  | aencGlwe (e : Entry) (w : Width)
  | zencLwe (e : Entry) (w : Width)
  | zencGlwe (e : Entry) (w : Width)
  | tencLwe (e : Entry) (w : Width)
  | tencGlwe (e : Entry) (w : Width)
  | atencLwe (e : Entry) (w : Width)
  | atencGlwe (e : Entry) (w : Width)
  | decLwe (e : Entry) (w : Width)
  | decGlwe (e : Entry) (w : Width)
  | encl (e : Entry) (w : Width)
  deriving DecidableEq, Repr

end Sys2Proof
end

