-- ==== Sys2Proof/Config.lean ====
section
/-! DEFINITION. Sys2Proof/Config.lean: the parameters of the model and its free values.
The two opaque constants have no body: nothing can be proved of what they answer (log 2, log 4). -/

namespace Sys2Proof

/-- NCFG.KIND: what DISP holds (10_state.md R27). -/
inductive NoiseKind where
  | standardDeviation
  | variance
  deriving DecidableEq, Repr

/-- One request to the entropy source (40_common.md R87, R88). -/
inductive Request where
  /-- `DrawU_b()`: a uniform torus element of width b. -/
  | uniform (w : Width)
  /-- `DrawN_b(D, KIND)`: a noise sample of width b at dispersion D. -/
  | noise (w : Width) (disp : Word) (kind : NoiseKind)
  deriving DecidableEq, Repr

/-- The entropy source's answer to one request (R87, R88). -/
inductive Answer where
  | ok (v : Word)
  | fail
  deriving DecidableEq, Repr, Inhabited

/-- FREE VALUE: the answer to the k-th draw since the beginning of the run, where State holds no answer that
is ready. DESIGN CHOICE, safe: log 2. -/
opaque Config.entropyAnswer : Nat → Request → Answer

/-- FREE VALUE: the k-th word that the spec leaves unspecified, a cell after a failed draw (R90) or a register
read while BUSY = 1 (10_state.md R35). DESIGN CHOICE, safe: log 4. -/
opaque Config.unspecifiedWord : Nat → Word

/-- BUF_WORDS of the machine `State.reset` builds (00_scope.md R6): a parameter of the spec, 1 to 2^20.
DESIGN CHOICE, unsafe: 64, the value of the spec's own vectors (95_test_vectors.md). log 1. -/
def Config.resetBufWords : Nat := 64

/-- The largest BUF_WORDS the spec allows (R6). -/
def Config.maxBufWords : Nat := 2 ^ 20

end Sys2Proof
end

