-- ==== Sys2Proof/WellFormed.lean ====
section
/-! DEFINITION. Sys2Proof/WellFormed.lean: which command words are legal, from the spec's own list of what is
reserved (30_encoding.md R68, R70, R71, R72). An `Instr` has no ill-formed term: the free fields of a row take both
their values, so the check is on words. Decode.lean does not use this file: that the two agree is a statement. -/

namespace Sys2Proof

/-- RSV, bits 63:11, must be 0 (R68). -/
def wordReservedZero (c : Word) : Bool := c.extractLsb' 11 53 == 0

/-- The OPC value is none of the reserved ones: 0x03 to 0x07, 0x0E, 0x0F, 0x15 to 0x17, 0x19 to 0x1F, 0x21 to 0xFF
(the last paragraph of R70). -/
def wordOpcodeListed (c : Word) : Bool :=
  let o := (c.extractLsb' 0 8).toNat
  !((0x03 ≤ o && o ≤ 0x07) || o == 0x0E || o == 0x0F || (0x15 ≤ o && o ≤ 0x17) || (0x19 ≤ o && o ≤ 0x1F) || 0x21 ≤ o)

/-- K = 1 only with ENC, AENC, ZENC, TENC, ATENC and DEC (R67, R70). -/
def wordKindLegal (c : Word) : Bool :=
  let o := (c.extractLsb' 0 8).toNat
  !(c.getLsbD 10) || (0x10 ≤ o && o ≤ 0x14) || o == 0x18

/-- A legal command word (R71). -/
def wordWellFormed (c : Word) : Bool := wordReservedZero c && wordOpcodeListed c && wordKindLegal c

/-- A legal BUF_WORDS (00_scope.md R6). -/
def bufWordsWellFormed (n : Nat) : Bool := 1 ≤ n && n ≤ Config.maxBufWords

end Sys2Proof
end

