-- ==== Sys2Proof/Decode.lean ====
section
/-! DEFINITION. Sys2Proof/Decode.lean: the opcode map, the decoder, the encoder and the spellings
(30_encoding.md R63, R70, R71, R74). A command word is decoded by its bits alone (R73). -/

namespace Sys2Proof

/-- The mnemonics of the opcode map (R70). -/
inductive Opcode where
  | nop | ufill | nfill | dot | dota | dots | accld | accadd | accst
  | enc | aenc | zenc | tenc | atenc | dec | encl
  deriving DecidableEq, Repr

/-- Why a word is illegal (R71). -/
inductive Reject where
  | reservedBits
  | reservedOpcode
  | noGlweForm
  deriving DecidableEq, Repr

/-- OPC of each mnemonic (R70). -/
def opcodeNumber : Opcode → Byte
  | .nop => 0x00
  | .ufill => 0x01
  | .nfill => 0x02
  | .dot => 0x08
  | .dota => 0x09
  | .dots => 0x0A
  | .accld => 0x0B
  | .accadd => 0x0C
  | .accst => 0x0D
  | .enc => 0x10
  | .aenc => 0x11
  | .zenc => 0x12
  | .tenc => 0x13
  | .atenc => 0x14
  | .dec => 0x18
  | .encl => 0x20

/-- Every mnemonic, in the order of the opcode map. -/
def opcodes : List Opcode :=
  [.nop, .ufill, .nfill, .dot, .dota, .dots, .accld, .accadd, .accst, .enc, .aenc, .zenc, .tenc, .atenc, .dec, .encl]

/-- The mnemonic of an OPC value, if it is not reserved (R64). -/
def opcodeOf (b : Byte) : Option Opcode := opcodes.find? (fun o => opcodeNumber o == b)

/-- The row (OPC, K) selects, with its free fields filled in; none where K = 1 is not legal (R71). -/
def rowOf (o : Opcode) (k : Kind) (e : Entry) (w : Width) : Option Instr :=
  match o, k with
  | .nop, .lwe => some (.nop e w)
  | .ufill, .lwe => some (.ufill e w)
  | .nfill, .lwe => some (.nfill e w)
  | .dot, .lwe => some (.dot e w)
  | .dota, .lwe => some (.dota e w)
  | .dots, .lwe => some (.dots e w)
  | .accld, .lwe => some (.accld e w)
  | .accadd, .lwe => some (.accadd e w)
  | .accst, .lwe => some (.accst e w)
  | .enc, .lwe => some (.encLwe e w)
  | .enc, .glwe => some (.encGlwe e w)
  | .aenc, .lwe => some (.aencLwe e w)
  | .aenc, .glwe => some (.aencGlwe e w)
  | .zenc, .lwe => some (.zencLwe e w)
  | .zenc, .glwe => some (.zencGlwe e w)
  | .tenc, .lwe => some (.tencLwe e w)
  | .tenc, .glwe => some (.tencGlwe e w)
  | .atenc, .lwe => some (.atencLwe e w)
  | .atenc, .glwe => some (.atencGlwe e w)
  | .dec, .lwe => some (.decLwe e w)
  | .dec, .glwe => some (.decGlwe e w)
  | .encl, .lwe => some (.encl e w)
  | _, .glwe => none

/-- CHK from its bit (R65). -/
def entryOfBit (b : Bool) : Entry := if b then .checked else .unchecked

/-- W from its bit (R66). -/
def widthOfBit (b : Bool) : Width := if b then .w64 else .w32

/-- K from its bit (R67). -/
def kindOfBit (b : Bool) : Kind := if b then .glwe else .lwe

/-- The decoder, total on every 64-bit word (R63, R71). -/
def decode (c : Word) : Except Reject Instr :=
  if c.extractLsb' 11 53 = 0 then
    match opcodeOf (c.extractLsb' 0 8) with
    | none => .error .reservedOpcode
    | some o =>
      match rowOf o (kindOfBit (c.getLsbD 10)) (entryOfBit (c.getLsbD 8)) (widthOfBit (c.getLsbD 9)) with
      | none => .error .noGlweForm
      | some i => .ok i
  else .error .reservedBits

/-- The bit of CHK. -/
def entryBit : Entry → BitVec 1
  | .unchecked => 0
  | .checked => 1

/-- The bit of W. -/
def widthBit : Width → BitVec 1
  | .w32 => 0
  | .w64 => 1

/-- The bit of K. -/
def kindBit : Kind → BitVec 1
  | .lwe => 0
  | .glwe => 1

/-- The word of the fields, most significant first: RSV = 0, K, W, CHK, OPC (R63). -/
def commandWord (o : Opcode) (e : Entry) (w : Width) (k : Kind) : Word :=
  (0 : BitVec 53) ++ kindBit k ++ widthBit w ++ entryBit e ++ opcodeNumber o

/-- The encoder: each row's OPC and K with its free fields (R70, R71). -/
def encode : Instr → Word
  | .nop e w => commandWord .nop e w .lwe
  | .ufill e w => commandWord .ufill e w .lwe
  | .nfill e w => commandWord .nfill e w .lwe
  | .dot e w => commandWord .dot e w .lwe
  | .dota e w => commandWord .dota e w .lwe
  | .dots e w => commandWord .dots e w .lwe
  | .accld e w => commandWord .accld e w .lwe
  | .accadd e w => commandWord .accadd e w .lwe
  | .accst e w => commandWord .accst e w .lwe
  | .encLwe e w => commandWord .enc e w .lwe
  | .encGlwe e w => commandWord .enc e w .glwe
  | .aencLwe e w => commandWord .aenc e w .lwe
  | .aencGlwe e w => commandWord .aenc e w .glwe
  | .zencLwe e w => commandWord .zenc e w .lwe
  | .zencGlwe e w => commandWord .zenc e w .glwe
  | .tencLwe e w => commandWord .tenc e w .lwe
  | .tencGlwe e w => commandWord .tenc e w .glwe
  | .atencLwe e w => commandWord .atenc e w .lwe
  | .atencGlwe e w => commandWord .atenc e w .glwe
  | .decLwe e w => commandWord .dec e w .lwe
  | .decGlwe e w => commandWord .dec e w .glwe
  | .encl e w => commandWord .encl e w .lwe

/-- A spelling `MNEMONIC[.C|.U][.W32|.W64][.LWE|.GLWE]`: a suffix may be absent (R74). -/
structure Spelling where
  op : Opcode
  entry : Option Entry := none
  width : Option Width := none
  kind : Option Kind := none
  deriving DecidableEq, Repr

/-- The word of a spelling, with the defaults `.C`, `.W64`, `.LWE` (R74). -/
def spellingWord (s : Spelling) : Word :=
  commandWord s.op (s.entry.getD .checked) (s.width.getD .w64) (s.kind.getD .lwe)

/-- `.GLWE` on a mnemonic whose K = 1 is not legal is an error of the notation (R74). -/
def spellingLegal (s : Spelling) : Bool :=
  (rowOf s.op (s.kind.getD .lwe) (s.entry.getD .checked) (s.width.getD .w64)).isSome

/-- The command read from a word numbered as spec/opcode_table.json numbers it. The command is ONE 64-bit word
(R62), so the bits above `nbits` are 0 and a number of more than 64 bits is no command word. -/
def decodeTableWord (nbits w : Nat) : Option Instr :=
  if w < 2 ^ 64 ∧ nbits ≤ 64 then
    match decode (BitVec.ofNat 64 w) with
    | .ok i => some i
    | .error _ => none
  else none

end Sys2Proof
end

