-- ==== Sys2Proof/Machine/State.lean ====
section
/-! DEFINITION. Sys2Proof/Machine/State.lean: the state of the block, as plain data, and its value after reset.
Every register of 10_state.md R18 has one home here or is a function of these fields (ID, the IRQ output). -/

namespace Sys2Proof.Machine

open Sys2Proof

/-- Why a step stops with a fault. The spec itself names these (20_memory.md, 40_common.md R83, 93 U1, U2, S1 to S3);
all are safe: a run that faults supports no claim (00_scope.md R11). -/
inductive Fault where
  /-- The host access: an unmapped offset, an illegal width or a misaligned offset (R43, R45). Safe. -/
  | hostBusError
  /-- A command or a host read needs a half that holds no value (R50). Safe. -/
  | uninitRead
  /-- A memory primitive reached with an address at or above BUF_WORDS (R49); no command passes its checks so. Safe. -/
  | addressRange
  /-- The host access: BUF touched while BUSY = 1 (R57). Safe. -/
  | hostBufWhileBusy
  /-- An unchecked command with a false validation predicate (R83). Safe. -/
  | preconditionViolated
  deriving DecidableEq, Repr

/-- Why an instruction has no meaning in the model. -/
inductive Refusal where
  /-- An arm of `exec` that has no meaning yet; no arm raises it now. Safe. -/
  | notModelled (mnemonic : String)
  deriving DecidableEq, Repr

/-- The phase of the block: STATUS.BUSY is 1 exactly when it is Busy (10_state.md R22, 40_common.md R77, R80). -/
inductive Phase where
  | idle
  | busy
  deriving DecidableEq, Repr

/-- The descriptor registers (10_state.md R16, R18, R26 to R31). -/
structure Descriptors where
  disp : Word
  noiseKind : NoiseKind
  keyBase : Word
  keyDim : Word
  keyPoly : Word
  ctBase : Word
  ctSize : Word
  ctPoly : Word
  ctCount : Word
  ptBase : Word
  ptCount : Word
  srcA : Word
  srcB : Word
  dst : Word
  len : Word
  deriving DecidableEq, Repr

/-- The command latch L (40_common.md R78). -/
structure Latch where
  cmd : Word
  desc : Descriptors
  deriving DecidableEq, Repr

/-- The buffer memory BUF (10_state.md R37): bytes by their byte offset in the BUF window, byte i of cell a at
8a + i (20_memory.md R43, R44). A byte that is not listed holds no value. -/
abbrev Memory := List Host.Cell

/-- The width of a host access in bits. Only b32 and b64 are legal (R45). -/
inductive AccessSize where
  | b8
  | b16
  | b32
  | b64
  | b128
  deriving DecidableEq, Repr

/-- What a host access does. A 32-bit write carries its data in bits 31:0. -/
inductive AccessKind where
  | read
  | write (data : Word)
  deriving DecidableEq, Repr

/-- One host access, at a byte offset from BLOCK_BASE (20_memory.md R42, R48). -/
structure Access where
  size : AccessSize
  offset : BitVec 24
  kind : AccessKind
  deriving DecidableEq, Repr

/-- What happens next at the block's boundary (10_state.md R15). -/
inductive Input where
  /-- The host makes an access. -/
  | host (a : Access)
  /-- The block has its turn: it takes its step if it is Busy. -/
  | block
  /-- The reset input is asserted (70_reset_and_hazards.md R141). -/
  | reset
  deriving DecidableEq, Repr

/-- The whole state. The last five fields are the model's own (log 2, 4, 5, 7). -/
structure State where
  /-- BUF_WORDS, read in BUFSZ (00_scope.md R6, 10_state.md R20). -/
  bufWords : Nat
  /-- CTRL.IE (R21). -/
  ie : Bool
  /-- STATUS.BUSY (R22). -/
  phase : Phase
  /-- STATUS.DONE (R22). -/
  done : Bool
  /-- STATUS.ERR (R22). -/
  err : Bool
  /-- STATUS.WBUSY (R22, R34). -/
  wbusy : Bool
  /-- STATUS.ERRCODE (R22). -/
  errcode : BitVec 8
  /-- STATUS.LASTOP (R22). -/
  lastop : BitVec 8
  /-- CMD (R23). -/
  cmd : Word
  /-- ERRINFO0 (R24). -/
  errinfo0 : Word
  /-- ERRINFO1 (R24). -/
  errinfo1 : Word
  /-- ACC (R25). -/
  acc : Word
  /-- DISP, NCFG, KEY_BASE to LEN (R26 to R31). -/
  desc : Descriptors
  /-- UCOUNT (R32). -/
  ucount : Word
  /-- NCOUNT (R32). -/
  ncount : Word
  /-- The command latch (40_common.md R78). -/
  latch : Latch
  /-- BUF (R37). -/
  mem : Memory
  /-- Pending inputs from outside, oldest first (log 5). -/
  inputs : List Input
  /-- Answers the entropy source has ready, oldest first (log 2). -/
  entropy : List Answer
  /-- How many draws have been requested (log 2). -/
  drawIndex : Nat
  /-- How many unspecified words have been taken (log 4). -/
  freeIndex : Nat
  /-- What the last host read returned (log 7). -/
  readData : Word
  deriving DecidableEq, Repr

/-- All descriptor registers 0 (10_state.md R41). -/
def Descriptors.zero : Descriptors where
  disp := 0
  noiseKind := .standardDeviation
  keyBase := 0
  keyDim := 0
  keyPoly := 0
  ctBase := 0
  ctSize := 0
  ctPoly := 0
  ctCount := 0
  ptBase := 0
  ptCount := 0
  srcA := 0
  srcB := 0
  dst := 0
  len := 0

/-- The latch with all fields 0 (R41). -/
def Latch.zero : Latch where
  cmd := 0
  desc := .zero

/-- The state after power-on reset of a block with `n` BUF words (10_state.md R41, R141), with no input pending. -/
def State.powerOn (n : Nat) : State where
  bufWords := n
  ie := false
  phase := .idle
  done := false
  err := false
  wbusy := false
  errcode := 0
  lastop := 0
  cmd := 0
  errinfo0 := 0
  errinfo1 := 0
  acc := 0
  desc := .zero
  ucount := 0
  ncount := 0
  latch := .zero
  mem := []
  inputs := []
  entropy := []
  drawIndex := 0
  freeIndex := 0
  readData := 0

/-- The machine right after reset: BUF_WORDS is the parameter of log 1, everything else as R41 says. -/
def State.reset : State := .powerOn Config.resetBufWords

end Sys2Proof.Machine
end

