-- ==== Sys2Proof/Machine/Memory.lean ====
section
/-! DEFINITION. Sys2Proof/Machine/Memory.lean: reading, writing and emptying the bytes, halves and cells of BUF
(10_state.md R37, 20_memory.md R44, R49). The byte order of a cell is decided here once: byte i holds bits 8i+7 to 8i. -/

namespace Sys2Proof.Machine

open Sys2Proof

/-- The canonical form: byte offsets strictly rising. An unlisted byte holds no value, so every entry differs from
what an unlisted byte reads as. -/
abbrev Memory.wf (m : Memory) : Prop := m.Pairwise (fun x y => x.1 < y.1)

/-- One byte; none where it holds no value. -/
def Memory.readByte : Memory → Nat → Option Byte
  | [], _ => none
  | (k, b) :: m, a => if k = a then some b else Memory.readByte m a

/-- Gives one byte a value, keeping the list sorted. -/
def Memory.writeByte : Memory → Nat → Byte → Memory
  | [], a, b => [(a, b)]
  | (k, x) :: m, a, b =>
    if a < k then (a, b) :: (k, x) :: m
    else if a = k then (a, b) :: m
    else (k, x) :: Memory.writeByte m a b

/-- Half number h: half 2a is `lo` of cell a and half 2a + 1 is its `hi` (R37). -/
def Memory.readHalf (m : Memory) (h : Nat) : Option Half :=
  match m.readByte (4 * h), m.readByte (4 * h + 1), m.readByte (4 * h + 2), m.readByte (4 * h + 3) with
  | some b0, some b1, some b2, some b3 => some (b3 ++ b2 ++ b1 ++ b0)
  | _, _, _, _ => none

/-- Gives half h a value. -/
def Memory.writeHalf (m : Memory) (h : Nat) (v : Half) : Memory :=
  (((m.writeByte (4 * h) (v.extractLsb' 0 8)).writeByte (4 * h + 1) (v.extractLsb' 8 8)).writeByte
    (4 * h + 2) (v.extractLsb' 16 8)).writeByte (4 * h + 3) (v.extractLsb' 24 8)

/-- Cell a, the word `hi, lo`, where both halves hold a value (R37). -/
def Memory.readCell (m : Memory) (a : Nat) : Option Word :=
  match m.readHalf (2 * a), m.readHalf (2 * a + 1) with
  | some lo, some hi => some (hi ++ lo)
  | _, _ => none

/-- Gives both halves of cell a a value (R37). -/
def Memory.writeCell (m : Memory) (a : Nat) (v : Word) : Memory :=
  (m.writeHalf (2 * a) (v.extractLsb' 0 32)).writeHalf (2 * a + 1) (v.extractLsb' 32 32)

/-- Sets every half of the cells from `base` up to, not including, `stop` to no value (70_reset_and_hazards.md R142 b). -/
def Memory.emptyCells (m : Memory) (base stop : Nat) : Memory :=
  m.filter (fun c => !(8 * base ≤ c.1 && c.1 < 8 * stop))

end Sys2Proof.Machine
end

