-- ==== Sys2Proof/Machine/Flags.lean ====
section
/-! DEFINITION. Sys2Proof/Machine/Flags.lean: STATUS, its write-one-to-clear bits, the error codes it
shows, and the interrupt level (10_state.md R22, R40; 60_exceptions.md R126, R127, R130). -/

namespace Sys2Proof.Machine

open Sys2Proof

/-- The error kinds (R127). -/
inductive ErrorCode where
  | shapeMismatch
  | countMismatch
  | engineFailure
  | illegalCommand
  | addressRange
  | overlap
  deriving DecidableEq, Repr

/-- An error a command ends with: the code and the two information words (R11, R127). -/
structure CommandError where
  code : ErrorCode
  info0 : Word
  info1 : Word
  deriving DecidableEq, Repr

/-- The number of an error kind in STATUS.ERRCODE (R127). -/
def errorNumber : ErrorCode → BitVec 8
  | .shapeMismatch => 1
  | .countMismatch => 2
  | .engineFailure => 3
  | .illegalCommand => 4
  | .addressRange => 5
  | .overlap => 6

/-- STATUS.BUSY as a Boolean (R22). -/
def State.busy (s : State) : Bool := s.phase == .busy

/-- The STATUS register, bits 63:24 and 7:4 zero (R22). -/
def State.statusWord (s : State) : Word :=
  (0 : BitVec 40) ++ s.lastop ++ s.errcode ++ (0 : BitVec 4) ++ BitVec.ofBool s.wbusy ++ BitVec.ofBool s.err
    ++ BitVec.ofBool s.done ++ BitVec.ofBool s.busy

/-- The level of the interrupt output: IE and (DONE or ERR) (R130). -/
def State.irq (s : State) : Bool := s.ie && (s.done || s.err)

/-- A host write to STATUS clears the write-one-to-clear bits written as 1 and nothing else (R22). -/
def State.clearStatus (s : State) (v : Word) : State :=
  { s with
    done := s.done && !(v.getLsbD 1)
    err := s.err && !(v.getLsbD 2)
    wbusy := s.wbusy && !(v.getLsbD 3) }

/-- A host write is dropped because BUSY = 1: STATUS.WBUSY becomes 1 (R34). -/
def State.dropWrite (s : State) : State := { s with wbusy := true }

end Sys2Proof.Machine
end

