-- ==== Sys2Proof/Machine/Operands.lean ====
section
/-! DEFINITION. Sys2Proof/Machine/Operands.lean: torus elements and their arithmetic, the regions a command names and
the validation predicates over them (00_scope.md R8 to R12; 20_memory.md R46, R51 to R53; 40_common.md R81 to R86;
42_accumulator.md R97; 43_kernel.md R105 to R107). Elements are integers in [0, 2^b); sums are exact and reduced once. -/

namespace Sys2Proof.Machine

open Sys2Proof

/-! ### Torus elements -/

/-- b, the torus width in bits (30_encoding.md R66). -/
def widthBits : Width → Nat
  | .w32 => 32
  | .w64 => 64

/-- `v mod 2^b` (00_scope.md R7, R8). -/
def torus (w : Width) (v : Int) : Int := v % (2 ^ widthBits w : Nat)

/-- The torus element held in a word: its low b bits (R10, R46). -/
def elemOf (w : Width) (x : Word) : Int := torus w x.toNat

/-- The word that holds an element: zero-extended from b bits (R10, R46). -/
def wordOf (w : Width) (v : Int) : Word := BitVec.ofInt 64 (torus w v)

/-- The exact sum `f 0 + ... + f (n - 1)`, in increasing index order (R13). -/
def sumTo : Nat → (Nat → Int) → Int
  | 0, _ => 0
  | n + 1, f => sumTo n f + f n

/-- Element i of a sequence that has been read or drawn. -/
def elemAt (xs : List Int) (i : Nat) : Int := xs.getD i 0

/-- The unbounded inner product of the first n elements (42_accumulator.md R97). -/
def dotSum (n : Nat) (a s : List Int) : Int := sumTo n (fun i => elemAt a i * elemAt s i)

/-- Coefficient t of the exact negacyclic product of two polynomials of n coefficients (43_kernel.md R107). The ring
is RingProduct of R6: PRESUMED, the spec takes it from general knowledge: log 16. -/
def ringCoeff (n : Nat) (a s : Nat → Int) (t : Nat) : Int :=
  sumTo n (fun i => sumTo n (fun j =>
    if i + j = t then a i * s j else if i + j = t + n then -(a i * s j) else 0))

/-- Coefficient t of the exact GLWE inner product of k polynomials of n coefficients, polynomial-major
(R107, 20_memory.md R52). -/
def innerCoeff (k n : Nat) (a s : List Int) (t : Nat) : Int :=
  sumTo k (fun j => ringCoeff n (fun i => elemAt a (j * n + i)) (fun i => elemAt s (j * n + i)) t)

/-! ### Regions -/

/-- The region ids of R84. -/
inductive RegionId where
  | key
  | ct
  | pt
  | srcA
  | srcB
  | dst
  deriving DecidableEq, Repr

/-- The number of a region id in the error information words (R84). -/
def regionNumber : RegionId → Word
  | .key => 1
  | .ct => 2
  | .pt => 3
  | .srcA => 4
  | .srcB => 5
  | .dst => 6

/-- A region: the cells base to base + len - 1, on unbounded integers (R84). -/
structure Region where
  id : RegionId
  base : Nat
  len : Nat
  deriving DecidableEq, Repr

/-- The LWE key: n cells (R28, R51). -/
def keyLwe (d : Descriptors) : Region := ⟨.key, d.keyBase.toNat, d.keyDim.toNat⟩

/-- The GLWE key: k * N cells (R28, R52). -/
def keyGlwe (d : Descriptors) : Region := ⟨.key, d.keyBase.toNat, d.keyDim.toNat * d.keyPoly.toNat⟩

/-- An LWE ciphertext for the key: n + 1 cells (R51). -/
def ctLwe (d : Descriptors) : Region := ⟨.ct, d.ctBase.toNat, d.keyDim.toNat + 1⟩

/-- A GLWE ciphertext for the key: (k + 1) * N cells (R52). -/
def ctGlwe (d : Descriptors) : Region := ⟨.ct, d.ctBase.toNat, (d.keyDim.toNat + 1) * d.keyPoly.toNat⟩

/-- The LWE ciphertext of a trivial encryption: CT_SIZE cells (R116). -/
def ctTrivialLwe (d : Descriptors) : Region := ⟨.ct, d.ctBase.toNat, d.ctSize.toNat⟩

/-- The GLWE ciphertext of a trivial encryption: CT_SIZE * CT_POLY cells (R117). -/
def ctTrivialGlwe (d : Descriptors) : Region := ⟨.ct, d.ctBase.toNat, d.ctSize.toNat * d.ctPoly.toNat⟩

/-- The ciphertext list of ENCL: CT_COUNT * CT_SIZE cells (R53, R124). -/
def ctList (d : Descriptors) : Region := ⟨.ct, d.ctBase.toNat, d.ctCount.toNat * d.ctSize.toNat⟩

/-- One plaintext cell (R30, R51). -/
def ptOne (d : Descriptors) : Region := ⟨.pt, d.ptBase.toNat, 1⟩

/-- The plaintext polynomial of a keyed GLWE command: N cells (R52). -/
def ptGlwe (d : Descriptors) : Region := ⟨.pt, d.ptBase.toNat, d.keyPoly.toNat⟩

/-- The plaintext polynomial of a trivial GLWE encryption: CT_POLY cells (R117). -/
def ptTrivialGlwe (d : Descriptors) : Region := ⟨.pt, d.ptBase.toNat, d.ctPoly.toNat⟩

/-- The plaintext list of ENCL: PT_COUNT cells (R124). -/
def ptList (d : Descriptors) : Region := ⟨.pt, d.ptBase.toNat, d.ptCount.toNat⟩

/-- SRCA with LEN elements (R99). -/
def srcARegion (d : Descriptors) : Region := ⟨.srcA, d.srcA.toNat, d.len.toNat⟩

/-- SRCB with LEN elements (R99). -/
def srcBRegion (d : Descriptors) : Region := ⟨.srcB, d.srcB.toNat, d.len.toNat⟩

/-- DST with LEN elements (R94). -/
def dstRegion (d : Descriptors) : Region := ⟨.dst, d.dst.toNat, d.len.toNat⟩

/-- SRCA with one element (R102). -/
def srcACell (d : Descriptors) : Region := ⟨.srcA, d.srcA.toNat, 1⟩

/-- DST with one element (R104). -/
def dstCell (d : Descriptors) : Region := ⟨.dst, d.dst.toNat, 1⟩

/-- The regions each command's rule names as written (R84): none for a command that writes no BUF cell. -/
def writtenRegions (d : Descriptors) : Instr → List Region
  | .nop _ _ => []
  | .ufill _ _ => [dstRegion d]
  | .nfill _ _ => [dstRegion d]
  | .dot _ _ => []
  | .dota _ _ => []
  | .dots _ _ => []
  | .accld _ _ => []
  | .accadd _ _ => []
  | .accst _ _ => [dstCell d]
  | .encLwe _ _ => [ctLwe d]
  | .encGlwe _ _ => [ctGlwe d]
  | .aencLwe _ _ => [ctLwe d]
  | .aencGlwe _ _ => [ctGlwe d]
  | .zencLwe _ _ => [ctLwe d]
  | .zencGlwe _ _ => [ctGlwe d]
  | .tencLwe _ _ => [ctTrivialLwe d]
  | .tencGlwe _ _ => [ctTrivialGlwe d]
  | .atencLwe _ _ => [ctTrivialLwe d]
  | .atencGlwe _ _ => [ctTrivialGlwe d]
  | .decLwe _ _ => [ptOne d]
  | .decGlwe _ _ => [ptGlwe d]
  | .encl _ _ => [ctList d]

/-! ### Validation predicates -/

/-- One validation predicate: whether it holds, and the error it reports where it does not (R81). -/
structure Check where
  holds : Bool
  error : CommandError
  deriving DecidableEq, Repr

/-- The address predicate of a region (R85). -/
def addressCheck (bufWords : Nat) (r : Region) : Check where
  holds := r.len == 0 || r.base + r.len ≤ bufWords
  error := ⟨.addressRange, regionNumber r.id, BitVec.ofNat 64 r.base⟩

/-- The overlap predicate of a written region against another region (R86). -/
def overlapCheck (written other : Region) : Check where
  holds := written.len == 0 || other.len == 0 || written.base + written.len ≤ other.base
    || other.base + other.len ≤ written.base
  error := ⟨.overlap, regionNumber written.id, regionNumber other.id⟩

/-- A shape predicate with its required and supplied values (R105, R127). -/
def shapeCheck (holds : Bool) (required : Nat) (supplied : Word) : Check where
  holds := holds
  error := ⟨.shapeMismatch, BitVec.ofNat 64 required, supplied⟩

/-- S1: CT_SIZE = n + 1 (R105). -/
def checkS1 (d : Descriptors) : Check :=
  shapeCheck (d.ctSize.toNat == d.keyDim.toNat + 1) (d.keyDim.toNat + 1) d.ctSize

/-- G1: N at least 1 (R106). -/
def checkG1 (d : Descriptors) : Check := shapeCheck (1 ≤ d.keyPoly.toNat) 1 d.keyPoly

/-- G2: CT_SIZE = k + 1 (R106). -/
def checkG2 (d : Descriptors) : Check :=
  shapeCheck (d.ctSize.toNat == d.keyDim.toNat + 1) (d.keyDim.toNat + 1) d.ctSize

/-- G3: CT_POLY = N (R106). -/
def checkG3 (d : Descriptors) : Check := shapeCheck (d.ctPoly == d.keyPoly) d.keyPoly.toNat d.ctPoly

/-- G4: PT_COUNT = N (R106). -/
def checkG4 (d : Descriptors) : Check := shapeCheck (d.ptCount == d.keyPoly) d.keyPoly.toNat d.ptCount

/-- T1: CT_SIZE at least 1 (R116, R117). -/
def checkT1 (d : Descriptors) : Check := shapeCheck (1 ≤ d.ctSize.toNat) 1 d.ctSize

/-- T2: CT_POLY at least 1 (R117). -/
def checkT2 (d : Descriptors) : Check := shapeCheck (1 ≤ d.ctPoly.toNat) 1 d.ctPoly

/-- T3: PT_COUNT = CT_POLY (R117). -/
def checkT3 (d : Descriptors) : Check := shapeCheck (d.ptCount == d.ctPoly) d.ctPoly.toNat d.ptCount

/-- C1: CT_COUNT = PT_COUNT (44_list.md R124). -/
def checkC1 (d : Descriptors) : Check where
  holds := d.ctCount == d.ptCount
  error := ⟨.countMismatch, d.ctCount, d.ptCount⟩

/-- The error of the first predicate that is false, in order (R82). -/
def firstFailure : List Check → Option CommandError
  | [] => none
  | c :: cs => if c.holds then firstFailure cs else some c.error

/-- Address predicates of a command's regions, given in increasing region id (R85). -/
def addressChecks (bufWords : Nat) (rs : List Region) : List Check := rs.map (addressCheck bufWords)

/-- Overlap predicates of the written region against the others, given in increasing region id (R86). -/
def overlapChecks (written : Region) (others : List Region) : List Check := others.map (overlapCheck written)

/-- The validation predicates of each command, in the order of its rule: shape, count, address, overlap (R81). -/
def validation (bufWords : Nat) (d : Descriptors) : Instr → List Check
  | .nop _ _ => []
  | .ufill _ _ => addressChecks bufWords [dstRegion d]
  | .nfill _ _ => addressChecks bufWords [dstRegion d]
  | .dot _ _ => addressChecks bufWords [srcARegion d, srcBRegion d]
  | .dota _ _ => addressChecks bufWords [srcARegion d, srcBRegion d]
  | .dots _ _ => addressChecks bufWords [srcARegion d, srcBRegion d]
  | .accld _ _ => addressChecks bufWords [srcACell d]
  | .accadd _ _ => addressChecks bufWords [srcACell d]
  | .accst _ _ => addressChecks bufWords [dstCell d]
  | .encLwe _ _ => [checkS1 d] ++ addressChecks bufWords [keyLwe d, ctLwe d, ptOne d]
      ++ overlapChecks (ctLwe d) [keyLwe d, ptOne d]
  | .encGlwe _ _ => [checkG1 d, checkG2 d, checkG3 d, checkG4 d]
      ++ addressChecks bufWords [keyGlwe d, ctGlwe d, ptGlwe d] ++ overlapChecks (ctGlwe d) [keyGlwe d, ptGlwe d]
  | .aencLwe _ _ => addressChecks bufWords [keyLwe d, ctLwe d, ptOne d]
      ++ overlapChecks (ctLwe d) [keyLwe d, ptOne d]
  | .aencGlwe _ _ => [checkG1 d, checkG4 d] ++ addressChecks bufWords [keyGlwe d, ctGlwe d, ptGlwe d]
      ++ overlapChecks (ctGlwe d) [keyGlwe d, ptGlwe d]
  | .zencLwe _ _ => [checkS1 d] ++ addressChecks bufWords [keyLwe d, ctLwe d] ++ overlapChecks (ctLwe d) [keyLwe d]
  | .zencGlwe _ _ => [checkG1 d, checkG2 d, checkG3 d] ++ addressChecks bufWords [keyGlwe d, ctGlwe d]
      ++ overlapChecks (ctGlwe d) [keyGlwe d]
  | .tencLwe _ _ => [checkT1 d] ++ addressChecks bufWords [ctTrivialLwe d, ptOne d]
      ++ overlapChecks (ctTrivialLwe d) [ptOne d]
  | .tencGlwe _ _ => [checkT1 d, checkT2 d, checkT3 d] ++ addressChecks bufWords [ctTrivialGlwe d, ptTrivialGlwe d]
      ++ overlapChecks (ctTrivialGlwe d) [ptTrivialGlwe d]
  | .atencLwe _ _ => [checkT1 d] ++ addressChecks bufWords [ctTrivialLwe d, ptOne d]
      ++ overlapChecks (ctTrivialLwe d) [ptOne d]
  | .atencGlwe _ _ => [checkT1 d, checkT2 d, checkT3 d] ++ addressChecks bufWords [ctTrivialGlwe d, ptTrivialGlwe d]
      ++ overlapChecks (ctTrivialGlwe d) [ptTrivialGlwe d]
  | .decLwe _ _ => [checkS1 d] ++ addressChecks bufWords [keyLwe d, ctLwe d, ptOne d]
      ++ overlapChecks (ptOne d) [keyLwe d, ctLwe d]
  | .decGlwe _ _ => [checkG1 d, checkG2 d, checkG3 d, checkG4 d]
      ++ addressChecks bufWords [keyGlwe d, ctGlwe d, ptGlwe d] ++ overlapChecks (ptGlwe d) [keyGlwe d, ctGlwe d]
  | .encl _ _ => [checkS1 d, checkC1 d] ++ addressChecks bufWords [keyLwe d, ctList d, ptList d]
      ++ overlapChecks (ctList d) [keyLwe d, ptList d]

end Sys2Proof.Machine
end

