-- ==== Sys2Proof/Machine/Ops.lean ====
section
/-! DEFINITION. Sys2Proof/Machine/Ops.lean: the operations every command and every host access is made of: the life of a
command (start, latch, checked and unchecked entry, completion, error), the memory primitives, the draws, and the two
resets (20_memory.md R49, R50; 40_common.md R77 to R90; 70_reset_and_hazards.md R141, R142). -/

namespace Sys2Proof.Machine

open Sys2Proof

/-! ### Start and completion -/

/-- Start of a command with word c: CMD, the latch, the flags and the phase, in one step (R77, R78). -/
def State.start (s : State) (c : Word) : State :=
  { s with
    cmd := c
    latch := { cmd := c, desc := s.desc }
    phase := .busy
    done := false
    err := false
    errcode := 0
    lastop := c.extractLsb' 0 8
    errinfo0 := 0
    errinfo1 := 0 }

/-- Completion with code 0 (R80). -/
def State.complete (s : State) : State :=
  { s with phase := .idle, done := true, err := false, errcode := 0 }

/-- Taking an error: `raise Error(code, info0, info1)`, the completion with that code and those words (R11, R80, R126).
Nothing else is saved, no mode changes and there is no return operation (R126, R132): the host clears DONE and ERR
(`State.clearStatus`) or starts the next command. -/
def State.raiseError (s : State) (x : CommandError) : State :=
  { s with
    phase := .idle
    done := true
    err := true
    errcode := errorNumber x.code
    errinfo0 := x.info0
    errinfo1 := x.info1 }

/-! ### The outcome of a command's pseudocode -/

/-- How a stretch of pseudocode ends: with a value, with an error raised in some state, or with a fault (R11). -/
inductive Attempt (α : Type) where
  | done (a : α)
  | error (x : CommandError) (s : State)
  | fault (f : Fault)
  deriving DecidableEq, Repr

/-- The next stretch of pseudocode, taken where the first one ended with a value. -/
def Attempt.andThen {α β : Type} (t : Attempt α) (k : α → Attempt β) : Attempt β :=
  match t with
  | .done a => k a
  | .error x s => .error x s
  | .fault f => .fault f

/-- The completion of the command, or its fault (R11, R80). -/
def Attempt.finish (t : Attempt State) : Host.Outcome State Fault Refusal :=
  match t with
  | .done s => .next s.complete
  | .error x s => .next (s.raiseError x)
  | .fault f => .fault f

/-- A command through its entry point: the validation predicates in order, before any read, draw or write; the first false
one is reported by a checked command (R82) and has no meaning in an unchecked one (R83); then the pseudocode. -/
def State.enter (s : State) (e : Entry) (checks : List Check) (body : Attempt State) :
    Host.Outcome State Fault Refusal :=
  match firstFailure checks, e with
  | some x, .checked => .next (s.raiseError x)
  | some _, .unchecked => .fault .preconditionViolated
  | none, _ => body.finish

/-! ### Memory primitives -/

/-- `MemRead(a, 1)` (20_memory.md R49, R50). -/
def State.memRead (s : State) (a : Nat) : Attempt Word :=
  if a < s.bufWords then
    match s.mem.readCell a with
    | some v => .done v
    | none => .fault .uninitRead
  else .fault .addressRange

/-- The `lo` half of a cell, all that a 32-bit command reads of it (R46, R49, R50). -/
def State.memReadLow (s : State) (a : Nat) : Attempt Half :=
  if a < s.bufWords then
    match s.mem.readHalf (2 * a) with
    | some v => .done v
    | none => .fault .uninitRead
  else .fault .addressRange

/-- `ReadElem_b(a)` (R10, R49). -/
def State.readElem (s : State) (w : Width) (a : Nat) : Attempt Int :=
  match w with
  | .w32 => (s.memReadLow a).andThen fun v => .done v.toNat
  | .w64 => (s.memRead a).andThen fun v => .done v.toNat

/-- The n elements from a, in increasing address order. -/
def State.readElems (s : State) (w : Width) : Nat → Nat → Attempt (List Int)
  | _, 0 => .done []
  | a, n + 1 =>
    (s.readElem w a).andThen fun x => (s.readElems w (a + 1) n).andThen fun xs => .done (x :: xs)

/-- `MemWrite(a, 1, v)` (R49). -/
def State.memWrite (s : State) (a : Nat) (v : Word) : Attempt State :=
  if a < s.bufWords then .done { s with mem := s.mem.writeCell a v } else .fault .addressRange

/-- `WriteElem_b(a, v)` (R10, R49). -/
def State.writeElem (s : State) (w : Width) (a : Nat) (v : Int) : Attempt State := s.memWrite a (wordOf w v)

/-- The elements written from a on, in increasing address order. -/
def State.writeElems (s : State) (w : Width) : Nat → List Int → Attempt State
  | _, [] => .done s
  | a, v :: vs => (s.writeElem w a v).andThen fun t => t.writeElems w (a + 1) vs

/-! ### ACC -/

/-- ACC as a command of width b reads it (42_accumulator.md R96). -/
def State.readAcc (s : State) (w : Width) : Int := elemOf w s.acc

/-- ACC as a command of width b writes it (R96). -/
def State.writeAcc (s : State) (w : Width) (v : Int) : State := { s with acc := wordOf w v }

/-! ### Unspecified words -/

/-- One cell takes a valued but unspecified word (R90): the next free value. -/
def State.fillCell (s : State) (a : Nat) : State :=
  { s with mem := s.mem.writeCell a (Config.unspecifiedWord s.freeIndex), freeIndex := s.freeIndex + 1 }

/-- The n cells from a each take a valued but unspecified word of their own (R90). -/
def State.fillCells (s : State) : Nat → Nat → State
  | _, 0 => s
  | a, n + 1 => (s.fillCell a).fillCells (a + 1) n

/-! ### Draws -/

/-- The answer to the k-th draw from here on, where the request is r: the entropy source's ready answer if there is one,
else the free answer of that draw (R87, R88, R89; log 2). -/
def State.answerAt (s : State) (k : Nat) (r : Request) : Answer :=
  match s.entropy[k]? with
  | some a => a
  | none => Config.entropyAnswer (s.drawIndex + k) r

/-- The element an `ok` answer gives: b bits of it, and 0 for noise at DISP = 0 (R87, R88, 41_samplers.md R92; log 3). -/
def drawnElem (r : Request) (v : Word) : Int :=
  match r with
  | .uniform w => elemOf w v
  | .noise w d _ => if d = 0 then 0 else elemOf w v

/-- One answer has been taken from the entropy source, whatever it was (R89). -/
def State.takeAnswer (s : State) : State := { s with entropy := s.entropy.tail, drawIndex := s.drawIndex + 1 }

/-- A delivered draw counts in UCOUNT or NCOUNT, mod 2^64 (10_state.md R32, R87, R88). -/
def State.countDraw (s : State) (r : Request) : State :=
  match r with
  | .uniform _ => { s with ucount := s.ucount + 1 }
  | .noise _ _ _ => { s with ncount := s.ncount + 1 }

/-- What a run of draws gives: every element, or the state at the draw that failed. -/
inductive Drawn where
  | all (xs : List Int) (s : State)
  | failed (s : State)
  deriving DecidableEq, Repr

/-- One draw (R87, R88). A failed draw does not count. -/
def State.draw (s : State) (r : Request) : Drawn :=
  match s.answerAt 0 r with
  | .ok v => .all [drawnElem r v] (s.takeAnswer.countDraw r)
  | .fail => .failed s.takeAnswer

/-- n draws of one kind, one at a time, up to the first that fails (R89, R90). -/
def State.drawMany (s : State) (r : Request) : Nat → Drawn
  | 0 => .all [] s
  | n + 1 =>
    match s.draw r with
    | .failed t => .failed t
    | .all x t =>
      match t.drawMany r n with
      | .failed u => .failed u
      | .all xs u => .all (x ++ xs) u

/-- Source id of R90. -/
def sourceNumber : Request → Word
  | .uniform _ => 1
  | .noise _ _ _ => 2

/-- A failed draw: the cells of the unfinished written region take unspecified words and the command ends with
UnderlyingEngineFailure (R90). -/
def State.engineFailure (s : State) (r : Request) (base len : Nat) : Attempt State :=
  .error ⟨.engineFailure, sourceNumber r, 0⟩ (s.fillCells base len)

/-- Fills the region of `maskLen + bodyLen` cells from base: the uniform draws of the mask, then the noise draws of the body,
then the mask cells and the body cells computed from both (43_kernel.md R110 steps 1 to 5, R111). The sampler commands are
the cases of an empty body and an empty mask. -/
def State.sampleInto (s : State) (w : Width) (d : Descriptors) (base maskLen bodyLen : Nat)
    (body : List Int → List Int → List Int) : Attempt State :=
  match s.drawMany (.uniform w) maskLen with
  | .failed t => t.engineFailure (.uniform w) base (maskLen + bodyLen)
  | .all mask t =>
    match t.drawMany (.noise w d.disp d.noiseKind) bodyLen with
    | .failed u => u.engineFailure (.noise w d.disp d.noiseKind) base (maskLen + bodyLen)
    | .all noise u => u.writeElems w base (mask ++ body mask noise)

/-! ### Resets -/

/-- Every register at its power-on value, phase Idle, latch 0; BUF and what lies outside the block stay (R142 a, c). -/
def State.clearRegisters (s : State) : State :=
  { s with
    ie := false
    phase := .idle
    done := false
    err := false
    wbusy := false
    errcode := 0
    lastop := 0
    cmd := 0
    errinfo0 := 0
    errinfo1 := 0
    acc := 0
    desc := .zero
    ucount := 0
    ncount := 0
    latch := .zero }

/-- The cells of a region below BUF_WORDS lose their values (R142 b). -/
def State.emptyRegion (s : State) (r : Region) : State :=
  { s with mem := s.mem.emptyCells r.base (min (r.base + r.len) s.bufWords) }

/-- The regions the latched command word's rule names as written; none for an illegal word (R142 b). -/
def State.abandonedRegions (s : State) : List Region :=
  match decode s.latch.cmd with
  | .ok i => writtenRegions s.latch.desc i
  | .error _ => []

/-- Soft reset (R142): a running command is abandoned and its written cells lose their values. -/
def State.softReset (s : State) : State :=
  match s.phase with
  | .idle => s.clearRegisters
  | .busy => (s.abandonedRegions.foldl State.emptyRegion s).clearRegisters

/-- Power-on reset of a running block: the registers, and every BUF half loses its value (R141). What lies outside the block
stays: pending inputs and the entropy source (log 19). -/
def State.powerOnReset (s : State) : State := { s.clearRegisters with mem := [] }

end Sys2Proof.Machine
end

