-- ==== Sys2Proof/Machine/Accumulator.lean ====
section
/-! DEFINITION. Sys2Proof/Machine/Accumulator.lean: the accumulator commands (42_accumulator.md R96 to R104). -/

namespace Sys2Proof.Machine

open Sys2Proof

/-- The unbounded inner product of the LEN elements from SRCA with those from SRCB (R97, R99). -/
def State.innerProduct (s : State) (w : Width) (d : Descriptors) : Attempt Int :=
  (s.readElems w d.srcA.toNat d.len.toNat).andThen fun a =>
    (s.readElems w d.srcB.toNat d.len.toNat).andThen fun b => .done (dotSum d.len.toNat a b)

/-- DOT: ACC := the inner product (R99). -/
def execDot (e : Entry) (w : Width) (s : State) : Host.Outcome State Fault Refusal :=
  let d := s.latch.desc
  s.enter e (validation s.bufWords d (.dot e w))
    ((s.innerProduct w d).andThen fun x => .done (s.writeAcc w x))

/-- DOTA: ACC := ACC plus the inner product (R100). -/
def execDota (e : Entry) (w : Width) (s : State) : Host.Outcome State Fault Refusal :=
  let d := s.latch.desc
  s.enter e (validation s.bufWords d (.dota e w))
    ((s.innerProduct w d).andThen fun x => .done (s.writeAcc w (s.readAcc w + x)))

/-- DOTS: ACC := ACC minus the inner product (R101). -/
def execDots (e : Entry) (w : Width) (s : State) : Host.Outcome State Fault Refusal :=
  let d := s.latch.desc
  s.enter e (validation s.bufWords d (.dots e w))
    ((s.innerProduct w d).andThen fun x => .done (s.writeAcc w (s.readAcc w - x)))

/-- ACCLD: ACC := the element at SRCA (R102). -/
def execAccld (e : Entry) (w : Width) (s : State) : Host.Outcome State Fault Refusal :=
  let d := s.latch.desc
  s.enter e (validation s.bufWords d (.accld e w))
    ((s.readElem w d.srcA.toNat).andThen fun x => .done (s.writeAcc w x))

/-- ACCADD: ACC := ACC plus the element at SRCA (R103). -/
def execAccadd (e : Entry) (w : Width) (s : State) : Host.Outcome State Fault Refusal :=
  let d := s.latch.desc
  s.enter e (validation s.bufWords d (.accadd e w))
    ((s.readElem w d.srcA.toNat).andThen fun x => .done (s.writeAcc w (s.readAcc w + x)))

/-- ACCST: the cell at DST := ACC (R104). -/
def execAccst (e : Entry) (w : Width) (s : State) : Host.Outcome State Fault Refusal :=
  let d := s.latch.desc
  s.enter e (validation s.bufWords d (.accst e w)) (s.writeElem w d.dst.toNat (s.readAcc w))

end Sys2Proof.Machine
end

