-- ==== Sys2Proof/Machine/Kernel.lean ====
section
/-! DEFINITION. Sys2Proof/Machine/Kernel.lean: the kernel commands (43_kernel.md R105 to R121). Every cell a command reads is
read before its first draw, so that a cell without a value faults whether or not a draw fails (60_exceptions.md R129); no
command reads a cell it writes, by its overlap predicates. -/

namespace Sys2Proof.Machine

open Sys2Proof

/-! ### The shared pieces -/

/-- Steps (3) to (5) of R110: noise plus the inner product with the key plus the plaintext. -/
def lweBody (w : Width) (n : Nat) (key : List Int) (p : Int) (mask noise : List Int) : List Int :=
  noise.map fun e => torus w (torus w (e + dotSum n mask key) + p)

/-- Steps (3) to (5) of R111, coefficient by coefficient. -/
def glweBody (w : Width) (k n : Nat) (key pt : List Int) (mask noise : List Int) : List Int :=
  (List.range n).map fun t =>
    torus w (torus w (elemAt noise t + torus w (innerCoeff k n mask key t)) + elemAt pt t)

/-- Steps (1) to (5) of R110 for one ciphertext at base c, the key and the plaintext having been read. -/
def State.encryptLwe (s : State) (w : Width) (d : Descriptors) (key : List Int) (p : Int) (c : Nat) : Attempt State :=
  s.sampleInto w d c d.keyDim.toNat 1 (lweBody w d.keyDim.toNat key p)

/-- Steps (1) to (5) of R111, the key and the plaintext having been read. -/
def State.encryptGlwe (s : State) (w : Width) (d : Descriptors) (key pt : List Int) : Attempt State :=
  s.sampleInto w d d.ctBase.toNat (d.keyDim.toNat * d.keyPoly.toNat) d.keyPoly.toNat
    (glweBody w d.keyDim.toNat d.keyPoly.toNat key pt)

/-- The LWE key, element i at KEY_BASE + i (R105). -/
def State.readKeyLwe (s : State) (w : Width) (d : Descriptors) : Attempt (List Int) :=
  s.readElems w d.keyBase.toNat d.keyDim.toNat

/-- The GLWE key, coefficient t of polynomial j at position j * N + t (R106). -/
def State.readKeyGlwe (s : State) (w : Width) (d : Descriptors) : Attempt (List Int) :=
  s.readElems w d.keyBase.toNat (d.keyDim.toNat * d.keyPoly.toNat)

/-- The pseudocode of R110 without its completion. -/
def State.encLwe (s : State) (w : Width) (d : Descriptors) : Attempt State :=
  (s.readKeyLwe w d).andThen fun key =>
    (s.readElem w d.ptBase.toNat).andThen fun p => s.encryptLwe w d key p d.ctBase.toNat

/-- The pseudocode of R111 without its completion. -/
def State.encGlwe (s : State) (w : Width) (d : Descriptors) : Attempt State :=
  (s.readKeyGlwe w d).andThen fun key =>
    (s.readElems w d.ptBase.toNat d.keyPoly.toNat).andThen fun pt => s.encryptGlwe w d key pt

/-- The pseudocode of R116: size - 1 zero cells, then the plaintext. -/
def State.trivialLwe (s : State) (w : Width) (d : Descriptors) : Attempt State :=
  (s.readElem w d.ptBase.toNat).andThen fun p =>
    s.writeElems w d.ctBase.toNat (List.replicate (d.ctSize.toNat - 1) 0 ++ [p])

/-- The pseudocode of R117: (g - 1) * N zero cells, then the plaintext coefficients. -/
def State.trivialGlwe (s : State) (w : Width) (d : Descriptors) : Attempt State :=
  (s.readElems w d.ptBase.toNat d.ctPoly.toNat).andThen fun pt =>
    s.writeElems w d.ctBase.toNat (List.replicate ((d.ctSize.toNat - 1) * d.ctPoly.toNat) 0 ++ pt)

/-- AENC.LWE reports the size it gave the ciphertext in CT_SIZE (R112). -/
def State.reportSizeLwe (s : State) (d : Descriptors) : State :=
  { s with desc := { s.desc with ctSize := BitVec.ofNat 64 (d.keyDim.toNat + 1) } }

/-- AENC.GLWE reports the sizes it gave the ciphertext in CT_SIZE and CT_POLY (R113). -/
def State.reportSizeGlwe (s : State) (d : Descriptors) : State :=
  { s with desc := { s.desc with ctSize := BitVec.ofNat 64 (d.keyDim.toNat + 1), ctPoly := d.keyPoly } }

/-! ### The commands -/

/-- ENC.LWE (R110). -/
def execEncLwe (e : Entry) (w : Width) (s : State) : Host.Outcome State Fault Refusal :=
  let d := s.latch.desc
  s.enter e (validation s.bufWords d (.encLwe e w)) (s.encLwe w d)

/-- ENC.GLWE (R111). -/
def execEncGlwe (e : Entry) (w : Width) (s : State) : Host.Outcome State Fault Refusal :=
  let d := s.latch.desc
  s.enter e (validation s.bufWords d (.encGlwe e w)) (s.encGlwe w d)

/-- AENC.LWE: the zero fill of R112 is not observable, every cell being overwritten or left unspecified. -/
def execAencLwe (e : Entry) (w : Width) (s : State) : Host.Outcome State Fault Refusal :=
  let d := s.latch.desc
  s.enter e (validation s.bufWords d (.aencLwe e w)) ((s.encLwe w d).andThen fun t => .done (t.reportSizeLwe d))

/-- AENC.GLWE (R113). -/
def execAencGlwe (e : Entry) (w : Width) (s : State) : Host.Outcome State Fault Refusal :=
  let d := s.latch.desc
  s.enter e (validation s.bufWords d (.aencGlwe e w)) ((s.encGlwe w d).andThen fun t => .done (t.reportSizeGlwe d))

/-- ZENC.LWE: the plaintext is the constant 0 and no plaintext is read (R114). -/
def execZencLwe (e : Entry) (w : Width) (s : State) : Host.Outcome State Fault Refusal :=
  let d := s.latch.desc
  s.enter e (validation s.bufWords d (.zencLwe e w))
    ((s.readKeyLwe w d).andThen fun key => s.encryptLwe w d key 0 d.ctBase.toNat)

/-- ZENC.GLWE: the plaintext is the zero polynomial and no plaintext is read (R115). -/
def execZencGlwe (e : Entry) (w : Width) (s : State) : Host.Outcome State Fault Refusal :=
  let d := s.latch.desc
  s.enter e (validation s.bufWords d (.zencGlwe e w))
    ((s.readKeyGlwe w d).andThen fun key => s.encryptGlwe w d key (List.replicate d.keyPoly.toNat 0))

/-- TENC.LWE (R116). -/
def execTencLwe (e : Entry) (w : Width) (s : State) : Host.Outcome State Fault Refusal :=
  let d := s.latch.desc
  s.enter e (validation s.bufWords d (.tencLwe e w)) (s.trivialLwe w d)

/-- TENC.GLWE (R117). -/
def execTencGlwe (e : Entry) (w : Width) (s : State) : Host.Outcome State Fault Refusal :=
  let d := s.latch.desc
  s.enter e (validation s.bufWords d (.tencGlwe e w)) (s.trivialGlwe w d)

/-- ATENC.LWE: the size is CT_SIZE and every cell is written, so it is the pseudocode of R116 (R118). -/
def execAtencLwe (e : Entry) (w : Width) (s : State) : Host.Outcome State Fault Refusal :=
  let d := s.latch.desc
  s.enter e (validation s.bufWords d (.atencLwe e w)) (s.trivialLwe w d)

/-- ATENC.GLWE: the sizes are CT_SIZE and CT_POLY; the pseudocode of R117 (R119). -/
def execAtencGlwe (e : Entry) (w : Width) (s : State) : Host.Outcome State Fault Refusal :=
  let d := s.latch.desc
  s.enter e (validation s.bufWords d (.atencGlwe e w)) (s.trivialGlwe w d)

/-- DEC.LWE: body minus the inner product of mask and key, unrounded, to PT_BASE (R120). -/
def execDecLwe (e : Entry) (w : Width) (s : State) : Host.Outcome State Fault Refusal :=
  let d := s.latch.desc
  let n := d.keyDim.toNat
  s.enter e (validation s.bufWords d (.decLwe e w))
    ((s.readElems w d.ctBase.toNat n).andThen fun a =>
      (s.readKeyLwe w d).andThen fun key =>
        (s.readElem w (d.ctBase.toNat + n)).andThen fun body =>
          s.writeElem w d.ptBase.toNat (torus w (body - dotSum n a key)))

/-- DEC.GLWE: coefficient by coefficient, body minus the inner product, to the N cells from PT_BASE (R121). -/
def execDecGlwe (e : Entry) (w : Width) (s : State) : Host.Outcome State Fault Refusal :=
  let d := s.latch.desc
  let k := d.keyDim.toNat
  let n := d.keyPoly.toNat
  s.enter e (validation s.bufWords d (.decGlwe e w))
    ((s.readElems w d.ctBase.toNat (k * n)).andThen fun a =>
      (s.readElems w (d.ctBase.toNat + k * n) n).andThen fun body =>
        (s.readKeyGlwe w d).andThen fun key =>
          s.writeElems w d.ptBase.toNat
            ((List.range n).map fun t => torus w (elemAt body t - torus w (innerCoeff k n a key t))))

end Sys2Proof.Machine
end

