-- ==== Sys2Proof/Machine/ListEncryption.lean ====
section
/-! DEFINITION. Sys2Proof/Machine/ListEncryption.lean: the list encryption command (44_list.md R124). -/

namespace Sys2Proof.Machine

open Sys2Proof

/-- One LWE encryption for each plaintext, in index order, ciphertext i at c + i * CT_SIZE. A draw that fails in an element
leaves the finished elements and touches none after it (R90, R124). -/
def State.encryptEach (s : State) (w : Width) (d : Descriptors) (key : List Int) : Nat → List Int → Attempt State
  | _, [] => .done s
  | c, p :: ps =>
    (s.encryptLwe w d key p c).andThen fun t => t.encryptEach w d key (c + d.ctSize.toNat) ps

/-- ENCL (R124). The key and the plaintexts are read before the first draw (60_exceptions.md R129); an empty list reads
nothing. -/
def execEncl (e : Entry) (w : Width) (s : State) : Host.Outcome State Fault Refusal :=
  let d := s.latch.desc
  s.enter e (validation s.bufWords d (.encl e w))
    (if d.ctCount = 0 then .done s
    else
      (s.readKeyLwe w d).andThen fun key =>
        (s.readElems w d.ptBase.toNat d.ptCount.toNat).andThen fun ps =>
          s.encryptEach w d key d.ctBase.toNat ps)

end Sys2Proof.Machine
end

