-- ==== Sys2Proof/Machine/Samplers.lean ====
section
/-! DEFINITION. Sys2Proof/Machine/Samplers.lean: NOP and the sampler commands (40_common.md R91, 41_samplers.md R94, R95). -/

namespace Sys2Proof.Machine

open Sys2Proof

/-- NOP: completes with code 0 (R91). -/
def execNop (e : Entry) (w : Width) (s : State) : Host.Outcome State Fault Refusal :=
  s.enter e (validation s.bufWords s.latch.desc (.nop e w)) (.done s)

/-- UFILL: LEN uniform draws into the cells from DST (R94). -/
def execUfill (e : Entry) (w : Width) (s : State) : Host.Outcome State Fault Refusal :=
  let d := s.latch.desc
  s.enter e (validation s.bufWords d (.ufill e w)) (s.sampleInto w d d.dst.toNat d.len.toNat 0 (fun _ _ => []))

/-- NFILL: LEN noise draws into the cells from DST (R95). -/
def execNfill (e : Entry) (w : Width) (s : State) : Host.Outcome State Fault Refusal :=
  let d := s.latch.desc
  s.enter e (validation s.bufWords d (.nfill e w)) (s.sampleInto w d d.dst.toNat 0 d.len.toNat (fun _ noise => noise))

end Sys2Proof.Machine
end

