-- ==== Sys2Proof/Machine/Dispatch.lean ====
section
/-! DEFINITION. Sys2Proof/Machine/Dispatch.lean: the meaning of each command, one arm per constructor of `Instr`. -/

namespace Sys2Proof.Machine

open Sys2Proof

def exec (i : Instr) (s : State) : Host.Outcome State Fault Refusal :=
  match i with
  | .nop e w => Sys2Proof.Machine.execNop e w s
  | .ufill e w => Sys2Proof.Machine.execUfill e w s
  | .nfill e w => Sys2Proof.Machine.execNfill e w s
  | .dot e w => Sys2Proof.Machine.execDot e w s
  | .dota e w => Sys2Proof.Machine.execDota e w s
  | .dots e w => Sys2Proof.Machine.execDots e w s
  | .accld e w => Sys2Proof.Machine.execAccld e w s
  | .accadd e w => Sys2Proof.Machine.execAccadd e w s
  | .accst e w => Sys2Proof.Machine.execAccst e w s
  | .encLwe e w => Sys2Proof.Machine.execEncLwe e w s
  | .encGlwe e w => Sys2Proof.Machine.execEncGlwe e w s
  | .aencLwe e w => Sys2Proof.Machine.execAencLwe e w s
  | .aencGlwe e w => Sys2Proof.Machine.execAencGlwe e w s
  | .zencLwe e w => Sys2Proof.Machine.execZencLwe e w s
  | .zencGlwe e w => Sys2Proof.Machine.execZencGlwe e w s
  | .tencLwe e w => Sys2Proof.Machine.execTencLwe e w s
  | .tencGlwe e w => Sys2Proof.Machine.execTencGlwe e w s
  | .atencLwe e w => Sys2Proof.Machine.execAtencLwe e w s
  | .atencGlwe e w => Sys2Proof.Machine.execAtencGlwe e w s
  | .decLwe e w => Sys2Proof.Machine.execDecLwe e w s
  | .decGlwe e w => Sys2Proof.Machine.execDecGlwe e w s
  | .encl e w => Sys2Proof.Machine.execEncl e w s

end Sys2Proof.Machine
end

