-- ==== Sys2Proof/Machine/HostPort.lean ====
section
/-! DEFINITION. Sys2Proof/Machine/HostPort.lean: the host's reads and writes of the register page and of BUF, and the host-script
operations of the spec (10_state.md R18 to R36; 20_memory.md R42 to R50, R57; 30_encoding.md R75, R76). -/

namespace Sys2Proof.Machine

open Sys2Proof

/-- The registers of the register page (R18). -/
inductive Reg where
  | id | bufsz | ctrl | status | cmd | errinfo0 | errinfo1 | acc
  | disp | ncfg | keyBase | keyDim | keyPoly | ctBase | ctSize | ctPoly | ctCount | ptBase | ptCount
  | srcA | srcB | dst | len | ucount | ncount
  deriving DecidableEq, Repr

/-- The map of R18: the register at index i stands at offset 8 * i, from 0x000 (ID) to 0x0C0 (NCOUNT). -/
def regMap : List Reg :=
  [.id, .bufsz, .ctrl, .status, .cmd, .errinfo0, .errinfo1, .acc, .disp, .ncfg, .keyBase, .keyDim, .keyPoly,
    .ctBase, .ctSize, .ctPoly, .ctCount, .ptBase, .ptCount, .srcA, .srcB, .dst, .len, .ucount, .ncount]

/-- The constant of ID (R19). -/
def idValue : Word := 0x5446_4845_0007_0001

/-- NCFG as it reads: KIND in bit 0, the rest 0 (R27). -/
def noiseKindWord : NoiseKind → Word
  | .standardDeviation => 0
  | .variance => 1

/-- KIND from bit 0 of a written word (R27). -/
def noiseKindOf (v : Word) : NoiseKind := if v.getLsbD 0 then .variance else .standardDeviation

/-- The current value of a register. CTRL reads IE in bit 0 and 0 elsewhere (R21). -/
def State.readReg (s : State) : Reg → Word
  | .id => idValue
  | .bufsz => BitVec.ofNat 64 s.bufWords
  | .ctrl => (BitVec.ofBool s.ie).setWidth 64
  | .status => s.statusWord
  | .cmd => s.cmd
  | .errinfo0 => s.errinfo0
  | .errinfo1 => s.errinfo1
  | .acc => s.acc
  | .disp => s.desc.disp
  | .ncfg => noiseKindWord s.desc.noiseKind
  | .keyBase => s.desc.keyBase
  | .keyDim => s.desc.keyDim
  | .keyPoly => s.desc.keyPoly
  | .ctBase => s.desc.ctBase
  | .ctSize => s.desc.ctSize
  | .ctPoly => s.desc.ctPoly
  | .ctCount => s.desc.ctCount
  | .ptBase => s.desc.ptBase
  | .ptCount => s.desc.ptCount
  | .srcA => s.desc.srcA
  | .srcB => s.desc.srcB
  | .dst => s.desc.dst
  | .len => s.desc.len
  | .ucount => s.ucount
  | .ncount => s.ncount

/-- The registers whose read while BUSY = 1 returns any value (R35). -/
def unstableWhileBusy : Reg → Bool
  | .acc => true
  | .ctSize => true
  | .ctPoly => true
  | .errinfo0 => true
  | .errinfo1 => true
  | .ucount => true
  | .ncount => true
  | _ => false

/-- The bits a host access of one register or cell reaches (20_memory.md R44). -/
inductive Lane where
  | whole
  | low
  | high
  deriving DecidableEq, Repr

/-- The lane of an access, none for an illegal width or a misaligned offset (R45). -/
def laneOf (size : AccessSize) (offset : Nat) : Option Lane :=
  match size with
  | .b64 => if offset % 8 = 0 then some .whole else none
  | .b32 => if offset % 8 = 0 then some .low else if offset % 8 = 4 then some .high else none
  | .b8 => none
  | .b16 => none
  | .b128 => none

/-- What a read of a lane returns, a 32-bit one zero-extended (R36, R44; log 7). -/
def laneRead (l : Lane) (v : Word) : Word :=
  match l with
  | .whole => v
  | .low => (v.extractLsb' 0 32).setWidth 64
  | .high => (v.extractLsb' 32 32).setWidth 64

/-- A write of a lane over an old value: the other half keeps its value (R36). -/
def laneWrite (l : Lane) (old data : Word) : Word :=
  match l with
  | .whole => data
  | .low => old.extractLsb' 32 32 ++ data.extractLsb' 0 32
  | .high => data.extractLsb' 0 32 ++ old.extractLsb' 0 32

/-- The host reads a register: its current value, or any value for those of R35 while BUSY = 1. -/
def State.hostReadReg (s : State) (r : Reg) (l : Lane) : State :=
  if s.busy && unstableWhileBusy r then
    { s with readData := laneRead l (Config.unspecifiedWord s.freeIndex), freeIndex := s.freeIndex + 1 }
  else { s with readData := laneRead l (s.readReg r) }

/-- Stores a value in ACC or a descriptor register; NCFG keeps bit 0 alone (R25, R27). The other registers have no such
store. -/
def State.storeReg (s : State) (r : Reg) (v : Word) : State :=
  match r with
  | .acc => { s with acc := v }
  | .disp => { s with desc := { s.desc with disp := v } }
  | .ncfg => { s with desc := { s.desc with noiseKind := noiseKindOf v } }
  | .keyBase => { s with desc := { s.desc with keyBase := v } }
  | .keyDim => { s with desc := { s.desc with keyDim := v } }
  | .keyPoly => { s with desc := { s.desc with keyPoly := v } }
  | .ctBase => { s with desc := { s.desc with ctBase := v } }
  | .ctSize => { s with desc := { s.desc with ctSize := v } }
  | .ctPoly => { s with desc := { s.desc with ctPoly := v } }
  | .ctCount => { s with desc := { s.desc with ctCount := v } }
  | .ptBase => { s with desc := { s.desc with ptBase := v } }
  | .ptCount => { s with desc := { s.desc with ptCount := v } }
  | .srcA => { s with desc := { s.desc with srcA := v } }
  | .srcB => { s with desc := { s.desc with srcB := v } }
  | .dst => { s with desc := { s.desc with dst := v } }
  | .len => { s with desc := { s.desc with len := v } }
  | _ => s

/-- A write of CTRL: soft reset where bit 1 is set, else IE from bit 0 (R21). -/
def State.writeCtrl (s : State) (v : Word) : State :=
  if v.getLsbD 1 then s.softReset else { s with ie := v.getLsbD 0 }

/-- The host writes a register. RO registers ignore it (R18, R34); CTRL and STATUS take it whatever BUSY is, the high
half alone having no effect on them (R36; log 12); CMD starts a command, its high half alone being ignored (R23; log 11);
the rest is dropped while BUSY = 1 (R34) and otherwise stored. -/
def State.hostWriteReg (s : State) (r : Reg) (l : Lane) (data : Word) : State :=
  match r with
  | .id => s
  | .bufsz => s
  | .errinfo0 => s
  | .errinfo1 => s
  | .ucount => s
  | .ncount => s
  | .ctrl => if l = .high then s else s.writeCtrl (laneWrite l 0 data)
  | .status => if l = .high then s else s.clearStatus (laneWrite l 0 data)
  | .cmd => if l = .high then s else if s.busy then s.dropWrite else s.start (laneWrite l 0 data)
  | r => if s.busy then s.dropWrite else s.storeReg r (laneWrite l (s.readReg r) data)

/-- An access in the register page; a reserved offset reads 0 and ignores writes (R33). -/
def State.registerAccess (s : State) (index : Nat) (l : Lane) (k : AccessKind) : State :=
  match regMap[index]?, k with
  | some r, .read => s.hostReadReg r l
  | some r, .write v => s.hostWriteReg r l v
  | none, .read => { s with readData := 0 }
  | none, .write _ => s

/-- The host reads a BUF cell or one half of it; a half that is needed and holds no value faults (20_memory.md R50). -/
def State.hostReadCell (s : State) (a : Nat) (l : Lane) : Host.Outcome State Fault Refusal :=
  match l with
  | .whole =>
    match s.mem.readCell a with
    | some v => .next { s with readData := v }
    | none => .fault .uninitRead
  | .low =>
    match s.mem.readHalf (2 * a) with
    | some v => .next { s with readData := v.setWidth 64 }
    | none => .fault .uninitRead
  | .high =>
    match s.mem.readHalf (2 * a + 1) with
    | some v => .next { s with readData := v.setWidth 64 }
    | none => .fault .uninitRead

/-- The host writes a BUF cell or one half of it (10_state.md R37). -/
def State.hostWriteCell (s : State) (a : Nat) (l : Lane) (v : Word) : State :=
  match l with
  | .whole => { s with mem := s.mem.writeCell a v }
  | .low => { s with mem := s.mem.writeHalf (2 * a) (v.extractLsb' 0 32) }
  | .high => { s with mem := s.mem.writeHalf (2 * a + 1) (v.extractLsb' 0 32) }

/-- An access in the BUF window: a fault while BUSY = 1 (R57). -/
def State.bufAccess (s : State) (a : Nat) (l : Lane) (k : AccessKind) : Host.Outcome State Fault Refusal :=
  if s.busy then .fault .hostBufWhileBusy
  else
    match k with
    | .read => s.hostReadCell a l
    | .write v => .next (s.hostWriteCell a l v)

/-- What a byte offset of the host window names (20_memory.md R43). -/
inductive Target where
  | register (index : Nat)
  | cell (a : Nat)
  | unmapped
  deriving DecidableEq, Repr

/-- The map of the host window (R43). -/
def targetOf (bufWords offset : Nat) : Target :=
  if offset < 0x1000 then .register (offset / 8)
  else if 0x100000 ≤ offset ∧ offset < 0x100000 + 8 * bufWords then .cell ((offset - 0x100000) / 8)
  else .unmapped

/-- One host access (R42 to R45). An illegal width, a misaligned offset and an unmapped offset fault before anything else
(log 13). -/
def State.hostAccess (s : State) (a : Access) : Host.Outcome State Fault Refusal :=
  match laneOf a.size a.offset.toNat, targetOf s.bufWords a.offset.toNat with
  | none, _ => .fault .hostBusError
  | some _, .unmapped => .fault .hostBusError
  | some l, .register i => .next (s.registerAccess i l a.kind)
  | some l, .cell c => s.bufAccess c l a.kind

/-! ### The host-script operations (R75) and pseudo-commands (R76) -/

/-- The byte offset of a register (R18). -/
def regOffset (r : Reg) : BitVec 24 := BitVec.ofNat 24 (8 * regMap.idxOf r)

/-- `wr REG, v`. -/
def scriptWr (r : Reg) (v : Word) : Input := .host ⟨.b64, regOffset r, .write v⟩

/-- `rd REG`. -/
def scriptRd (r : Reg) : Input := .host ⟨.b64, regOffset r, .read⟩

/-- `wrbuf a, v`. -/
def scriptWrBuf (a : Nat) (v : Word) : Input := .host ⟨.b64, BitVec.ofNat 24 (0x100000 + 8 * a), .write v⟩

/-- `rdbuf a`. -/
def scriptRdBuf (a : Nat) : Input := .host ⟨.b64, BitVec.ofNat 24 (0x100000 + 8 * a), .read⟩

/-- `cmd S`. -/
def scriptCmd (sp : Spelling) : Input := scriptWr .cmd (spellingWord sp)

/-- `wait`: the host's polling loop, the block taking its turn after `polls` reads of BUSY = 1 (log 5). -/
def scriptWait (polls : Nat) : List Input := List.replicate polls (scriptRd .status) ++ [.block, scriptRd .status]

/-- `CLRACC`. -/
def scriptClrAcc (w : Option Width) : List Input := [scriptWr .len 0, scriptCmd { op := .dot, entry := some .checked, width := w }]

/-- `NSAMP`. -/
def scriptNSamp (e : Option Entry) (w : Option Width) : List Input :=
  [scriptWr .len 1, scriptCmd { op := .nfill, entry := e, width := w }]

/-- `RUN S`. -/
def scriptRun (polls : Nat) (sp : Spelling) : List Input := scriptCmd sp :: scriptWait polls

end Sys2Proof.Machine
end

