-- ==== Sys2Proof/Machine/Block.lean ====
section
/-! DEFINITION. Sys2Proof/Machine/Block.lean: the block's one step (decode, run, complete) and one input from outside
(40_common.md R79, 30_encoding.md R71, 10_state.md R15). -/

namespace Sys2Proof.Machine

open Sys2Proof

/-- The error of an illegal word: code 4 with the word itself (R71). -/
def illegalCommand (c : Word) : CommandError := ⟨.illegalCommand, c, 0⟩

/-- The step of a Busy block: the latched word is decoded; a legal one is executed, an illegal one completes with code 4 in
both modes (R71, R79). -/
def State.runLatched (s : State) : Host.Outcome State Fault Refusal :=
  match decode s.latch.cmd with
  | .ok i => exec i s
  | .error _ => .next (s.raiseError (illegalCommand s.latch.cmd))

/-- The block's turn: an Idle block waits, holding all its state (R79, 60_exceptions.md R139, R148). -/
def State.blockTurn (s : State) : Host.Outcome State Fault Refusal :=
  match s.phase with
  | .idle => .next s
  | .busy => s.runLatched

/-- One input taken from the front of the pending ones; with none pending the block has its turn, so that a Busy block always
takes its step in the end (R79, R148; log 5, log 6). -/
def State.advance (s : State) : Host.Outcome State Fault Refusal :=
  match s.inputs with
  | [] => s.blockTurn
  | .block :: rest => { s with inputs := rest }.blockTurn
  | .host a :: rest => { s with inputs := rest }.hostAccess a
  | .reset :: rest => .next { s with inputs := rest }.powerOnReset

/-- The word c has just been written to CMD and the block's turn comes next: what lets the very next step run it (R77). -/
def State.placeCommand (s : State) (c : Word) : State := { s.start c with inputs := .block :: s.inputs }

end Sys2Proof.Machine
end

