-- ==== Sys2Proof/Machine/Step.lean ====
section
/-! DEFINITION. Sys2Proof/Machine/Step.lean: the step of the machine. Everything it does is `State.advance`
(Machine/Block.lean). -/

namespace Sys2Proof.Machine

open Sys2Proof

/-- One step: the next pending input from outside, or the block's turn. -/
def step (s : State) : Host.Outcome State Fault Refusal := s.advance

/-- `s` with the command of the opcode table's word `w` just started, so that the very next step executes it. The block
fetches no instruction (20_memory.md R60): a command arrives by the host's write to CMD, and this is that write (log 15). -/
def State.withFetchWord (s : State) (nbits w : Nat) : State :=
  s.placeCommand (BitVec.ofNat 64 (w % 2 ^ nbits))

end Sys2Proof.Machine
end

