-- ==== Sys2Proof/Safety.lean ====
section
/-! DEFINITION. Sys2Proof/Safety.lean: what a sound state is, what counts as the end of a run, and the words in which claims
speak of readable operands, delivered draws, stored results and unchanged memory. -/

namespace Sys2Proof.Machine

open Sys2Proof

/-! ### Runs -/

/-- A final state: the host has nothing more to do and the block is Idle (70_reset_and_hazards.md R148). -/
abbrev State.final (s : State) : Prop := s.phase = .idle ∧ s.inputs = []

/-- The invariant of the block: what its rules promise of every state a run reaches. -/
structure State.Inv (s : State) : Prop where
  /-- BUF_WORDS is legal (00_scope.md R6). -/
  bufWords_legal : 1 ≤ s.bufWords ∧ s.bufWords ≤ 2 ^ 20
  /-- BUF is in its canonical form. -/
  mem_wf : s.mem.wf
  /-- BUF lists no byte outside its cells (10_state.md R37). -/
  mem_inside : ∀ c ∈ s.mem, c.1 < 8 * s.bufWords
  /-- Each half holds a value as a whole or not at all (R37). -/
  mem_halves : ∀ h, (∀ i < 4, (s.mem.readByte (4 * h + i)).isSome) ∨ ∀ i < 4, s.mem.readByte (4 * h + i) = none
  /-- While Busy, DONE and ERR are 0 and ERRCODE is 0 (R35, 40_common.md R77). -/
  busy_flags : s.phase = .busy → s.done = false ∧ s.err = false ∧ s.errcode = 0
  /-- While Busy, the latch holds the live CMD and descriptors: nothing can change them (R34, R78). -/
  busy_latch : s.phase = .busy → s.latch.cmd = s.cmd ∧ s.latch.desc = s.desc
  /-- Codes 7 to 255 are never produced (60_exceptions.md R127). -/
  errcode_produced : s.errcode.toNat ≤ 6
  /-- ERR stands only with an error code (R22). -/
  err_has_code : s.err = true → s.errcode ≠ 0
  /-- Without an error code the information words are 0 (R24). -/
  info_zero : s.errcode = 0 → s.errinfo0 = 0 ∧ s.errinfo1 = 0
  /-- LASTOP is the OPC of the last accepted command word (R22, R23). -/
  lastop_cmd : s.lastop = s.cmd.extractLsb' 0 8

/-! ### Operands -/

/-- The `len` cells from `base` are in range and hold elements `x 0`, `x 1`, ... that a command of width `w` can read
(20_memory.md R49). -/
abbrev Readable (s : State) (w : Width) (base len : Nat) (x : Nat → Int) : Prop :=
  ∀ i < len, s.readElem w (base + i) = .done (x i)

/-- A region is empty or ends within BUF (40_common.md R85). -/
abbrev Fits (bufWords base len : Nat) : Prop := len = 0 ∨ base + len ≤ bufWords

/-- Two regions share no cell (R86). -/
abbrev Apart (a m b n : Nat) : Prop := m = 0 ∨ n = 0 ∨ a + m ≤ b ∨ b + n ≤ a

/-! ### Draws -/

/-- Draws number `k` to `k + n - 1` from here on, each for request `r`, are answered `ok` with `v 0`, `v 1`, ... (R87, R88). -/
abbrev Delivers (s : State) (k : Nat) (r : Request) (n : Nat) (v : Nat → Word) : Prop :=
  ∀ i < n, s.answerAt (k + i) r = .ok (v i)

/-- The request for noise at the latched dispersion (R88). -/
abbrev noiseRequest (w : Width) (d : Descriptors) : Request := .noise w d.disp d.noiseKind

/-- The noise element an answer gives: 0 at DISP = 0 (41_samplers.md R92), else its low b bits. -/
def noiseOf (w : Width) (d : Descriptors) (v : Word) : Int := if d.disp = 0 then 0 else elemOf w v

/-- `s` after `u` delivered uniform draws and `n` delivered noise draws: the counters count them mod 2^64 and the entropy
source has moved on (10_state.md R32, R87 to R89). -/
def State.drawn (s : State) (u n : Nat) : State :=
  { s with
    ucount := s.ucount + BitVec.ofNat 64 u
    ncount := s.ncount + BitVec.ofNat 64 n
    entropy := s.entropy.drop (u + n)
    drawIndex := s.drawIndex + (u + n) }

/-! ### Memory -/

/-- The `len` cells from `base` hold the words of `x 0`, `x 1`, ... at width `w` (20_memory.md R46). -/
abbrev Stores (m : Memory) (w : Width) (base len : Nat) (x : Nat → Int) : Prop :=
  ∀ i < len, m.readCell (base + i) = some (wordOf w (x i))

/-- Every byte outside the `len` cells from `base` reads in `m'` as in `m`. -/
def SameOutside (m m' : Memory) (base len : Nat) : Prop :=
  ∀ a, a < 8 * base ∨ 8 * (base + len) ≤ a → m'.readByte a = m.readByte a

/-- Every byte outside all the listed regions reads in `m'` as in `m`. -/
def SameOutsideAll (m m' : Memory) (rs : List Region) : Prop :=
  ∀ a, (∀ r ∈ rs, a < 8 * r.base ∨ 8 * (r.base + r.len) ≤ a) → m'.readByte a = m.readByte a

/-! ### Products -/

/-- The integer inner product of `n` elements (42_accumulator.md R97). -/
def innerProductOf (n : Nat) (a s : Nat → Int) : Int := ∑ i ∈ Finset.range n, a i * s i

/-- Coefficient `t` of the product of two polynomials of `n` coefficients, as 43_kernel.md R107 writes it: the products with
i + j = t, less those with i + j = t + n. -/
def polymulOf (n : Nat) (a s : Nat → Int) (t : Nat) : Int :=
  (∑ i ∈ Finset.range n, ∑ j ∈ Finset.range n, if i + j = t then a i * s j else 0)
    - ∑ i ∈ Finset.range n, ∑ j ∈ Finset.range n, if i + j = t + n then a i * s j else 0

/-- Coefficient `t` of the GLWE inner product of `k` polynomials of `n` coefficients, laid out polynomial-major (R107, R52). -/
def glweInnerOf (k n : Nat) (a s : Nat → Int) (t : Nat) : Int :=
  ∑ j ∈ Finset.range k, polymulOf n (fun i => a (j * n + i)) (fun i => s (j * n + i)) t

/-! ### Commands -/

/-- CHK of a command (30_encoding.md R65). -/
def entryOf : Instr → Entry
  | .nop e _ | .ufill e _ | .nfill e _ | .dot e _ | .dota e _ | .dots e _ | .accld e _ | .accadd e _ | .accst e _
  | .encLwe e _ | .encGlwe e _ | .aencLwe e _ | .aencGlwe e _ | .zencLwe e _ | .zencGlwe e _ | .tencLwe e _
  | .tencGlwe e _ | .atencLwe e _ | .atencGlwe e _ | .decLwe e _ | .decGlwe e _ | .encl e _ => e

/-- W of a command (R66). -/
def widthOf : Instr → Width
  | .nop _ w | .ufill _ w | .nfill _ w | .dot _ w | .dota _ w | .dots _ w | .accld _ w | .accadd _ w | .accst _ w
  | .encLwe _ w | .encGlwe _ w | .aencLwe _ w | .aencGlwe _ w | .zencLwe _ w | .zencGlwe _ w | .tencLwe _ w
  | .tencGlwe _ w | .atencLwe _ w | .atencGlwe _ w | .decLwe _ w | .decGlwe _ w | .encl _ w => w

/-- The same command through the other entry point, or the same one (40_common.md R82, R83). -/
def throughEntry (e : Entry) : Instr → Instr
  | .nop _ w => .nop e w
  | .ufill _ w => .ufill e w
  | .nfill _ w => .nfill e w
  | .dot _ w => .dot e w
  | .dota _ w => .dota e w
  | .dots _ w => .dots e w
  | .accld _ w => .accld e w
  | .accadd _ w => .accadd e w
  | .accst _ w => .accst e w
  | .encLwe _ w => .encLwe e w
  | .encGlwe _ w => .encGlwe e w
  | .aencLwe _ w => .aencLwe e w
  | .aencGlwe _ w => .aencGlwe e w
  | .zencLwe _ w => .zencLwe e w
  | .zencGlwe _ w => .zencGlwe e w
  | .tencLwe _ w => .tencLwe e w
  | .tencGlwe _ w => .tencGlwe e w
  | .atencLwe _ w => .atencLwe e w
  | .atencGlwe _ w => .atencGlwe e w
  | .decLwe _ w => .decLwe e w
  | .decGlwe _ w => .decGlwe e w
  | .encl _ w => .encl e w

/-- The cells a command reads, as regions (41_samplers.md to 44_list.md): an empty list command reads none (44_list.md R124). -/
def operandRegions (d : Descriptors) : Instr → List Region
  | .nop _ _ | .ufill _ _ | .nfill _ _ | .accst _ _ => []
  | .dot _ _ | .dota _ _ | .dots _ _ => [srcARegion d, srcBRegion d]
  | .accld _ _ | .accadd _ _ => [srcACell d]
  | .encLwe _ _ | .aencLwe _ _ => [keyLwe d, ptOne d]
  | .encGlwe _ _ | .aencGlwe _ _ => [keyGlwe d, ptGlwe d]
  | .zencLwe _ _ => [keyLwe d]
  | .zencGlwe _ _ => [keyGlwe d]
  | .tencLwe _ _ | .atencLwe _ _ => [ptOne d]
  | .tencGlwe _ _ | .atencGlwe _ _ => [ptTrivialGlwe d]
  | .decLwe _ _ => [keyLwe d, ctLwe d]
  | .decGlwe _ _ => [keyGlwe d, ctGlwe d]
  | .encl _ _ => if d.ctCount = 0 then [] else [keyLwe d, ptList d]

/-- The commands that make uniform draws (40_common.md R87, 10_state.md R32). -/
def drawsUniform : Instr → Bool
  | .ufill _ _ | .encLwe _ _ | .encGlwe _ _ | .aencLwe _ _ | .aencGlwe _ _ | .zencLwe _ _ | .zencGlwe _ _ | .encl _ _ => true
  | .nop _ _ | .nfill _ _ | .dot _ _ | .dota _ _ | .dots _ _ | .accld _ _ | .accadd _ _ | .accst _ _ | .tencLwe _ _
  | .tencGlwe _ _ | .atencLwe _ _ | .atencGlwe _ _ | .decLwe _ _ | .decGlwe _ _ => false

/-- The commands that make noise draws (R88, R32). -/
def drawsNoise : Instr → Bool
  | .nfill _ _ | .encLwe _ _ | .encGlwe _ _ | .aencLwe _ _ | .aencGlwe _ _ | .zencLwe _ _ | .zencGlwe _ _ | .encl _ _ => true
  | .nop _ _ | .ufill _ _ | .dot _ _ | .dota _ _ | .dots _ _ | .accld _ _ | .accadd _ _ | .accst _ _ | .tencLwe _ _
  | .tencGlwe _ _ | .atencLwe _ _ | .atencGlwe _ _ | .decLwe _ _ | .decGlwe _ _ => false

/-- `s` after a successful completion (40_common.md R80). -/
def State.succeeded (s : State) : State := { s with phase := .idle, done := true, err := false, errcode := 0 }

/-- `s` after a completion with an error code and its two information words (R80, 60_exceptions.md R126). -/
def State.failedWith (s : State) (code : BitVec 8) (info0 info1 : Word) : State :=
  { s with phase := .idle, done := true, err := true, errcode := code, errinfo0 := info0, errinfo1 := info1 }

/-- `s` after the draw that failed, following `u` delivered uniform draws and `n` delivered noise draws, with `cells` cells
left unspecified (R90). -/
def State.drawFailed (s : State) (u n cells : Nat) : State :=
  { s.drawn u n with
    entropy := s.entropy.drop (u + n + 1)
    drawIndex := s.drawIndex + (u + n + 1)
    freeIndex := s.freeIndex + cells }

/-! ### Expected errors: one predicate each, none where it holds -/

/-- An error a predicate reports: its code and its information words (60_exceptions.md R127). -/
abbrev Reported := BitVec 8 × Word × Word

/-- A shape predicate: code 1, the required value mod 2^64, the supplied value (R105, R106, R116, R117, R127). -/
def expectShape (holds : Prop) [Decidable holds] (required : Nat) (supplied : Word) : Option Reported :=
  if holds then none else some (1, BitVec.ofNat 64 required, supplied)

/-- The address predicate of region number `id`: code 5, the region id, the base (40_common.md R85). -/
def expectAddress (bufWords : Nat) (id : Word) (base : Word) (len : Nat) : Option Reported :=
  if Fits bufWords base.toNat len then none else some (5, id, base)

/-- The overlap predicate of written region `i` against region `j`: code 6, both ids (R86). -/
def expectOverlap (i : Word) (a : Word) (m : Nat) (j : Word) (b : Word) (n : Nat) : Option Reported :=
  if Apart a.toNat m b.toNat n then none else some (6, i, j)

/-- At the first false predicate of the list, the checked command ends with that predicate's error and changes nothing else, and
the unchecked one has no meaning (R82, R83). -/
def RejectsAtFirst (cmd : Entry → Instr) (s : State) (predicates : List (Option Reported)) : Prop :=
  ∀ x, predicates.findSome? id = some x →
    exec (cmd .checked) s = .next (s.failedWith x.1 x.2.1 x.2.2) ∧
      exec (cmd .unchecked) s = .fault .preconditionViolated

/-- Where no predicate of the list is false, the command is not rejected by either entry: it completes or faults on an operand
that holds no value. -/
def AdmitsOtherwise (cmd : Entry → Instr) (s : State) (predicates : List (Option Reported)) : Prop :=
  predicates.findSome? id = none →
    exec (cmd .checked) s = exec (cmd .unchecked) s ∧ exec (cmd .unchecked) s ≠ .fault .preconditionViolated

/-! ### What several claims say -/

/-- The `match` value of each row of the opcode table (R71: OPC for K = 0, OPC | 0x400 for K = 1). -/
def tableMatch : Instr → Word
  | .nop _ _ => 0x000
  | .ufill _ _ => 0x001
  | .nfill _ _ => 0x002
  | .dot _ _ => 0x008
  | .dota _ _ => 0x009
  | .dots _ _ => 0x00A
  | .accld _ _ => 0x00B
  | .accadd _ _ => 0x00C
  | .accst _ _ => 0x00D
  | .encLwe _ _ => 0x010
  | .encGlwe _ _ => 0x410
  | .aencLwe _ _ => 0x011
  | .aencGlwe _ _ => 0x411
  | .zencLwe _ _ => 0x012
  | .zencGlwe _ _ => 0x412
  | .tencLwe _ _ => 0x013
  | .tencGlwe _ _ => 0x413
  | .atencLwe _ _ => 0x014
  | .atencGlwe _ _ => 0x414
  | .decLwe _ _ => 0x018
  | .decGlwe _ _ => 0x418
  | .encl _ _ => 0x020

/-- The registers a host write stores in while Idle (R18: ACC and the descriptors). -/
def storedRegs : List Reg :=
  [.acc, .disp, .ncfg, .keyBase, .keyDim, .keyPoly, .ctBase, .ctSize, .ctPoly, .ctCount, .ptBase, .ptCount, .srcA, .srcB,
    .dst, .len]

/-- The register page as it reads after power-on or soft reset (R41): ID and BUFSZ keep their constants, the rest reads 0. -/
def readsAsReset (t : State) : Prop :=
  ∀ r, t.readReg r = (match r with | .id => 0x5446_4845_0007_0001 | .bufsz => BitVec.ofNat 64 t.bufWords | _ => 0)

/-- The words of an LWE encryption with n mask elements at c: the mask cells hold the draws, the body cell holds noise plus the
inner product of mask and key plus the plaintext, mod 2^b, and every byte outside is as in `s` (R110). -/
def lweCiphertext (s : State) (m : Memory) (w : Width) (n c : Nat) (u : Nat → Word) (noise : Int) (key : Nat → Int)
    (p : Int) : Prop :=
  Stores m w c n (fun i => elemOf w (u i)) ∧
    m.readCell (c + n) = some (wordOf w (noise + innerProductOf n (fun i => elemOf w (u i)) key + p)) ∧
    SameOutside s.mem m c (n + 1)

/-- The same of a GLWE encryption with k polynomials of N coefficients (R111). -/
def glweCiphertext (s : State) (m : Memory) (w : Width) (k n c : Nat) (u : Nat → Word) (noise key p : Nat → Int) : Prop :=
  Stores m w c (k * n) (fun i => elemOf w (u i)) ∧
    Stores m w (c + k * n) n (fun t => noise t + glweInnerOf k n (fun i => elemOf w (u i)) key t + p t) ∧
    SameOutside s.mem m c ((k + 1) * n)

/-- What a failed draw leaves (R90): the error with source `source`, the counters at the draws that did succeed, every cell of the
`cells` cells from `base` holding some word, and every byte outside as before. The words themselves are free values. -/
def drawFailure (i : Instr) (s : State) (u n : Nat) (source : Word) (base cells : Nat) : Prop :=
  ∃ m, exec i s = .next ({ s.drawFailed u n cells with mem := m }.failedWith 3 source 0) ∧
    (∀ a < cells, ∃ x, m.readCell (base + a) = some x) ∧ SameOutside s.mem m base cells

/-- `t` keeps the bytes of the `len` cells from `base`. -/
def keepsCells (s t : State) (base len : Nat) : Prop :=
  ∀ a, 8 * base ≤ a → a < 8 * (base + len) → t.mem.readByte a = s.mem.readByte a

end Sys2Proof.Machine
end

