-- ==== Sys2Proof/Certificates/Slice0/Obligations.lean ====
section
/-! DEFINITION. Sys2Proof/Certificates/Slice0/Obligations.lean: the statements for the provers. Each docstring names the rules
of spec/ the statement comes from; the words they use (`Readable`, `Delivers`, `Stores`, ...) are in Safety.lean. -/

open Sys2Proof Sys2Proof.Machine

/-! ### Encoding -/

/-- A word decodes to a command exactly where it is that command's encoding: nothing is dropped, nothing is read twice
(R63, R71). -/
def Obligations.DecodeInvertsEncode : Prop :=
  ∀ (c : Word) (i : Instr), decode c = .ok i ↔ c = encode i

/-- R71: the word `c` selects the row whose `match` equals `c & mask`, CHK and W being free; a word that selects none is
illegal, and exactly the words with a reserved bit, a reserved OPC or K = 1 without a GLWE form are (R68, R70); a Busy block
completes an illegal word with code 4, the word and 0, whatever its CHK, and changes nothing else. -/
def Obligations.DecodeByMaskAndMatch : Prop :=
  (∀ (c : Word) (i : Instr), decode c = .ok i ↔
    (c &&& 0xFFFF_FFFF_FFFF_FCFF = tableMatch i ∧ (c.getLsbD 8 = true ↔ entryOf i = .checked)
      ∧ (c.getLsbD 9 = true ↔ widthOf i = .w64))) ∧
  (∀ c : Word, (∃ i, decode c = .ok i) ↔ wordWellFormed c = true) ∧
  ∀ (s : State), s.phase = .busy → wordWellFormed s.latch.cmd = false →
    (s.inputs = [] →
    step s = .next (s.failedWith 4 s.latch.cmd 0)) ∧
    ∀ rest, s.inputs = .block :: rest → step s = .next ({ s with inputs := rest }.failedWith 4 s.latch.cmd 0)

/-- The spellings of R74 have the words its table lists, and the words decode to the commands they spell. -/
def Obligations.SpelledWords : Prop :=
  spellingWord { op := .nop } = 0x300 ∧ decode 0x300 = .ok (.nop .checked .w64) ∧
  spellingWord { op := .enc, entry := some .checked, width := some .w32, kind := some .lwe } = 0x110 ∧
  decode 0x110 = .ok (.encLwe .checked .w32) ∧
  spellingWord { op := .enc, entry := some .unchecked, width := some .w32, kind := some .lwe } = 0x010 ∧
  decode 0x010 = .ok (.encLwe .unchecked .w32) ∧
  spellingWord { op := .enc, entry := some .checked, width := some .w64, kind := some .glwe } = 0x710 ∧
  decode 0x710 = .ok (.encGlwe .checked .w64) ∧
  spellingWord { op := .dec, entry := some .checked, width := some .w32, kind := some .lwe } = 0x118 ∧
  decode 0x118 = .ok (.decLwe .checked .w32) ∧
  spellingWord { op := .dec, entry := some .checked, width := some .w64, kind := some .glwe } = 0x718 ∧
  decode 0x718 = .ok (.decGlwe .checked .w64) ∧
  spellingWord { op := .encl, entry := some .checked, width := some .w32 } = 0x120 ∧
  decode 0x120 = .ok (.encl .checked .w32) ∧
  spellingWord { op := .dot, entry := some .checked, width := some .w64 } = 0x308 ∧
  decode 0x308 = .ok (.dot .checked .w64) ∧
  spellingWord { op := .ufill, entry := some .unchecked, width := some .w32 } = 0x001 ∧
  decode 0x001 = .ok (.ufill .unchecked .w32)

/-! ### Memory -/

/-- `MemWrite` gives the cell the halves lo = v[31:0] and hi = v[63:32], `MemRead` then gives v back, every byte outside the
cell reads as before, nothing else of the state changes, and an address past BUF faults (R49). -/
def Obligations.CellWriteGivesBothHalves : Prop :=
  ∀ (s : State) (a : Nat) (v : Word),
    (a < s.bufWords →
      ∃ m, s.memWrite a v = .done { s with mem := m } ∧
        m.readHalf (2 * a) = some (v.extractLsb' 0 32) ∧ m.readHalf (2 * a + 1) = some (v.extractLsb' 32 32) ∧
        ({ s with mem := m } : State).memRead a = .done v ∧ SameOutside s.mem m a 1 ∧ (s.mem.wf → m.wf)) ∧
    (s.bufWords ≤ a → s.memWrite a v = .fault .addressRange ∧ s.memRead a = .fault .addressRange)

/-- A torus element takes one cell: a write of width b stores v mod 2^b zero-extended to 64 bits, so a 32-bit write leaves the
high half 0; a read of width b gives the low b bits, and at width 32 needs the low half alone (R46, R49; that a 32-bit
read of a 64-bit cell sees its low half is also R47, which the spec marks derived). -/
def Obligations.ElementTakesOneCell : Prop :=
  ∀ (s : State) (a : Nat), a < s.bufWords →
    (∀ (w : Width) (v : Int), ∃ t, s.writeElem w a v = .done t ∧
      (∃ x, t.mem.readCell a = some x ∧ (x.toNat : Int) = v % (2 ^ widthBits w : Nat)) ∧
      t.readElem w a = .done (v % (2 ^ widthBits w : Nat)) ∧
      (w = .w32 → t.mem.readHalf (2 * a + 1) = some 0)) ∧
    (∀ x, s.mem.readCell a = some x → s.readElem .w64 a = .done x.toNat) ∧
    (∀ lo, s.mem.readHalf (2 * a) = some lo → s.readElem .w32 a = .done lo.toNat)

/-- A read that needs a half with no value faults as UninitRead: by a command in every phase, and by the host at either width, its
reads of BUF being possible while Idle alone (R50). -/
def Obligations.UnvaluedHalfFaults : Prop :=
  ∀ (s : State) (a : Nat), a < s.bufWords →
    (s.mem.readHalf (2 * a) = none →
      s.readElem .w32 a = .fault .uninitRead ∧ s.readElem .w64 a = .fault .uninitRead ∧ s.memRead a = .fault .uninitRead) ∧
    (s.mem.readHalf (2 * a + 1) = none →
      s.readElem .w64 a = .fault .uninitRead ∧ s.memRead a = .fault .uninitRead) ∧
    (s.phase = .idle → s.bufWords ≤ 2 ^ 20 → s.mem.readHalf (2 * a) = none →
      s.hostAccess ⟨.b64, BitVec.ofNat 24 (0x100000 + 8 * a), .read⟩ = .fault .uninitRead ∧
      s.hostAccess ⟨.b32, BitVec.ofNat 24 (0x100000 + 8 * a), .read⟩ = .fault .uninitRead) ∧
    (s.phase = .idle → s.bufWords ≤ 2 ^ 20 → s.mem.readHalf (2 * a + 1) = none →
      s.hostAccess ⟨.b64, BitVec.ofNat 24 (0x100000 + 8 * a), .read⟩ = .fault .uninitRead ∧
      s.hostAccess ⟨.b32, BitVec.ofNat 24 (0x100000 + 8 * a + 4), .read⟩ = .fault .uninitRead)

/-! ### The host port -/

/-- An access gets a bus error exactly where its width is not 32 or 64 bits, its offset is not a multiple of its width, or its
offset is outside the register page and the BUF window (R43, R45); that this is decided before BUSY is the model's (log 13). -/
def Obligations.BusErrorsExactly : Prop :=
  ∀ (s : State) (x : Access),
    s.hostAccess x = .fault .hostBusError ↔
      (x.size ≠ .b32 ∧ x.size ≠ .b64) ∨ (x.size = .b64 ∧ x.offset.toNat % 8 ≠ 0) ∨
        (x.size = .b32 ∧ x.offset.toNat % 4 ≠ 0) ∨ (0x1000 ≤ x.offset.toNat ∧ x.offset.toNat < 0x100000) ∨
        0x100000 + 8 * s.bufWords ≤ x.offset.toNat ∧ 0x100000 ≤ x.offset.toNat

/-- While BUSY = 1 a host read or write of a BUF cell, of either width, records HostBufWhileBusy (R57). -/
def Obligations.BufferAccessWhileBusyFaults : Prop :=
  ∀ (s : State) (a : Nat) (k : AccessKind), s.phase = .busy → a < s.bufWords → s.bufWords ≤ 2 ^ 20 →
    s.hostAccess ⟨.b64, BitVec.ofNat 24 (0x100000 + 8 * a), k⟩ = .fault .hostBufWhileBusy ∧
    s.hostAccess ⟨.b32, BitVec.ofNat 24 (0x100000 + 8 * a), k⟩ = .fault .hostBufWhileBusy ∧
    s.hostAccess ⟨.b32, BitVec.ofNat 24 (0x100000 + 8 * a + 4), k⟩ = .fault .hostBufWhileBusy

/-- While Idle, a 64-bit write of a BUF cell answers, and the reads of 64 bits, of 32 bits at the cell and of 32 bits 4 above it
then return the word, its bits 31:0 and its bits 63:32; a 32-bit write changes the half it names and keeps the other; every byte
outside what is written reads as before (R44, R37). -/
def Obligations.HostSeesLittleEndianLanes : Prop :=
  ∀ (s : State) (a : Nat) (v : Word), s.phase = .idle → a < s.bufWords → s.bufWords ≤ 2 ^ 20 →
    (∃ m, s.hostAccess ⟨.b64, BitVec.ofNat 24 (0x100000 + 8 * a), .write v⟩ = .next { s with mem := m } ∧
      SameOutside s.mem m a 1 ∧
      ({ s with mem := m } : State).hostAccess ⟨.b64, BitVec.ofNat 24 (0x100000 + 8 * a), .read⟩ =
        .next { s with mem := m, readData := v } ∧
      ({ s with mem := m } : State).hostAccess ⟨.b32, BitVec.ofNat 24 (0x100000 + 8 * a), .read⟩ =
        .next { s with mem := m, readData := (v.extractLsb' 0 32).setWidth 64 } ∧
      ({ s with mem := m } : State).hostAccess ⟨.b32, BitVec.ofNat 24 (0x100000 + 8 * a + 4), .read⟩ =
        .next { s with mem := m, readData := (v.extractLsb' 32 32).setWidth 64 }) ∧
    (∃ m, s.hostAccess ⟨.b32, BitVec.ofNat 24 (0x100000 + 8 * a), .write v⟩ = .next { s with mem := m } ∧
      m.readHalf (2 * a) = some (v.extractLsb' 0 32) ∧ m.readHalf (2 * a + 1) = s.mem.readHalf (2 * a + 1) ∧
      ∀ b, b < 8 * a ∨ 8 * a + 4 ≤ b → m.readByte b = s.mem.readByte b) ∧
    (∃ m, s.hostAccess ⟨.b32, BitVec.ofNat 24 (0x100000 + 8 * a + 4), .write v⟩ = .next { s with mem := m } ∧
      m.readHalf (2 * a + 1) = some (v.extractLsb' 0 32) ∧ m.readHalf (2 * a) = s.mem.readHalf (2 * a) ∧
      ∀ b, b < 8 * a + 4 ∨ 8 * a + 8 ≤ b → m.readByte b = s.mem.readByte b)

/-- While Idle, a host write of ACC or a descriptor at its offset answers, and then that register reads the written word (64 bits),
or its old value with bits 31:0 or 63:32 replaced (32 bits at the offset, or 4 above); NCFG keeps bit 0 alone; every other
register reads as before, and so does every byte of BUF (R18, R27, R36). -/
def Obligations.RegisterWriteStores : Prop :=
  ∀ (s : State) (r : Reg) (v : Word), s.phase = .idle → r ∈ storedRegs →
    ∀ (size : AccessSize) (above : Nat) (new : Word),
      (size = .b64 ∧ above = 0 ∧ new = v) ∨
        (size = .b32 ∧ above = 0 ∧ new = (s.readReg r).extractLsb' 32 32 ++ v.extractLsb' 0 32) ∨
        (size = .b32 ∧ above = 4 ∧ new = v.extractLsb' 0 32 ++ (s.readReg r).extractLsb' 0 32) →
      ∃ t, s.hostAccess ⟨size, BitVec.ofNat 24 (8 * regMap.idxOf r + above), .write v⟩ = .next t ∧
        t.readReg r = (if r = .ncfg then new &&& 1 else new) ∧ (∀ q, q ≠ r → t.readReg q = s.readReg q) ∧
        t.mem = s.mem ∧ t.phase = .idle ∧ t.latch = s.latch

/-- A host write to a read-only register or to a reserved offset of the register page changes nothing whatever BUSY is, and a
read of a reserved offset returns 0 (R33, R34). -/
def Obligations.ReadOnlyAndReservedIgnoreWrites : Prop :=
  ∀ (s : State) (v : Word),
    (∀ r ∈ [Reg.id, .bufsz, .errinfo0, .errinfo1, .ucount, .ncount],
      s.hostAccess ⟨.b64, BitVec.ofNat 24 (8 * regMap.idxOf r), .write v⟩ = .next s ∧
      s.hostAccess ⟨.b32, BitVec.ofNat 24 (8 * regMap.idxOf r), .write v⟩ = .next s ∧
      s.hostAccess ⟨.b32, BitVec.ofNat 24 (8 * regMap.idxOf r + 4), .write v⟩ = .next s) ∧
    ∀ o : Nat, 0x0C8 ≤ o → o < 0x1000 →
      (o % 8 = 0 → s.hostAccess ⟨.b64, BitVec.ofNat 24 o, .write v⟩ = .next s ∧
        s.hostAccess ⟨.b64, BitVec.ofNat 24 o, .read⟩ = .next { s with readData := 0 }) ∧
      (o % 4 = 0 → s.hostAccess ⟨.b32, BitVec.ofNat 24 o, .write v⟩ = .next s ∧
        s.hostAccess ⟨.b32, BitVec.ofNat 24 o, .read⟩ = .next { s with readData := 0 })

/-- While BUSY = 1 a host write to CMD, ACC, DISP, NCFG or any of KEY_BASE to LEN is dropped and sets WBUSY, and that is all it
does; at CMD the 64-bit write and the 32-bit write at its offset (R34, R23). The 32-bit write at 0x024 is ignored and does not
set WBUSY: that R23 is followed there while Busy is the model's choice (log 11). -/
def Obligations.WritesWhileBusyAreDropped : Prop :=
  ∀ (s : State) (v : Word), s.phase = .busy →
    (∀ r ∈ Reg.cmd :: storedRegs,
      s.hostAccess ⟨.b64, BitVec.ofNat 24 (8 * regMap.idxOf r), .write v⟩ = .next { s with wbusy := true } ∧
      s.hostAccess ⟨.b32, BitVec.ofNat 24 (8 * regMap.idxOf r), .write v⟩ = .next { s with wbusy := true }) ∧
    (∀ r ∈ storedRegs,
      s.hostAccess ⟨.b32, BitVec.ofNat 24 (8 * regMap.idxOf r + 4), .write v⟩ = .next { s with wbusy := true }) ∧
    s.hostAccess ⟨.b32, 0x24, .write v⟩ = .next s

/-- A host write of v to STATUS, in any phase and at both widths, clears DONE, ERR and WBUSY where v has bits 1, 2 and 3, and
clears nothing else: STATUS then reads its old value without the bits of v & 0xE; no other register and no byte of BUF changes
(R22). -/
def Obligations.StatusWriteOneToClear : Prop :=
  ∀ (s : State) (v : Word), ∃ t,
    s.hostAccess ⟨.b64, 0x18, .write v⟩ = .next t ∧ s.hostAccess ⟨.b32, 0x18, .write v⟩ = .next t ∧
      t.readReg .status = s.readReg .status &&& ~~~(v &&& 0xE) ∧
      t = { s with done := t.done, err := t.err, wbusy := t.wbusy }

/-- A host write of CTRL, in any phase: without bit 1 it sets IE to bit 0 and changes nothing else; with bit 1 it is a soft reset,
after which every register reads its power-on value, the phase is Idle, the latch is 0, IRQ is low, and BUF keeps every byte where
the phase was Idle (R21, R142 a, c). -/
def Obligations.CtrlWriteOrSoftReset : Prop :=
  ∀ (s : State) (v : Word), ∃ t,
    s.hostAccess ⟨.b64, 0x10, .write v⟩ = .next t ∧ s.hostAccess ⟨.b32, 0x10, .write v⟩ = .next t ∧
      (v.getLsbD 1 = false → t = { s with ie := v.getLsbD 0 }) ∧
      (v.getLsbD 1 = true →
        readsAsReset t ∧ t.phase = .idle ∧ t.latch = .zero ∧ t.irq = false ∧ t.bufWords = s.bufWords ∧
        (s.phase = .idle → t.mem = s.mem))

/-- A soft reset while Busy: the running command is abandoned with no completion; the bytes of every cell below BUF_WORDS of the
regions its rule names as written hold no value, and every other byte keeps its value; an illegal word changes no cell (R142 b). -/
def Obligations.SoftResetAbandonsTheCommand : Prop :=
  ∀ (s : State) (v : Word), s.phase = .busy → v.getLsbD 1 = true →
    ∃ t, s.hostAccess ⟨.b64, 0x10, .write v⟩ = .next t ∧ t.done = false ∧ t.err = false ∧
      (∀ i, decode s.latch.cmd = .ok i → ∀ a,
        t.mem.readByte a =
          if (∃ r ∈ writtenRegions s.latch.desc i, 8 * r.base ≤ a ∧ a < 8 * (r.base + r.len)) ∧ a < 8 * s.bufWords
          then none else s.mem.readByte a) ∧
      (wordWellFormed s.latch.cmd = false → t.mem = s.mem)

/-- Power-on, for every BUF_WORDS: every register reads its value of R41, the phase is Idle, the latch is 0, IRQ is low and every
half of every BUF cell holds no value; and the reset input leaves the same of any block in any phase (R41, R141). That the
pending inputs and the entropy source stay is the model's choice (log 19). -/
def Obligations.PowerOnReset : Prop :=
  (∀ n : Nat, readsAsReset (State.powerOn n) ∧ (State.powerOn n).phase = .idle ∧ (State.powerOn n).latch = .zero ∧
    (State.powerOn n).irq = false ∧ (State.powerOn n).bufWords = n ∧ ∀ a, (State.powerOn n).mem.readHalf a = none) ∧
  ∀ (s : State) (rest : List Input), s.inputs = .reset :: rest →
    ∃ t, step s = .next t ∧ readsAsReset t ∧ t.phase = .idle ∧ t.latch = .zero ∧ t.irq = false ∧
      t.bufWords = s.bufWords ∧ (∀ a, t.mem.readHalf a = none) ∧ t.inputs = rest ∧ t.entropy = s.entropy ∧
      t.drawIndex = s.drawIndex

/-- A host write of word c to CMD, of 64 bits or of 32 bits at its offset, while Idle: CMD holds c (32 bits zero-extended), the
latch holds c and the descriptors, BUSY = 1, DONE, ERR, ERRCODE and both information words are 0, LASTOP is c[7:0], and nothing else
changes; WBUSY in particular. While Busy the write is dropped (R77, R78, R23). A 32-bit write at 0x024 while Idle is ignored
and starts nothing (R23). -/
def Obligations.CommandWriteStarts : Prop :=
  (∀ (s : State) (v : Word), s.phase = .idle → s.hostAccess ⟨.b32, 0x24, .write v⟩ = .next s) ∧
  ∀ (s : State) (v : Word) (size : AccessSize) (c : Word),
    (size = .b64 ∧ c = v) ∨ (size = .b32 ∧ c = (v.extractLsb' 0 32).setWidth 64) →
    (s.phase = .idle →
      s.hostAccess ⟨size, 0x20, .write v⟩ =
        .next { s with
          cmd := c, latch := ⟨c, s.desc⟩, phase := .busy, done := false, err := false, errcode := 0,
          lastop := c.extractLsb' 0 8, errinfo0 := 0, errinfo1 := 0 }) ∧
    (s.phase = .busy → s.hostAccess ⟨size, 0x20, .write v⟩ = .next { s with wbusy := true })

/-- A host read changes nothing but what it returns and which unspecified word comes next; of a register that R35 does not except,
it returns the register's value in every phase, and of every register while Idle (R35, R48). The unspecified words and `readData`
are the model's (log 4, 7). -/
def Obligations.HostReadsHaveNoSideEffects : Prop :=
  (∀ (s t : State) (size : AccessSize) (o : BitVec 24), s.hostAccess ⟨size, o, .read⟩ = .next t →
    t = { s with readData := t.readData, freeIndex := t.freeIndex }) ∧
  ∀ (s : State) (r : Reg),
    s.phase = .idle ∨ r ∉ [Reg.acc, .ctSize, .ctPoly, .errinfo0, .errinfo1, .ucount, .ncount] →
    s.hostAccess ⟨.b64, BitVec.ofNat 24 (8 * regMap.idxOf r), .read⟩ = .next { s with readData := s.readReg r } ∧
    s.hostAccess ⟨.b32, BitVec.ofNat 24 (8 * regMap.idxOf r), .read⟩ =
      .next { s with readData := ((s.readReg r).extractLsb' 0 32).setWidth 64 } ∧
    s.hostAccess ⟨.b32, BitVec.ofNat 24 (8 * regMap.idxOf r + 4), .read⟩ =
      .next { s with readData := ((s.readReg r).extractLsb' 32 32).setWidth 64 }

/-! ### The machine -/

/-- IRQ is CTRL.IE and (STATUS.DONE or STATUS.ERR) as those registers read; so it rises at every completion while IE = 1 and
is low at every start (R130). -/
def Obligations.InterruptLevel : Prop :=
  (∀ s : State, s.irq =
    ((s.readReg .ctrl).getLsbD 0 && ((s.readReg .status).getLsbD 1 || (s.readReg .status).getLsbD 2))) ∧
  (∀ (i : Instr) (s t : State), exec i s = .next t → t.irq = s.ie) ∧
  ∀ (s : State) (v : Word), s.phase = .idle →
    ∃ t, s.hostAccess ⟨.b64, 0x20, .write v⟩ = .next t ∧ t.irq = false

/-- A step of a Busy block with the turn (its turn is the next input, or no input is pending) is exactly `exec` of the command its
latch decodes to, at that state with the turn taken from the inputs; an Idle block waits and keeps its state (R79, R148). The list
of inputs is the model's (log 5). -/
def Obligations.StepRunsTheLatchedCommand : Prop :=
  (∀ (s : State) (i : Instr), s.phase = .busy → decode s.latch.cmd = .ok i →
    (s.inputs = [] → step s = exec i s) ∧
    ∀ rest, s.inputs = .block :: rest → step s = exec i { s with inputs := rest }) ∧
  (∀ s : State, s.phase = .idle →
    (s.inputs = [] → step s = .next s) ∧ ∀ rest, s.inputs = .block :: rest → step s = .next { s with inputs := rest }) ∧
  ∀ (s : State) (a : Access) (rest : List Input), s.inputs = .host a :: rest →
    step s = ({ s with inputs := rest } : State).hostAccess a

/-- Every step keeps the invariant: BUF in its canonical form within BUF_WORDS and valued by halves, DONE, ERR and ERRCODE clear
and the latch equal to the live operands while Busy, no reserved error code, no ERR without a code, no information words without a
code, LASTOP the OPC of CMD (R6, R22 to R24, R34, R35, R37, R77, R78, R127). -/
def Obligations.EveryStepKeepsTheInvariant : Prop :=
  ∀ s t : State, s.Inv → step s = .next t → t.Inv

/-- The invariant holds after power-on reset, for every legal BUF_WORDS, and of `State.reset`, whose BUF_WORDS is the model's
(log 1) (R6, R41). -/
def Obligations.InvariantHoldsAtReset : Prop :=
  (∀ n : Nat, 1 ≤ n → n ≤ 2 ^ 20 → (State.powerOn n).Inv) ∧ State.reset.Inv

/-- Every command that answers a next state has completed (R80): Idle, DONE = 1, ERR set exactly with a code, the code one of 0 to
6, and the information words written only with a code. -/
def Obligations.EveryCommandCompletes : Prop :=
  ∀ (i : Instr) (s t : State), exec i s = .next t →
    t.phase = .idle ∧ t.done = true ∧ (t.err = true ↔ t.errcode ≠ 0) ∧ t.errcode.toNat ≤ 6 ∧
      (t.errcode = 0 → t.errinfo0 = s.errinfo0 ∧ t.errinfo1 = s.errinfo1)

/-- No command changes BUFSZ, CTRL, WBUSY, LASTOP, CMD or the latch; ACC is changed by DOT, DOTA, DOTS, ACCLD and ACCADD alone;
CT_SIZE and CT_POLY by AENC alone, and every other descriptor by none; UCOUNT by UFILL, ENC, AENC, ZENC and ENCL alone, NCOUNT
by NFILL, ENC, AENC, ZENC and ENCL alone (R16, R22, R25, R32). -/
def Obligations.CommandsKeepOtherRegisters : Prop :=
  ∀ (i : Instr) (s t : State), exec i s = .next t →
    t.bufWords = s.bufWords ∧ t.ie = s.ie ∧ t.wbusy = s.wbusy ∧ t.lastop = s.lastop ∧ t.cmd = s.cmd ∧ t.latch = s.latch ∧
    t.inputs = s.inputs ∧ t.readData = s.readData ∧
    (t.acc ≠ s.acc → ∃ e w, i = .dot e w ∨ i = .dota e w ∨ i = .dots e w ∨ i = .accld e w ∨ i = .accadd e w) ∧
    t.desc = { s.desc with ctSize := t.desc.ctSize, ctPoly := t.desc.ctPoly } ∧
    (t.desc.ctSize ≠ s.desc.ctSize → ∃ e w, i = .aencLwe e w ∨ i = .aencGlwe e w) ∧
    (t.desc.ctPoly ≠ s.desc.ctPoly → ∃ e w, i = .aencGlwe e w) ∧
    (t.ucount ≠ s.ucount → drawsUniform i = true) ∧ (t.ncount ≠ s.ncount → drawsNoise i = true)

/-- The memory frame of every command, whatever it ends with: every byte outside the regions its rule names as written reads as
before; a command that ends with code 1, 2, 4, 5 or 6 changes nothing but STATUS and the information words (R82, R84, R126). -/
def Obligations.CommandsWriteTheirRegionsOnly : Prop :=
  ∀ (i : Instr) (s t : State), exec i s = .next t →
    SameOutsideAll s.mem t.mem (writtenRegions s.latch.desc i) ∧
    (t.errcode ≠ 0 → t.errcode ≠ 3 → t = s.failedWith t.errcode t.errinfo0 t.errinfo1)

/-- No kernel command changes a byte of its KEY region (R28, R134): the encryptions, the decryptions and list encryption, LWE and
GLWE. -/
def Obligations.SecretKeyIsNeverWritten : Prop :=
  ∀ (i : Instr) (s t : State) (r : Region), exec i s = .next t →
    ((∃ e w, (i = .encLwe e w ∨ i = .aencLwe e w ∨ i = .zencLwe e w ∨ i = .decLwe e w ∨ i = .encl e w) ∧
        r = keyLwe s.latch.desc) ∨
      ∃ e w, (i = .encGlwe e w ∨ i = .aencGlwe e w ∨ i = .zencGlwe e w ∨ i = .decGlwe e w) ∧ r = keyGlwe s.latch.desc) →
    ∀ a, 8 * r.base ≤ a → a < 8 * (r.base + r.len) → t.mem.readByte a = s.mem.readByte a

/-- The two entry points (R82, R83), for every command: at the first false predicate the checked command reports its error and
nothing else changes, and the unchecked one faults as PreconditionViolated; where all hold both do the same, and neither is
rejected. -/
def Obligations.CheckedAndUncheckedEntries : Prop :=
  ∀ (i : Instr) (s : State),
    (∀ x, firstFailure (validation s.bufWords s.latch.desc i) = some x →
      exec (throughEntry .checked i) s = .next (s.failedWith (errorNumber x.code) x.info0 x.info1) ∧
      exec (throughEntry .unchecked i) s = .fault .preconditionViolated) ∧
    (firstFailure (validation s.bufWords s.latch.desc i) = none →
      exec (throughEntry .checked i) s = exec (throughEntry .unchecked i) s ∧
      exec i s ≠ .fault .preconditionViolated)

/-- Every command ends in a completion, in UninitRead or, unchecked, in PreconditionViolated; where its predicates hold, it faults
as UninitRead exactly where a cell it reads cannot be read, whatever its draws answer, and else completes (R79, R83, R129). Which
cells an empty list reads is the model's reading of R124 and R129 (log 9). -/
def Obligations.CommandsCompleteUnlessAnOperandIsUnvalued : Prop :=
  ∀ (i : Instr) (s : State),
    (entryOf i = .checked → firstFailure (validation s.bufWords s.latch.desc i) ≠ none → ∃ t, exec i s = .next t) ∧
    (firstFailure (validation s.bufWords s.latch.desc i) = none →
      ((∃ r ∈ operandRegions s.latch.desc i, ∃ k < r.len, ∀ x, s.readElem (widthOf i) (r.base + k) ≠ .done x) →
        exec i s = .fault .uninitRead) ∧
      ((∀ r ∈ operandRegions s.latch.desc i, ∀ k < r.len, ∃ x, s.readElem (widthOf i) (r.base + k) = .done x) →
        ∃ t, exec i s = .next t))

/-! ### Draws and arithmetic -/

/-- A draw is the oracle's answer: an `ok` answer delivers b bits of its word (for noise at DISP = 0 it delivers 0) and counts, and a
`fail` answer fails the draw and changes nothing but the entropy source (R87, R88). So noise at DISP = 0 is 0 or the draw fails, for both kinds and both widths, and a delivered one counts in NCOUNT (R92, R88); a
uniform draw gives an element in [0, 2^b) and counts in UCOUNT (R87); a failed draw counts in neither. The spec marks R92 as
derived; how an answer is read is the model's (log 2, 3). -/
def Obligations.DrawsObeyTheirLaws : Prop :=
  ∀ (s : State) (w : Width),
    (∀ v, s.answerAt 0 (.uniform w) = .ok v → s.draw (.uniform w) = .all [elemOf w v] (s.drawn 1 0)) ∧
    (∀ (d : Word) (k : NoiseKind) (v : Word), s.answerAt 0 (.noise w d k) = .ok v →
      s.draw (.noise w d k) = .all [if d = 0 then 0 else elemOf w v] (s.drawn 0 1)) ∧
    (∀ r, s.answerAt 0 r = .fail →
      s.draw r = .failed { s with entropy := s.entropy.tail, drawIndex := s.drawIndex + 1 }) ∧
    (∀ k : NoiseKind, (∃ t, s.draw (.noise w 0 k) = .all [0] t ∧ t = s.drawn 0 1) ∨
      ∃ t, s.draw (.noise w 0 k) = .failed t ∧ t.ucount = s.ucount ∧ t.ncount = s.ncount) ∧
    (∀ (d : Word) (k : NoiseKind), (∃ e t, s.draw (.noise w d k) = .all [e] t ∧ 0 ≤ e ∧ e < (2 ^ widthBits w : Nat) ∧
        t = s.drawn 0 1) ∨
      ∃ t, s.draw (.noise w d k) = .failed t ∧ t.ucount = s.ucount ∧ t.ncount = s.ncount) ∧
    ((∃ u t, s.draw (.uniform w) = .all [u] t ∧ 0 ≤ u ∧ u < (2 ^ widthBits w : Nat) ∧ t = s.drawn 1 0) ∨
      ∃ t, s.draw (.uniform w) = .failed t ∧ t.ucount = s.ucount ∧ t.ncount = s.ncount)

/-- Reducing mod 2^b at every product and every sum, in any order of the terms, gives the inner product reduced once (R97). -/
def Obligations.InnerProductReducedOnceOrPerTerm : Prop :=
  ∀ (w : Width) (n : Nat) (a s : Nat → Int) (order : List Nat), order.Perm (List.range n) →
    ((order.foldl (fun acc i => acc + BitVec.ofInt (widthBits w) (a i) * BitVec.ofInt (widthBits w) (s i)) 0).toNat : Int) =
      torus w (dotSum n ((List.range n).map a) ((List.range n).map s))

/-! ### Results: NOP, samplers, accumulator -/

/-- NOP completes with code 0 in every state, by both entries and at both widths, and changes nothing else (R91). -/
def Obligations.NopCompletes : Prop :=
  ∀ (e : Entry) (w : Width) (s : State), exec (.nop e w) s = .next s.succeeded

/-- UFILL and NFILL: the LEN cells from DST take, in order, LEN uniform draws, or LEN noise draws of their own, zeros at DISP = 0
(R92, which the spec marks derived);
UCOUNT or NCOUNT rises by LEN; the rest is unchanged (R94, R95). -/
def Obligations.SamplersWriteTheirDraws : Prop :=
  ∀ (e : Entry) (w : Width) (s : State) (v : Nat → Word),
    let d := s.latch.desc
    Fits s.bufWords d.dst.toNat d.len.toNat →
    (Delivers s 0 (.uniform w) d.len.toNat v →
      ∃ m, exec (.ufill e w) s = .next { s.drawn d.len.toNat 0 with mem := m }.succeeded ∧
        Stores m w d.dst.toNat d.len.toNat (fun i => elemOf w (v i)) ∧ SameOutside s.mem m d.dst.toNat d.len.toNat) ∧
    (Delivers s 0 (noiseRequest w d) d.len.toNat v →
      ∃ m, exec (.nfill e w) s = .next { s.drawn 0 d.len.toNat with mem := m }.succeeded ∧
        Stores m w d.dst.toNat d.len.toNat (fun i => if d.disp = 0 then 0 else elemOf w (v i)) ∧
        SameOutside s.mem m d.dst.toNat d.len.toNat)

/-- DOT, DOTA and DOTS: ACC takes the inner product of the LEN elements, ACC plus it, and ACC minus it, mod 2^b and zero-extended;
ACC is read mod 2^b; nothing else changes (R96, R99, R100, R101). -/
def Obligations.InnerProductCommands : Prop :=
  ∀ (e : Entry) (w : Width) (s : State) (a b : Nat → Int),
    let d := s.latch.desc
    let n := d.len.toNat
    Fits s.bufWords d.srcA.toNat n → Fits s.bufWords d.srcB.toNat n →
    Readable s w d.srcA.toNat n a → Readable s w d.srcB.toNat n b →
    exec (.dot e w) s = .next { s with acc := wordOf w (innerProductOf n a b) }.succeeded ∧
    exec (.dota e w) s = .next { s with acc := wordOf w (elemOf w s.acc + innerProductOf n a b) }.succeeded ∧
    exec (.dots e w) s = .next { s with acc := wordOf w (elemOf w s.acc - innerProductOf n a b) }.succeeded

/-- ACCLD and ACCADD, whole (R102, R103): SRCA at or past BUF_WORDS is code 5 with (4, SRCA), or PreconditionViolated unchecked;
a cell without the value needed is UninitRead; else ACC takes the element, or ACC plus it, mod 2^b, and nothing else changes. -/
def Obligations.AccumulatorLoadAndAdd : Prop :=
  ∀ (w : Width) (s : State),
    let d := s.latch.desc
    (s.bufWords ≤ d.srcA.toNat →
      exec (.accld .checked w) s = .next (s.failedWith 5 4 d.srcA) ∧
      exec (.accadd .checked w) s = .next (s.failedWith 5 4 d.srcA) ∧
      exec (.accld .unchecked w) s = .fault .preconditionViolated ∧
      exec (.accadd .unchecked w) s = .fault .preconditionViolated) ∧
    (d.srcA.toNat < s.bufWords → ∀ e : Entry,
      (∀ x, s.readElem w d.srcA.toNat = .done x →
        exec (.accld e w) s = .next { s with acc := wordOf w x }.succeeded ∧
        exec (.accadd e w) s = .next { s with acc := wordOf w (elemOf w s.acc + x) }.succeeded) ∧
      ((∀ x, s.readElem w d.srcA.toNat ≠ .done x) →
        exec (.accld e w) s = .fault .uninitRead ∧ exec (.accadd e w) s = .fault .uninitRead))

/-- ACCST, whole (R104): DST at or past BUF_WORDS is code 5 with (6, DST), or PreconditionViolated unchecked; else the cell at DST
takes ACC mod 2^b zero-extended, ACC is unchanged and so is every byte outside the cell. -/
def Obligations.AccumulatorStore : Prop :=
  ∀ (w : Width) (s : State),
    let d := s.latch.desc
    (s.bufWords ≤ d.dst.toNat →
      exec (.accst .checked w) s = .next (s.failedWith 5 6 d.dst) ∧
      exec (.accst .unchecked w) s = .fault .preconditionViolated) ∧
    (d.dst.toNat < s.bufWords → ∀ e : Entry,
      ∃ m, exec (.accst e w) s = .next { s with mem := m }.succeeded ∧
        m.readCell d.dst.toNat = some (wordOf w (elemOf w s.acc)) ∧ SameOutside s.mem m d.dst.toNat 1)

/-! ### Results: encryption -/

/-- ENC.LWE: n uniform draws, then one noise draw; the ciphertext of R110 in the n + 1 cells from CT_BASE; UCOUNT and NCOUNT rise by
n and 1; nothing else changes (R110; the counts are also R109, which the spec marks derived). -/
def Obligations.EncLweEncrypts : Prop :=
  ∀ (e : Entry) (w : Width) (s : State) (key : Nat → Int) (p : Int) (u : Nat → Word) (v : Word),
    let d := s.latch.desc
    let n := d.keyDim.toNat
    let c := d.ctBase.toNat
    d.ctSize.toNat = n + 1 → Fits s.bufWords c (n + 1) →
    Apart c (n + 1) d.keyBase.toNat n → Apart c (n + 1) d.ptBase.toNat 1 →
    Readable s w d.keyBase.toNat n key → s.readElem w d.ptBase.toNat = .done p →
    Delivers s 0 (.uniform w) n u → s.answerAt n (noiseRequest w d) = .ok v →
    ∃ m, exec (.encLwe e w) s = .next { s.drawn n 1 with mem := m }.succeeded ∧
      lweCiphertext s m w n c u (noiseOf w d v) key p

/-- ENC.GLWE: k*N uniform draws in mask-cell order, then N noise draws, one per coefficient; the ciphertext of R111; UCOUNT and
NCOUNT rise by k*N and N; nothing else changes (R108, R111). The ring product is the negacyclic one of R107, which the spec marks as
its own general knowledge (log 16). -/
def Obligations.EncGlweEncrypts : Prop :=
  ∀ (e : Entry) (w : Width) (s : State) (key pt : Nat → Int) (u v : Nat → Word),
    let d := s.latch.desc
    let k := d.keyDim.toNat
    let n := d.keyPoly.toNat
    let c := d.ctBase.toNat
    1 ≤ n → d.ctSize.toNat = k + 1 → d.ctPoly = d.keyPoly → d.ptCount = d.keyPoly → Fits s.bufWords c ((k + 1) * n) →
    Apart c ((k + 1) * n) d.keyBase.toNat (k * n) → Apart c ((k + 1) * n) d.ptBase.toNat n →
    Readable s w d.keyBase.toNat (k * n) key → Readable s w d.ptBase.toNat n pt →
    Delivers s 0 (.uniform w) (k * n) u → Delivers s (k * n) (noiseRequest w d) n v →
    ∃ m, exec (.encGlwe e w) s = .next { s.drawn (k * n) n with mem := m }.succeeded ∧
      glweCiphertext s m w k n c u (fun t => noiseOf w d (v t)) key pt

/-- AENC.LWE: as ENC.LWE whatever CT_SIZE is, and then CT_SIZE = n + 1 (R112). -/
def Obligations.AencLweEncryptsAndReportsSize : Prop :=
  ∀ (e : Entry) (w : Width) (s : State) (key : Nat → Int) (p : Int) (u : Nat → Word) (v : Word),
    let d := s.latch.desc
    let n := d.keyDim.toNat
    let c := d.ctBase.toNat
    Fits s.bufWords c (n + 1) → Apart c (n + 1) d.keyBase.toNat n → Apart c (n + 1) d.ptBase.toNat 1 →
    Readable s w d.keyBase.toNat n key → s.readElem w d.ptBase.toNat = .done p →
    Delivers s 0 (.uniform w) n u → s.answerAt n (noiseRequest w d) = .ok v →
    ∃ m, exec (.aencLwe e w) s =
        .next { s.drawn n 1 with mem := m, desc := { s.desc with ctSize := BitVec.ofNat 64 (n + 1) } }.succeeded ∧
      lweCiphertext s m w n c u (noiseOf w d v) key p

/-- AENC.GLWE: as ENC.GLWE whatever CT_SIZE and CT_POLY are, and then CT_SIZE = k + 1 and CT_POLY = N (R113; ring product:
log 16). -/
def Obligations.AencGlweEncryptsAndReportsSizes : Prop :=
  ∀ (e : Entry) (w : Width) (s : State) (key pt : Nat → Int) (u v : Nat → Word),
    let d := s.latch.desc
    let k := d.keyDim.toNat
    let n := d.keyPoly.toNat
    let c := d.ctBase.toNat
    1 ≤ n → d.ptCount = d.keyPoly → Fits s.bufWords c ((k + 1) * n) →
    Apart c ((k + 1) * n) d.keyBase.toNat (k * n) → Apart c ((k + 1) * n) d.ptBase.toNat n →
    Readable s w d.keyBase.toNat (k * n) key → Readable s w d.ptBase.toNat n pt →
    Delivers s 0 (.uniform w) (k * n) u → Delivers s (k * n) (noiseRequest w d) n v →
    ∃ m, exec (.aencGlwe e w) s =
        .next { s.drawn (k * n) n with
          mem := m, desc := { s.desc with ctSize := BitVec.ofNat 64 (k + 1), ctPoly := d.keyPoly } }.succeeded ∧
      glweCiphertext s m w k n c u (fun t => noiseOf w d (v t)) key pt

/-- ZENC.LWE: the ciphertext of R110 with plaintext 0, whatever PT_BASE names (R114). -/
def Obligations.ZencLweEncryptsZero : Prop :=
  ∀ (e : Entry) (w : Width) (s : State) (key : Nat → Int) (u : Nat → Word) (v : Word),
    let d := s.latch.desc
    let n := d.keyDim.toNat
    let c := d.ctBase.toNat
    d.ctSize.toNat = n + 1 → Fits s.bufWords c (n + 1) → Apart c (n + 1) d.keyBase.toNat n →
    Readable s w d.keyBase.toNat n key →
    Delivers s 0 (.uniform w) n u → s.answerAt n (noiseRequest w d) = .ok v →
    ∃ m, exec (.zencLwe e w) s = .next { s.drawn n 1 with mem := m }.succeeded ∧
      lweCiphertext s m w n c u (noiseOf w d v) key 0

/-- ZENC.GLWE: the ciphertext of R111 with the zero polynomial, whatever PT_BASE and PT_COUNT are (R115; ring product:
log 16). -/
def Obligations.ZencGlweEncryptsZero : Prop :=
  ∀ (e : Entry) (w : Width) (s : State) (key : Nat → Int) (u v : Nat → Word),
    let d := s.latch.desc
    let k := d.keyDim.toNat
    let n := d.keyPoly.toNat
    let c := d.ctBase.toNat
    1 ≤ n → d.ctSize.toNat = k + 1 → d.ctPoly = d.keyPoly → Fits s.bufWords c ((k + 1) * n) →
    Apart c ((k + 1) * n) d.keyBase.toNat (k * n) → Readable s w d.keyBase.toNat (k * n) key →
    Delivers s 0 (.uniform w) (k * n) u → Delivers s (k * n) (noiseRequest w d) n v →
    ∃ m, exec (.zencGlwe e w) s = .next { s.drawn (k * n) n with mem := m }.succeeded ∧
      glweCiphertext s m w k n c u (fun t => noiseOf w d (v t)) key (fun _ => 0)

/-- TENC.LWE and ATENC.LWE: CT_SIZE - 1 zero cells, then the plaintext; no draw; nothing else changes (R116, R118). -/
def Obligations.TrivialLweEncrypts : Prop :=
  ∀ (e : Entry) (w : Width) (s : State) (p : Int),
    let d := s.latch.desc
    let c := d.ctBase.toNat
    let g := d.ctSize.toNat
    1 ≤ g → Fits s.bufWords c g → Apart c g d.ptBase.toNat 1 → s.readElem w d.ptBase.toNat = .done p →
    ∃ m, exec (.tencLwe e w) s = .next { s with mem := m }.succeeded ∧
      exec (.atencLwe e w) s = .next { s with mem := m }.succeeded ∧
      Stores m w c (g - 1) (fun _ => 0) ∧ m.readCell (c + (g - 1)) = some (wordOf w p) ∧ SameOutside s.mem m c g

/-- TENC.GLWE and ATENC.GLWE: (g - 1)*N zero cells, then the N plaintext coefficients; no draw; nothing else changes
(R117, R119). -/
def Obligations.TrivialGlweEncrypts : Prop :=
  ∀ (e : Entry) (w : Width) (s : State) (pt : Nat → Int),
    let d := s.latch.desc
    let c := d.ctBase.toNat
    let g := d.ctSize.toNat
    let n := d.ctPoly.toNat
    1 ≤ g → 1 ≤ n → d.ptCount = d.ctPoly → Fits s.bufWords c (g * n) → Apart c (g * n) d.ptBase.toNat n →
    Readable s w d.ptBase.toNat n pt →
    ∃ m, exec (.tencGlwe e w) s = .next { s with mem := m }.succeeded ∧
      exec (.atencGlwe e w) s = .next { s with mem := m }.succeeded ∧
      Stores m w c ((g - 1) * n) (fun _ => 0) ∧ Stores m w (c + (g - 1) * n) n pt ∧ SameOutside s.mem m c (g * n)

/-- DEC.LWE: the cell at PT_BASE takes the body minus the inner product of mask and key, mod 2^b, unrounded; no draw; nothing
else changes (R120). -/
def Obligations.DecLweDecrypts : Prop :=
  ∀ (e : Entry) (w : Width) (s : State) (key mask : Nat → Int) (body : Int),
    let d := s.latch.desc
    let n := d.keyDim.toNat
    let c := d.ctBase.toNat
    d.ctSize.toNat = n + 1 → d.ptBase.toNat < s.bufWords →
    Apart d.ptBase.toNat 1 d.keyBase.toNat n → Apart d.ptBase.toNat 1 c (n + 1) →
    Readable s w d.keyBase.toNat n key → Readable s w c n mask → s.readElem w (c + n) = .done body →
    ∃ m, exec (.decLwe e w) s = .next { s with mem := m }.succeeded ∧
      m.readCell d.ptBase.toNat = some (wordOf w (body - innerProductOf n mask key)) ∧
      SameOutside s.mem m d.ptBase.toNat 1

/-- DEC.GLWE: the N cells from PT_BASE take, coefficient by coefficient, the body minus the inner product; no draw; nothing else
changes (R121). The ring product is the negacyclic one of R107, which the spec marks as its own general knowledge (log 16). -/
def Obligations.DecGlweDecrypts : Prop :=
  ∀ (e : Entry) (w : Width) (s : State) (key mask body : Nat → Int),
    let d := s.latch.desc
    let k := d.keyDim.toNat
    let n := d.keyPoly.toNat
    let c := d.ctBase.toNat
    1 ≤ n → d.ctSize.toNat = k + 1 → d.ctPoly = d.keyPoly → d.ptCount = d.keyPoly → Fits s.bufWords d.ptBase.toNat n →
    Apart d.ptBase.toNat n d.keyBase.toNat (k * n) → Apart d.ptBase.toNat n c ((k + 1) * n) →
    Readable s w d.keyBase.toNat (k * n) key → Readable s w c (k * n) mask → Readable s w (c + k * n) n body →
    ∃ m, exec (.decGlwe e w) s = .next { s with mem := m }.succeeded ∧
      Stores m w d.ptBase.toNat n (fun t => body t - glweInnerOf k n mask key t) ∧ SameOutside s.mem m d.ptBase.toNat n

/-- ENCL: element i takes draws i*(n+1) to i*(n+1) + n of the command, n uniform ones and then one of noise; ciphertext i stands at
CT_BASE + i*CT_SIZE and encrypts plaintext i; UCOUNT and NCOUNT rise by m*n and m; nothing else changes. An empty list
reads, draws and writes nothing (R124, R53); that it does not read its key is the model's reading (log 9). -/
def Obligations.EnclEncryptsTheList : Prop :=
  ∀ (e : Entry) (w : Width) (s : State) (key pt : Nat → Int) (u : Nat → Nat → Word) (v : Nat → Word),
    let d := s.latch.desc
    let n := d.keyDim.toNat
    let c := d.ctBase.toNat
    let l := d.ctCount.toNat
    d.ctSize.toNat = n + 1 → d.ptCount = d.ctCount → Fits s.bufWords d.keyBase.toNat n → Fits s.bufWords c (l * (n + 1)) →
    Apart c (l * (n + 1)) d.keyBase.toNat n → Apart c (l * (n + 1)) d.ptBase.toNat l →
    (l ≠ 0 → Readable s w d.keyBase.toNat n key) → Readable s w d.ptBase.toNat l pt →
    (∀ i < l, Delivers s (i * (n + 1)) (.uniform w) n (u i)) →
    (∀ i < l, s.answerAt (i * (n + 1) + n) (noiseRequest w d) = .ok (v i)) →
    ∃ m, exec (.encl e w) s = .next { s.drawn (l * n) l with mem := m }.succeeded ∧
      (∀ i < l, Stores m w (c + i * (n + 1)) n (fun j => elemOf w (u i j)) ∧
        m.readCell (c + i * (n + 1) + n) =
          some (wordOf w (noiseOf w d (v i) + innerProductOf n (fun j => elemOf w (u i j)) key + pt i))) ∧
      SameOutside s.mem m c (l * (n + 1))

/-! ### Failed draws -/

/-- UFILL and NFILL whose draw number j is the first to fail (R90, R94, R95). -/
def Obligations.SamplerDrawFailure : Prop :=
  ∀ (e : Entry) (w : Width) (s : State) (j : Nat) (u : Nat → Word),
    let d := s.latch.desc
    Fits s.bufWords d.dst.toNat d.len.toNat → j < d.len.toNat →
    (Delivers s 0 (.uniform w) j u → s.answerAt j (.uniform w) = .fail →
      drawFailure (.ufill e w) s j 0 1 d.dst.toNat d.len.toNat) ∧
    (Delivers s 0 (noiseRequest w d) j u → s.answerAt j (noiseRequest w d) = .fail →
      drawFailure (.nfill e w) s 0 j 2 d.dst.toNat d.len.toNat)

/-- ENC.LWE, AENC.LWE and ZENC.LWE with a failed draw: uniform draw j, or the noise draw; CT_SIZE is not written. AENC whatever
CT_SIZE is, ZENC whatever PT_BASE names (R90, R110, R112, R114). -/
def Obligations.LweEncryptionDrawFailure : Prop :=
  ∀ (e : Entry) (w : Width) (s : State) (key : Nat → Int) (p : Int) (u : Nat → Word),
    let d := s.latch.desc
    let n := d.keyDim.toNat
    let c := d.ctBase.toNat
    let fails (i : Instr) : Prop :=
      (∀ j < n, Delivers s 0 (.uniform w) j u → s.answerAt j (.uniform w) = .fail →
        drawFailure i s j 0 1 c (n + 1)) ∧
      (Delivers s 0 (.uniform w) n u → s.answerAt n (noiseRequest w d) = .fail → drawFailure i s n 0 2 c (n + 1))
    Fits s.bufWords c (n + 1) → Apart c (n + 1) d.keyBase.toNat n → Readable s w d.keyBase.toNat n key →
    (d.ctSize.toNat = n + 1 → fails (.zencLwe e w)) ∧
    (Apart c (n + 1) d.ptBase.toNat 1 → s.readElem w d.ptBase.toNat = .done p →
      fails (.aencLwe e w) ∧ (d.ctSize.toNat = n + 1 → fails (.encLwe e w)))

/-- ENC.GLWE, AENC.GLWE and ZENC.GLWE with a failed draw: uniform draw j, or noise draw j; CT_SIZE and CT_POLY are not written. AENC
whatever CT_SIZE and CT_POLY are, ZENC whatever PT_BASE and PT_COUNT are (R90, R111, R113, R115). -/
def Obligations.GlweEncryptionDrawFailure : Prop :=
  ∀ (e : Entry) (w : Width) (s : State) (key pt : Nat → Int) (u v : Nat → Word),
    let d := s.latch.desc
    let k := d.keyDim.toNat
    let n := d.keyPoly.toNat
    let c := d.ctBase.toNat
    let fails (i : Instr) : Prop :=
      (∀ j < k * n, Delivers s 0 (.uniform w) j u → s.answerAt j (.uniform w) = .fail →
        drawFailure i s j 0 1 c ((k + 1) * n)) ∧
      (∀ j < n, Delivers s 0 (.uniform w) (k * n) u → Delivers s (k * n) (noiseRequest w d) j v →
        s.answerAt (k * n + j) (noiseRequest w d) = .fail → drawFailure i s (k * n) j 2 c ((k + 1) * n))
    1 ≤ n → Fits s.bufWords c ((k + 1) * n) → Apart c ((k + 1) * n) d.keyBase.toNat (k * n) →
    Readable s w d.keyBase.toNat (k * n) key →
    (d.ctSize.toNat = k + 1 → d.ctPoly = d.keyPoly → fails (.zencGlwe e w)) ∧
    (d.ptCount = d.keyPoly → Apart c ((k + 1) * n) d.ptBase.toNat n → Readable s w d.ptBase.toNat n pt →
      fails (.aencGlwe e w) ∧ (d.ctSize.toNat = k + 1 → d.ctPoly = d.keyPoly → fails (.encGlwe e w)))

/-- ENCL with a draw that fails in element q: elements before q keep their ciphertexts, the cells of element q hold some words,
every byte outside elements 0 to q is as before, and the counters have the draws that succeeded (R90, R124). -/
def Obligations.EnclDrawFailureKeepsFinishedElements : Prop :=
  ∀ (e : Entry) (w : Width) (s : State) (key pt : Nat → Int) (u : Nat → Nat → Word) (v : Nat → Word) (q j : Nat),
    let d := s.latch.desc
    let n := d.keyDim.toNat
    let c := d.ctBase.toNat
    let l := d.ctCount.toNat
    d.ctSize.toNat = n + 1 → d.ptCount = d.ctCount → Fits s.bufWords c (l * (n + 1)) →
    Apart c (l * (n + 1)) d.keyBase.toNat n → Apart c (l * (n + 1)) d.ptBase.toNat l →
    Readable s w d.keyBase.toNat n key → Readable s w d.ptBase.toNat l pt → q < l →
    (∀ i < q, Delivers s (i * (n + 1)) (.uniform w) n (u i)) →
    (∀ i < q, s.answerAt (i * (n + 1) + n) (noiseRequest w d) = .ok (v i)) →
    Delivers s (q * (n + 1)) (.uniform w) j (u q) →
    (j < n ∧ s.answerAt (q * (n + 1) + j) (.uniform w) = .fail ∨
      j = n ∧ s.answerAt (q * (n + 1) + n) (noiseRequest w d) = .fail) →
    ∃ m, exec (.encl e w) s =
        .next ({ s.drawFailed (q * n + j) q (n + 1) with mem := m }.failedWith 3 (if j < n then 1 else 2) 0) ∧
      (∀ i < q, Stores m w (c + i * (n + 1)) n (fun a => elemOf w (u i a)) ∧
        m.readCell (c + i * (n + 1) + n) =
          some (wordOf w (noiseOf w d (v i) + innerProductOf n (fun a => elemOf w (u i a)) key + pt i))) ∧
      (∀ a < n + 1, ∃ x, m.readCell (c + q * (n + 1) + a) = some x) ∧
      SameOutside s.mem m c ((q + 1) * (n + 1))

/-! ### Validation, command by command -/

/-- The address predicates of UFILL, NFILL, DOT, DOTA and DOTS (R85, R94, R95, R99 to R101). -/
def Obligations.PrimitivePredicates : Prop :=
  ∀ (w : Width) (s : State),
    let d := s.latch.desc
    let n := d.len.toNat
    (∀ cmd ∈ [fun e => Instr.ufill e w, fun e => Instr.nfill e w],
      RejectsAtFirst cmd s [expectAddress s.bufWords 6 d.dst n] ∧
      AdmitsOtherwise cmd s [expectAddress s.bufWords 6 d.dst n]) ∧
    ∀ cmd ∈ [fun e => Instr.dot e w, fun e => Instr.dota e w, fun e => Instr.dots e w],
      RejectsAtFirst cmd s [expectAddress s.bufWords 4 d.srcA n, expectAddress s.bufWords 5 d.srcB n] ∧
      AdmitsOtherwise cmd s [expectAddress s.bufWords 4 d.srcA n, expectAddress s.bufWords 5 d.srcB n]

/-- The predicates of ENC.LWE, AENC.LWE and ZENC.LWE, in order: S1 (not AENC), addresses, overlaps, with no plaintext region for
ZENC (R105, R110, R112, R114, R85, R86). -/
def Obligations.LweEncryptionPredicates : Prop :=
  ∀ (w : Width) (s : State),
    let d := s.latch.desc
    let n := d.keyDim.toNat
    let s1 := expectShape (d.ctSize.toNat = n + 1) (n + 1) d.ctSize
    let key := expectAddress s.bufWords 1 d.keyBase n
    let ct := expectAddress s.bufWords 2 d.ctBase (n + 1)
    let pt := expectAddress s.bufWords 3 d.ptBase 1
    let ctKey := expectOverlap 2 d.ctBase (n + 1) 1 d.keyBase n
    let ctPt := expectOverlap 2 d.ctBase (n + 1) 3 d.ptBase 1
    (RejectsAtFirst (fun e => .encLwe e w) s [s1, key, ct, pt, ctKey, ctPt] ∧
      AdmitsOtherwise (fun e => .encLwe e w) s [s1, key, ct, pt, ctKey, ctPt]) ∧
    (RejectsAtFirst (fun e => .aencLwe e w) s [key, ct, pt, ctKey, ctPt] ∧
      AdmitsOtherwise (fun e => .aencLwe e w) s [key, ct, pt, ctKey, ctPt]) ∧
    (RejectsAtFirst (fun e => .zencLwe e w) s [s1, key, ct, ctKey] ∧
      AdmitsOtherwise (fun e => .zencLwe e w) s [s1, key, ct, ctKey])

/-- The predicates of ENC.GLWE, AENC.GLWE and ZENC.GLWE, in order: G1 to G4 (AENC: G1, G4; ZENC: G1 to G3), addresses,
overlaps (R106, R111, R113, R115, R85, R86). -/
def Obligations.GlweEncryptionPredicates : Prop :=
  ∀ (w : Width) (s : State),
    let d := s.latch.desc
    let k := d.keyDim.toNat
    let n := d.keyPoly.toNat
    let g1 := expectShape (1 ≤ n) 1 d.keyPoly
    let g2 := expectShape (d.ctSize.toNat = k + 1) (k + 1) d.ctSize
    let g3 := expectShape (d.ctPoly = d.keyPoly) n d.ctPoly
    let g4 := expectShape (d.ptCount = d.keyPoly) n d.ptCount
    let key := expectAddress s.bufWords 1 d.keyBase (k * n)
    let ct := expectAddress s.bufWords 2 d.ctBase ((k + 1) * n)
    let pt := expectAddress s.bufWords 3 d.ptBase n
    let ctKey := expectOverlap 2 d.ctBase ((k + 1) * n) 1 d.keyBase (k * n)
    let ctPt := expectOverlap 2 d.ctBase ((k + 1) * n) 3 d.ptBase n
    (RejectsAtFirst (fun e => .encGlwe e w) s [g1, g2, g3, g4, key, ct, pt, ctKey, ctPt] ∧
      AdmitsOtherwise (fun e => .encGlwe e w) s [g1, g2, g3, g4, key, ct, pt, ctKey, ctPt]) ∧
    (RejectsAtFirst (fun e => .aencGlwe e w) s [g1, g4, key, ct, pt, ctKey, ctPt] ∧
      AdmitsOtherwise (fun e => .aencGlwe e w) s [g1, g4, key, ct, pt, ctKey, ctPt]) ∧
    (RejectsAtFirst (fun e => .zencGlwe e w) s [g1, g2, g3, key, ct, ctKey] ∧
      AdmitsOtherwise (fun e => .zencGlwe e w) s [g1, g2, g3, key, ct, ctKey])

/-- The predicates of TENC and ATENC, LWE and GLWE: T1, and T2 and T3 for GLWE, then addresses, then the overlap
(R116, R117, R118, R119). -/
def Obligations.TrivialPredicates : Prop :=
  ∀ (w : Width) (s : State),
    let d := s.latch.desc
    let g := d.ctSize.toNat
    let n := d.ctPoly.toNat
    let t1 := expectShape (1 ≤ g) 1 d.ctSize
    let t2 := expectShape (1 ≤ n) 1 d.ctPoly
    let t3 := expectShape (d.ptCount = d.ctPoly) n d.ptCount
    let lwe := [t1, expectAddress s.bufWords 2 d.ctBase g, expectAddress s.bufWords 3 d.ptBase 1,
      expectOverlap 2 d.ctBase g 3 d.ptBase 1]
    let glwe := [t1, t2, t3, expectAddress s.bufWords 2 d.ctBase (g * n), expectAddress s.bufWords 3 d.ptBase n,
      expectOverlap 2 d.ctBase (g * n) 3 d.ptBase n]
    (∀ cmd ∈ [fun e => Instr.tencLwe e w, fun e => Instr.atencLwe e w],
      RejectsAtFirst cmd s lwe ∧ AdmitsOtherwise cmd s lwe) ∧
    ∀ cmd ∈ [fun e => Instr.tencGlwe e w, fun e => Instr.atencGlwe e w],
      RejectsAtFirst cmd s glwe ∧ AdmitsOtherwise cmd s glwe

/-- The predicates of DEC.LWE and DEC.GLWE: shapes, addresses, then PT against KEY and PT against CT (R105, R106, R120, R121). -/
def Obligations.DecryptionPredicates : Prop :=
  ∀ (w : Width) (s : State),
    let d := s.latch.desc
    let k := d.keyDim.toNat
    let n := d.keyPoly.toNat
    let s1 := expectShape (d.ctSize.toNat = k + 1) (k + 1) d.ctSize
    let lwe := [s1, expectAddress s.bufWords 1 d.keyBase k, expectAddress s.bufWords 2 d.ctBase (k + 1),
      expectAddress s.bufWords 3 d.ptBase 1, expectOverlap 3 d.ptBase 1 1 d.keyBase k,
      expectOverlap 3 d.ptBase 1 2 d.ctBase (k + 1)]
    let glwe := [expectShape (1 ≤ n) 1 d.keyPoly, s1, expectShape (d.ctPoly = d.keyPoly) n d.ctPoly,
      expectShape (d.ptCount = d.keyPoly) n d.ptCount, expectAddress s.bufWords 1 d.keyBase (k * n),
      expectAddress s.bufWords 2 d.ctBase ((k + 1) * n), expectAddress s.bufWords 3 d.ptBase n,
      expectOverlap 3 d.ptBase n 1 d.keyBase (k * n), expectOverlap 3 d.ptBase n 2 d.ctBase ((k + 1) * n)]
    (RejectsAtFirst (fun e => .decLwe e w) s lwe ∧ AdmitsOtherwise (fun e => .decLwe e w) s lwe) ∧
    (RejectsAtFirst (fun e => .decGlwe e w) s glwe ∧ AdmitsOtherwise (fun e => .decGlwe e w) s glwe)

/-- The predicates of ENCL: S1, the count C1 with both counts reported, addresses, overlaps (R124). -/
def Obligations.ListPredicates : Prop :=
  ∀ (w : Width) (s : State),
    let d := s.latch.desc
    let n := d.keyDim.toNat
    let ctLen := d.ctCount.toNat * d.ctSize.toNat
    let c1 : Option Reported := if d.ctCount = d.ptCount then none else some (2, d.ctCount, d.ptCount)
    let predicates := [expectShape (d.ctSize.toNat = n + 1) (n + 1) d.ctSize, c1, expectAddress s.bufWords 1 d.keyBase n,
      expectAddress s.bufWords 2 d.ctBase ctLen, expectAddress s.bufWords 3 d.ptBase d.ptCount.toNat,
      expectOverlap 2 d.ctBase ctLen 1 d.keyBase n, expectOverlap 2 d.ctBase ctLen 3 d.ptBase d.ptCount.toNat]
    RejectsAtFirst (fun e => .encl e w) s predicates ∧ AdmitsOtherwise (fun e => .encl e w) s predicates

/-! ### Laws of the kernel -/

/-- Round trip (R122): ENC then DEC, by any entries, both completing with code 0, on the same key, ciphertext and descriptors
but PT_BASE, whose cells no one wrote in between, leaves p + e mod 2^b at PT_BASE, where p is the plaintext and e the noise
drawn; p itself at DISP = 0. LWE, and GLWE coefficient by coefficient. The spec marks R122 as derived. -/
def Obligations.RoundTrip : Prop :=
  (∀ (e1 e2 : Entry) (w : Width) (s1 t1 s2 t2 : State) (p : Int) (v : Word),
    let d := s1.latch.desc
    exec (.encLwe e1 w) s1 = .next t1 → t1.errcode = 0 →
    s1.readElem w d.ptBase.toNat = .done p → s1.answerAt d.keyDim.toNat (noiseRequest w d) = .ok v →
    s2.bufWords = s1.bufWords → s2.latch.desc = { d with ptBase := s2.latch.desc.ptBase } →
    keepsCells s1 s2 d.keyBase.toNat d.keyDim.toNat → keepsCells t1 s2 d.ctBase.toNat (d.keyDim.toNat + 1) →
    exec (.decLwe e2 w) s2 = .next t2 → t2.errcode = 0 →
    t2.mem.readCell s2.latch.desc.ptBase.toNat = some (wordOf w (p + noiseOf w d v)) ∧
      (d.disp = 0 → t2.mem.readCell s2.latch.desc.ptBase.toNat = some (wordOf w p))) ∧
  ∀ (e1 e2 : Entry) (w : Width) (s1 t1 s2 t2 : State) (pt : Nat → Int) (v : Nat → Word),
    let d := s1.latch.desc
    let k := d.keyDim.toNat
    let n := d.keyPoly.toNat
    exec (.encGlwe e1 w) s1 = .next t1 → t1.errcode = 0 →
    Readable s1 w d.ptBase.toNat n pt → Delivers s1 (k * n) (noiseRequest w d) n v →
    s2.bufWords = s1.bufWords → s2.latch.desc = { d with ptBase := s2.latch.desc.ptBase } →
    keepsCells s1 s2 d.keyBase.toNat (k * n) → keepsCells t1 s2 d.ctBase.toNat ((k + 1) * n) →
    exec (.decGlwe e2 w) s2 = .next t2 → t2.errcode = 0 →
    Stores t2.mem w s2.latch.desc.ptBase.toNat n (fun t => pt t + noiseOf w d (v t)) ∧
      (d.disp = 0 → Stores t2.mem w s2.latch.desc.ptBase.toNat n pt)

/-- Trivial round trip (R123): TENC or ATENC completing with code 0, then DEC with any key of matching shape completing with code 0
on that ciphertext, leaves exactly the plaintext. LWE and GLWE. The spec marks R123 as derived. -/
def Obligations.TrivialRoundTrip : Prop :=
  (∀ (i : Instr) (e1 e2 : Entry) (w : Width) (s1 t1 s2 t2 : State) (p : Int),
    i = .tencLwe e1 w ∨ i = .atencLwe e1 w → exec i s1 = .next t1 → t1.errcode = 0 →
    s1.readElem w s1.latch.desc.ptBase.toNat = .done p →
    s2.bufWords = s1.bufWords → s2.latch.desc.ctBase = s1.latch.desc.ctBase → s2.latch.desc.ctSize = s1.latch.desc.ctSize →
    keepsCells t1 s2 s1.latch.desc.ctBase.toNat s1.latch.desc.ctSize.toNat →
    exec (.decLwe e2 w) s2 = .next t2 → t2.errcode = 0 →
    t2.mem.readCell s2.latch.desc.ptBase.toNat = some (wordOf w p)) ∧
  ∀ (i : Instr) (e1 e2 : Entry) (w : Width) (s1 t1 s2 t2 : State) (pt : Nat → Int),
    i = .tencGlwe e1 w ∨ i = .atencGlwe e1 w → exec i s1 = .next t1 → t1.errcode = 0 →
    Readable s1 w s1.latch.desc.ptBase.toNat s1.latch.desc.ctPoly.toNat pt →
    s2.bufWords = s1.bufWords → s2.latch.desc.ctBase = s1.latch.desc.ctBase → s2.latch.desc.ctSize = s1.latch.desc.ctSize →
    s2.latch.desc.ctPoly = s1.latch.desc.ctPoly →
    keepsCells t1 s2 s1.latch.desc.ctBase.toNat (s1.latch.desc.ctSize.toNat * s1.latch.desc.ctPoly.toNat) →
    exec (.decGlwe e2 w) s2 = .next t2 → t2.errcode = 0 →
    Stores t2.mem w s2.latch.desc.ptBase.toNat s1.latch.desc.ctPoly.toNat pt

/-- Batch consistency (R125): ENCL completing with code 0 at DISP = 0, then DEC.LWE with the same key on ciphertext i completing
with code 0, leaves exactly plaintext i at PT_BASE. The spec marks R125 as derived. -/
def Obligations.BatchConsistency : Prop :=
  ∀ (e1 e2 : Entry) (w : Width) (s1 t1 s2 t2 : State) (i : Nat) (p : Int),
    let d := s1.latch.desc
    exec (.encl e1 w) s1 = .next t1 → t1.errcode = 0 → d.disp = 0 → i < d.ctCount.toNat →
    s1.readElem w (d.ptBase.toNat + i) = .done p →
    s2.bufWords = s1.bufWords → s2.latch.desc.keyBase = d.keyBase → s2.latch.desc.keyDim = d.keyDim →
    s2.latch.desc.ctBase.toNat = d.ctBase.toNat + i * d.ctSize.toNat →
    keepsCells s1 s2 d.keyBase.toNat d.keyDim.toNat →
    keepsCells t1 s2 d.ctBase.toNat (d.ctCount.toNat * d.ctSize.toNat) →
    exec (.decLwe e2 w) s2 = .next t2 → t2.errcode = 0 →
    t2.mem.readCell s2.latch.desc.ptBase.toNat = some (wordOf w p)

/-- CLRACC (R76): from an Idle block the host's two writes and the block's turn leave LEN = 0 and ACC = 0, BUF unchanged, at either
width and whatever the state was. The list of inputs is the model's (log 5). -/
def Obligations.ClearAccumulatorScript : Prop :=
  ∀ (s : State) (w : Option Width), s.phase = .idle → s.inputs = scriptClrAcc w ++ [.block] →
    ∃ t, Sys2Proof.core.run 3 s = .next t ∧ t.acc = 0 ∧ t.desc.len = 0 ∧ t.phase = .idle ∧ t.errcode = 0 ∧ t.mem = s.mem
end

