-- ==== Sys2Proof/Laws/Arithmetic.lean ====
section
/-! SUPPORT. Sys2Proof/Laws/Arithmetic.lean: the model's sums and products are the spec's, and reduction mod 2^b may be taken
early or late (00_scope.md R8, 42_accumulator.md R97, 43_kernel.md R107). -/

namespace Sys2Proof.Machine

open Sys2Proof

theorem sumTo_eq (n : Nat) (f : Nat → Int) : sumTo n f = ∑ i ∈ Finset.range n, f i := by
  induction n with
  | zero => rfl
  | succ n ih => rw [sumTo, ih, Finset.sum_range_succ]

theorem sumTo_congr {n : Nat} {f g : Nat → Int} (h : ∀ i < n, f i = g i) : sumTo n f = sumTo n g := by
  rw [sumTo_eq, sumTo_eq]
  exact Finset.sum_congr rfl fun i hi => h i (Finset.mem_range.1 hi)

theorem elemAt_map_range (n : Nat) (x : Nat → Int) {i : Nat} (hi : i < n) : elemAt ((List.range n).map x) i = x i := by
  simp [elemAt, hi]

theorem elemAt_replicate_zero (n i : Nat) : elemAt (List.replicate n 0) i = 0 := by
  simp only [elemAt, List.getD_eq_getElem?_getD, List.getElem?_replicate]
  split_ifs <;> rfl

theorem dotSum_eq (n : Nat) (a s : Nat → Int) :
    dotSum n ((List.range n).map a) ((List.range n).map s) = innerProductOf n a s := by
  rw [dotSum, innerProductOf, ← sumTo_eq]
  exact sumTo_congr fun i hi => by rw [elemAt_map_range n a hi, elemAt_map_range n s hi]

theorem ringCoeff_eq (n : Nat) (a s : Nat → Int) (t : Nat) (ht : t < n) : ringCoeff n a s t = polymulOf n a s t := by
  simp only [ringCoeff, polymulOf, sumTo_eq, ← Finset.sum_sub_distrib]
  refine Finset.sum_congr rfl fun i _ => Finset.sum_congr rfl fun j _ => ?_
  by_cases h : i + j = t
  · have : ¬ i + j = t + n := by omega
    simp [h, show ¬ n = 0 by omega]
  · simp only [h, if_false]
    split_ifs <;> simp

theorem ringCoeff_congr {n : Nat} {a a' s s' : Nat → Int} (ha : ∀ i < n, a i = a' i) (hs : ∀ i < n, s i = s' i)
    (t : Nat) : ringCoeff n a s t = ringCoeff n a' s' t :=
  sumTo_congr fun i hi => sumTo_congr fun j hj => by rw [ha i hi, hs j hj]

theorem position_lt {k n j i : Nat} (hj : j < k) (hi : i < n) : j * n + i < k * n := by
  calc j * n + i < j * n + n := by omega
    _ = (j + 1) * n := by ring
    _ ≤ k * n := Nat.mul_le_mul_right n hj

theorem innerCoeff_eq (k n : Nat) (a s : Nat → Int) (t : Nat) (ht : t < n) :
    innerCoeff k n ((List.range (k * n)).map a) ((List.range (k * n)).map s) t = glweInnerOf k n a s t := by
  rw [innerCoeff, glweInnerOf, ← sumTo_eq]
  refine sumTo_congr fun j hj => ?_
  rw [← ringCoeff_eq n _ _ t ht]
  exact ringCoeff_congr (fun i hi => elemAt_map_range _ a (position_lt hj hi))
    (fun i hi => elemAt_map_range _ s (position_lt hj hi)) t

/-! ### The torus -/

theorem torus_torus (w : Width) (v : Int) : torus w (torus w v) = torus w v := Int.emod_emod_of_dvd _ dvd_rfl

theorem torus_add_left (w : Width) (x y : Int) : torus w (torus w x + y) = torus w (x + y) := Int.emod_add_emod _ _ _

theorem torus_add_right (w : Width) (x y : Int) : torus w (x + torus w y) = torus w (x + y) := Int.add_emod_emod _ _ _

theorem torus_sub_left (w : Width) (x y : Int) : torus w (torus w x - y) = torus w (x - y) := Int.emod_sub_emod _ _ _

theorem torus_sub_right (w : Width) (x y : Int) : torus w (x - torus w y) = torus w (x - y) := Int.sub_emod_emod _ _ _

theorem torus_nonneg (w : Width) (v : Int) : 0 ≤ torus w v :=
  Int.emod_nonneg _ (by cases w <;> decide)

theorem torus_lt (w : Width) (v : Int) : torus w v < (2 ^ widthBits w : Nat) :=
  Int.emod_lt_of_pos _ (by cases w <;> decide)

@[simp] theorem torus_zero (w : Width) : torus w 0 = 0 := Int.zero_emod _

@[simp] theorem wordOf_torus (w : Width) (v : Int) : wordOf w (torus w v) = wordOf w v := by
  rw [wordOf, torus_torus, ← wordOf]

theorem wordOf_congr {w : Width} {x y : Int} (h : torus w x = torus w y) : wordOf w x = wordOf w y := by
  rw [wordOf, h, ← wordOf]

/-- The element a word holds is the element it was made of. -/
theorem wordOf_toNat (w : Width) (v : Int) : ((wordOf w v).toNat : Int) = torus w v := by
  have h0 := torus_nonneg w v
  have h1 := torus_lt w v
  rw [wordOf, BitVec.toNat_ofInt]
  have : (2 ^ widthBits w : Nat) ≤ (2 ^ 64 : Nat) := by cases w <;> decide
  rw [Int.toNat_of_nonneg (Int.emod_nonneg _ (by decide)), Int.emod_eq_of_lt h0 (by omega)]

theorem elemOf_wordOf (w : Width) (v : Int) : elemOf w (wordOf w v) = torus w v := by
  rw [elemOf, wordOf_toNat, torus_torus]

theorem torus_elemOf (w : Width) (x : Word) : torus w (elemOf w x) = elemOf w x := torus_torus w _

/-- At width 32 the element is the low half of the word (20_memory.md R46). -/
theorem low_half_wordOf (v : Int) : ((((wordOf .w32 v).extractLsb' 0 32).toNat : Nat) : Int) = torus .w32 v := by
  have h := wordOf_toNat .w32 v
  have h1 := torus_lt .w32 v
  rw [BitVec.extractLsb'_toNat, Nat.shiftRight_zero, Nat.mod_eq_of_lt]
  · exact h
  · have : (2 ^ widthBits .w32 : Nat) = 2 ^ 32 := rfl
    omega

/-- A 32-bit write leaves the high half zero (R46). -/
theorem high_half_wordOf (v : Int) : (wordOf .w32 v).extractLsb' 32 32 = 0 := by
  apply BitVec.eq_of_toNat_eq
  have h := wordOf_toNat .w32 v
  have h1 := torus_lt .w32 v
  have : (2 ^ widthBits .w32 : Nat) = 2 ^ 32 := rfl
  rw [BitVec.extractLsb'_toNat, Nat.shiftRight_eq_div_pow]
  have : (wordOf .w32 v).toNat / 2 ^ 32 = 0 := Nat.div_eq_of_lt (by omega)
  rw [this]
  rfl

end Sys2Proof.Machine
end

