-- ==== Sys2Proof/Laws/State.lean ====
section
/-! SUPPORT. Sys2Proof/Laws/State.lean: what each named update of State leaves in each field. -/

namespace Sys2Proof.Machine

open Sys2Proof

/-! ### complete -/

@[simp] theorem State.complete_bufWords (s : State) : s.complete.bufWords = s.bufWords := rfl
@[simp] theorem State.complete_ie (s : State) : s.complete.ie = s.ie := rfl
@[simp] theorem State.complete_phase (s : State) : s.complete.phase = .idle := rfl
@[simp] theorem State.complete_done (s : State) : s.complete.done = true := rfl
@[simp] theorem State.complete_err (s : State) : s.complete.err = false := rfl
@[simp] theorem State.complete_wbusy (s : State) : s.complete.wbusy = s.wbusy := rfl
@[simp] theorem State.complete_errcode (s : State) : s.complete.errcode = 0 := rfl
@[simp] theorem State.complete_lastop (s : State) : s.complete.lastop = s.lastop := rfl
@[simp] theorem State.complete_cmd (s : State) : s.complete.cmd = s.cmd := rfl
@[simp] theorem State.complete_errinfo0 (s : State) : s.complete.errinfo0 = s.errinfo0 := rfl
@[simp] theorem State.complete_errinfo1 (s : State) : s.complete.errinfo1 = s.errinfo1 := rfl
@[simp] theorem State.complete_acc (s : State) : s.complete.acc = s.acc := rfl
@[simp] theorem State.complete_desc (s : State) : s.complete.desc = s.desc := rfl
@[simp] theorem State.complete_ucount (s : State) : s.complete.ucount = s.ucount := rfl
@[simp] theorem State.complete_ncount (s : State) : s.complete.ncount = s.ncount := rfl
@[simp] theorem State.complete_latch (s : State) : s.complete.latch = s.latch := rfl
@[simp] theorem State.complete_mem (s : State) : s.complete.mem = s.mem := rfl
@[simp] theorem State.complete_inputs (s : State) : s.complete.inputs = s.inputs := rfl
@[simp] theorem State.complete_entropy (s : State) : s.complete.entropy = s.entropy := rfl
@[simp] theorem State.complete_drawIndex (s : State) : s.complete.drawIndex = s.drawIndex := rfl
@[simp] theorem State.complete_freeIndex (s : State) : s.complete.freeIndex = s.freeIndex := rfl
@[simp] theorem State.complete_readData (s : State) : s.complete.readData = s.readData := rfl

/-! ### raiseError -/

@[simp] theorem State.raiseError_bufWords (s : State) (x : CommandError) : (s.raiseError x).bufWords = s.bufWords := rfl
@[simp] theorem State.raiseError_ie (s : State) (x : CommandError) : (s.raiseError x).ie = s.ie := rfl
@[simp] theorem State.raiseError_phase (s : State) (x : CommandError) : (s.raiseError x).phase = .idle := rfl
@[simp] theorem State.raiseError_done (s : State) (x : CommandError) : (s.raiseError x).done = true := rfl
@[simp] theorem State.raiseError_err (s : State) (x : CommandError) : (s.raiseError x).err = true := rfl
@[simp] theorem State.raiseError_wbusy (s : State) (x : CommandError) : (s.raiseError x).wbusy = s.wbusy := rfl
@[simp] theorem State.raiseError_errcode (s : State) (x : CommandError) : (s.raiseError x).errcode = errorNumber x.code := rfl
@[simp] theorem State.raiseError_lastop (s : State) (x : CommandError) : (s.raiseError x).lastop = s.lastop := rfl
@[simp] theorem State.raiseError_cmd (s : State) (x : CommandError) : (s.raiseError x).cmd = s.cmd := rfl
@[simp] theorem State.raiseError_errinfo0 (s : State) (x : CommandError) : (s.raiseError x).errinfo0 = x.info0 := rfl
@[simp] theorem State.raiseError_errinfo1 (s : State) (x : CommandError) : (s.raiseError x).errinfo1 = x.info1 := rfl
@[simp] theorem State.raiseError_acc (s : State) (x : CommandError) : (s.raiseError x).acc = s.acc := rfl
@[simp] theorem State.raiseError_desc (s : State) (x : CommandError) : (s.raiseError x).desc = s.desc := rfl
@[simp] theorem State.raiseError_ucount (s : State) (x : CommandError) : (s.raiseError x).ucount = s.ucount := rfl
@[simp] theorem State.raiseError_ncount (s : State) (x : CommandError) : (s.raiseError x).ncount = s.ncount := rfl
@[simp] theorem State.raiseError_latch (s : State) (x : CommandError) : (s.raiseError x).latch = s.latch := rfl
@[simp] theorem State.raiseError_mem (s : State) (x : CommandError) : (s.raiseError x).mem = s.mem := rfl
@[simp] theorem State.raiseError_inputs (s : State) (x : CommandError) : (s.raiseError x).inputs = s.inputs := rfl
@[simp] theorem State.raiseError_entropy (s : State) (x : CommandError) : (s.raiseError x).entropy = s.entropy := rfl
@[simp] theorem State.raiseError_drawIndex (s : State) (x : CommandError) : (s.raiseError x).drawIndex = s.drawIndex := rfl
@[simp] theorem State.raiseError_freeIndex (s : State) (x : CommandError) : (s.raiseError x).freeIndex = s.freeIndex := rfl
@[simp] theorem State.raiseError_readData (s : State) (x : CommandError) : (s.raiseError x).readData = s.readData := rfl

/-! ### start -/

@[simp] theorem State.start_bufWords (s : State) (c : Word) : (s.start c).bufWords = s.bufWords := rfl
@[simp] theorem State.start_ie (s : State) (c : Word) : (s.start c).ie = s.ie := rfl
@[simp] theorem State.start_phase (s : State) (c : Word) : (s.start c).phase = .busy := rfl
@[simp] theorem State.start_done (s : State) (c : Word) : (s.start c).done = false := rfl
@[simp] theorem State.start_err (s : State) (c : Word) : (s.start c).err = false := rfl
@[simp] theorem State.start_wbusy (s : State) (c : Word) : (s.start c).wbusy = s.wbusy := rfl
@[simp] theorem State.start_errcode (s : State) (c : Word) : (s.start c).errcode = 0 := rfl
@[simp] theorem State.start_lastop (s : State) (c : Word) : (s.start c).lastop = c.extractLsb' 0 8 := rfl
@[simp] theorem State.start_cmd (s : State) (c : Word) : (s.start c).cmd = c := rfl
@[simp] theorem State.start_errinfo0 (s : State) (c : Word) : (s.start c).errinfo0 = 0 := rfl
@[simp] theorem State.start_errinfo1 (s : State) (c : Word) : (s.start c).errinfo1 = 0 := rfl
@[simp] theorem State.start_acc (s : State) (c : Word) : (s.start c).acc = s.acc := rfl
@[simp] theorem State.start_desc (s : State) (c : Word) : (s.start c).desc = s.desc := rfl
@[simp] theorem State.start_ucount (s : State) (c : Word) : (s.start c).ucount = s.ucount := rfl
@[simp] theorem State.start_ncount (s : State) (c : Word) : (s.start c).ncount = s.ncount := rfl
@[simp] theorem State.start_latch (s : State) (c : Word) : (s.start c).latch = ⟨c, s.desc⟩ := rfl
@[simp] theorem State.start_mem (s : State) (c : Word) : (s.start c).mem = s.mem := rfl
@[simp] theorem State.start_inputs (s : State) (c : Word) : (s.start c).inputs = s.inputs := rfl
@[simp] theorem State.start_entropy (s : State) (c : Word) : (s.start c).entropy = s.entropy := rfl
@[simp] theorem State.start_drawIndex (s : State) (c : Word) : (s.start c).drawIndex = s.drawIndex := rfl
@[simp] theorem State.start_freeIndex (s : State) (c : Word) : (s.start c).freeIndex = s.freeIndex := rfl
@[simp] theorem State.start_readData (s : State) (c : Word) : (s.start c).readData = s.readData := rfl

/-! ### dropWrite -/

@[simp] theorem State.dropWrite_bufWords (s : State) : s.dropWrite.bufWords = s.bufWords := rfl
@[simp] theorem State.dropWrite_ie (s : State) : s.dropWrite.ie = s.ie := rfl
@[simp] theorem State.dropWrite_phase (s : State) : s.dropWrite.phase = s.phase := rfl
@[simp] theorem State.dropWrite_done (s : State) : s.dropWrite.done = s.done := rfl
@[simp] theorem State.dropWrite_err (s : State) : s.dropWrite.err = s.err := rfl
@[simp] theorem State.dropWrite_wbusy (s : State) : s.dropWrite.wbusy = true := rfl
@[simp] theorem State.dropWrite_errcode (s : State) : s.dropWrite.errcode = s.errcode := rfl
@[simp] theorem State.dropWrite_lastop (s : State) : s.dropWrite.lastop = s.lastop := rfl
@[simp] theorem State.dropWrite_cmd (s : State) : s.dropWrite.cmd = s.cmd := rfl
@[simp] theorem State.dropWrite_errinfo0 (s : State) : s.dropWrite.errinfo0 = s.errinfo0 := rfl
@[simp] theorem State.dropWrite_errinfo1 (s : State) : s.dropWrite.errinfo1 = s.errinfo1 := rfl
@[simp] theorem State.dropWrite_acc (s : State) : s.dropWrite.acc = s.acc := rfl
@[simp] theorem State.dropWrite_desc (s : State) : s.dropWrite.desc = s.desc := rfl
@[simp] theorem State.dropWrite_ucount (s : State) : s.dropWrite.ucount = s.ucount := rfl
@[simp] theorem State.dropWrite_ncount (s : State) : s.dropWrite.ncount = s.ncount := rfl
@[simp] theorem State.dropWrite_latch (s : State) : s.dropWrite.latch = s.latch := rfl
@[simp] theorem State.dropWrite_mem (s : State) : s.dropWrite.mem = s.mem := rfl
@[simp] theorem State.dropWrite_inputs (s : State) : s.dropWrite.inputs = s.inputs := rfl
@[simp] theorem State.dropWrite_entropy (s : State) : s.dropWrite.entropy = s.entropy := rfl
@[simp] theorem State.dropWrite_drawIndex (s : State) : s.dropWrite.drawIndex = s.drawIndex := rfl
@[simp] theorem State.dropWrite_freeIndex (s : State) : s.dropWrite.freeIndex = s.freeIndex := rfl
@[simp] theorem State.dropWrite_readData (s : State) : s.dropWrite.readData = s.readData := rfl

/-! ### clearStatus -/

@[simp] theorem State.clearStatus_bufWords (s : State) (v : Word) : (s.clearStatus v).bufWords = s.bufWords := rfl
@[simp] theorem State.clearStatus_ie (s : State) (v : Word) : (s.clearStatus v).ie = s.ie := rfl
@[simp] theorem State.clearStatus_phase (s : State) (v : Word) : (s.clearStatus v).phase = s.phase := rfl
@[simp] theorem State.clearStatus_done (s : State) (v : Word) : (s.clearStatus v).done = (s.done && !(v.getLsbD 1)) := rfl
@[simp] theorem State.clearStatus_err (s : State) (v : Word) : (s.clearStatus v).err = (s.err && !(v.getLsbD 2)) := rfl
@[simp] theorem State.clearStatus_wbusy (s : State) (v : Word) : (s.clearStatus v).wbusy = (s.wbusy && !(v.getLsbD 3)) := rfl
@[simp] theorem State.clearStatus_errcode (s : State) (v : Word) : (s.clearStatus v).errcode = s.errcode := rfl
@[simp] theorem State.clearStatus_lastop (s : State) (v : Word) : (s.clearStatus v).lastop = s.lastop := rfl
@[simp] theorem State.clearStatus_cmd (s : State) (v : Word) : (s.clearStatus v).cmd = s.cmd := rfl
@[simp] theorem State.clearStatus_errinfo0 (s : State) (v : Word) : (s.clearStatus v).errinfo0 = s.errinfo0 := rfl
@[simp] theorem State.clearStatus_errinfo1 (s : State) (v : Word) : (s.clearStatus v).errinfo1 = s.errinfo1 := rfl
@[simp] theorem State.clearStatus_acc (s : State) (v : Word) : (s.clearStatus v).acc = s.acc := rfl
@[simp] theorem State.clearStatus_desc (s : State) (v : Word) : (s.clearStatus v).desc = s.desc := rfl
@[simp] theorem State.clearStatus_ucount (s : State) (v : Word) : (s.clearStatus v).ucount = s.ucount := rfl
@[simp] theorem State.clearStatus_ncount (s : State) (v : Word) : (s.clearStatus v).ncount = s.ncount := rfl
@[simp] theorem State.clearStatus_latch (s : State) (v : Word) : (s.clearStatus v).latch = s.latch := rfl
@[simp] theorem State.clearStatus_mem (s : State) (v : Word) : (s.clearStatus v).mem = s.mem := rfl
@[simp] theorem State.clearStatus_inputs (s : State) (v : Word) : (s.clearStatus v).inputs = s.inputs := rfl
@[simp] theorem State.clearStatus_entropy (s : State) (v : Word) : (s.clearStatus v).entropy = s.entropy := rfl
@[simp] theorem State.clearStatus_drawIndex (s : State) (v : Word) : (s.clearStatus v).drawIndex = s.drawIndex := rfl
@[simp] theorem State.clearStatus_freeIndex (s : State) (v : Word) : (s.clearStatus v).freeIndex = s.freeIndex := rfl
@[simp] theorem State.clearStatus_readData (s : State) (v : Word) : (s.clearStatus v).readData = s.readData := rfl

/-! ### writeAcc -/

@[simp] theorem State.writeAcc_bufWords (s : State) (w : Width) (v : Int) : (s.writeAcc w v).bufWords = s.bufWords := rfl
@[simp] theorem State.writeAcc_ie (s : State) (w : Width) (v : Int) : (s.writeAcc w v).ie = s.ie := rfl
@[simp] theorem State.writeAcc_phase (s : State) (w : Width) (v : Int) : (s.writeAcc w v).phase = s.phase := rfl
@[simp] theorem State.writeAcc_done (s : State) (w : Width) (v : Int) : (s.writeAcc w v).done = s.done := rfl
@[simp] theorem State.writeAcc_err (s : State) (w : Width) (v : Int) : (s.writeAcc w v).err = s.err := rfl
@[simp] theorem State.writeAcc_wbusy (s : State) (w : Width) (v : Int) : (s.writeAcc w v).wbusy = s.wbusy := rfl
@[simp] theorem State.writeAcc_errcode (s : State) (w : Width) (v : Int) : (s.writeAcc w v).errcode = s.errcode := rfl
@[simp] theorem State.writeAcc_lastop (s : State) (w : Width) (v : Int) : (s.writeAcc w v).lastop = s.lastop := rfl
@[simp] theorem State.writeAcc_cmd (s : State) (w : Width) (v : Int) : (s.writeAcc w v).cmd = s.cmd := rfl
@[simp] theorem State.writeAcc_errinfo0 (s : State) (w : Width) (v : Int) : (s.writeAcc w v).errinfo0 = s.errinfo0 := rfl
@[simp] theorem State.writeAcc_errinfo1 (s : State) (w : Width) (v : Int) : (s.writeAcc w v).errinfo1 = s.errinfo1 := rfl
@[simp] theorem State.writeAcc_acc (s : State) (w : Width) (v : Int) : (s.writeAcc w v).acc = wordOf w v := rfl
@[simp] theorem State.writeAcc_desc (s : State) (w : Width) (v : Int) : (s.writeAcc w v).desc = s.desc := rfl
@[simp] theorem State.writeAcc_ucount (s : State) (w : Width) (v : Int) : (s.writeAcc w v).ucount = s.ucount := rfl
@[simp] theorem State.writeAcc_ncount (s : State) (w : Width) (v : Int) : (s.writeAcc w v).ncount = s.ncount := rfl
@[simp] theorem State.writeAcc_latch (s : State) (w : Width) (v : Int) : (s.writeAcc w v).latch = s.latch := rfl
@[simp] theorem State.writeAcc_mem (s : State) (w : Width) (v : Int) : (s.writeAcc w v).mem = s.mem := rfl
@[simp] theorem State.writeAcc_inputs (s : State) (w : Width) (v : Int) : (s.writeAcc w v).inputs = s.inputs := rfl
@[simp] theorem State.writeAcc_entropy (s : State) (w : Width) (v : Int) : (s.writeAcc w v).entropy = s.entropy := rfl
@[simp] theorem State.writeAcc_drawIndex (s : State) (w : Width) (v : Int) : (s.writeAcc w v).drawIndex = s.drawIndex := rfl
@[simp] theorem State.writeAcc_freeIndex (s : State) (w : Width) (v : Int) : (s.writeAcc w v).freeIndex = s.freeIndex := rfl
@[simp] theorem State.writeAcc_readData (s : State) (w : Width) (v : Int) : (s.writeAcc w v).readData = s.readData := rfl

/-! ### takeAnswer -/

@[simp] theorem State.takeAnswer_bufWords (s : State) : s.takeAnswer.bufWords = s.bufWords := rfl
@[simp] theorem State.takeAnswer_ie (s : State) : s.takeAnswer.ie = s.ie := rfl
@[simp] theorem State.takeAnswer_phase (s : State) : s.takeAnswer.phase = s.phase := rfl
@[simp] theorem State.takeAnswer_done (s : State) : s.takeAnswer.done = s.done := rfl
@[simp] theorem State.takeAnswer_err (s : State) : s.takeAnswer.err = s.err := rfl
@[simp] theorem State.takeAnswer_wbusy (s : State) : s.takeAnswer.wbusy = s.wbusy := rfl
@[simp] theorem State.takeAnswer_errcode (s : State) : s.takeAnswer.errcode = s.errcode := rfl
@[simp] theorem State.takeAnswer_lastop (s : State) : s.takeAnswer.lastop = s.lastop := rfl
@[simp] theorem State.takeAnswer_cmd (s : State) : s.takeAnswer.cmd = s.cmd := rfl
@[simp] theorem State.takeAnswer_errinfo0 (s : State) : s.takeAnswer.errinfo0 = s.errinfo0 := rfl
@[simp] theorem State.takeAnswer_errinfo1 (s : State) : s.takeAnswer.errinfo1 = s.errinfo1 := rfl
@[simp] theorem State.takeAnswer_acc (s : State) : s.takeAnswer.acc = s.acc := rfl
@[simp] theorem State.takeAnswer_desc (s : State) : s.takeAnswer.desc = s.desc := rfl
@[simp] theorem State.takeAnswer_ucount (s : State) : s.takeAnswer.ucount = s.ucount := rfl
@[simp] theorem State.takeAnswer_ncount (s : State) : s.takeAnswer.ncount = s.ncount := rfl
@[simp] theorem State.takeAnswer_latch (s : State) : s.takeAnswer.latch = s.latch := rfl
@[simp] theorem State.takeAnswer_mem (s : State) : s.takeAnswer.mem = s.mem := rfl
@[simp] theorem State.takeAnswer_inputs (s : State) : s.takeAnswer.inputs = s.inputs := rfl
@[simp] theorem State.takeAnswer_entropy (s : State) : s.takeAnswer.entropy = s.entropy.tail := rfl
@[simp] theorem State.takeAnswer_drawIndex (s : State) : s.takeAnswer.drawIndex = s.drawIndex + 1 := rfl
@[simp] theorem State.takeAnswer_freeIndex (s : State) : s.takeAnswer.freeIndex = s.freeIndex := rfl
@[simp] theorem State.takeAnswer_readData (s : State) : s.takeAnswer.readData = s.readData := rfl

/-! ### fillCell -/

@[simp] theorem State.fillCell_bufWords (s : State) (a : Nat) : (s.fillCell a).bufWords = s.bufWords := rfl
@[simp] theorem State.fillCell_ie (s : State) (a : Nat) : (s.fillCell a).ie = s.ie := rfl
@[simp] theorem State.fillCell_phase (s : State) (a : Nat) : (s.fillCell a).phase = s.phase := rfl
@[simp] theorem State.fillCell_done (s : State) (a : Nat) : (s.fillCell a).done = s.done := rfl
@[simp] theorem State.fillCell_err (s : State) (a : Nat) : (s.fillCell a).err = s.err := rfl
@[simp] theorem State.fillCell_wbusy (s : State) (a : Nat) : (s.fillCell a).wbusy = s.wbusy := rfl
@[simp] theorem State.fillCell_errcode (s : State) (a : Nat) : (s.fillCell a).errcode = s.errcode := rfl
@[simp] theorem State.fillCell_lastop (s : State) (a : Nat) : (s.fillCell a).lastop = s.lastop := rfl
@[simp] theorem State.fillCell_cmd (s : State) (a : Nat) : (s.fillCell a).cmd = s.cmd := rfl
@[simp] theorem State.fillCell_errinfo0 (s : State) (a : Nat) : (s.fillCell a).errinfo0 = s.errinfo0 := rfl
@[simp] theorem State.fillCell_errinfo1 (s : State) (a : Nat) : (s.fillCell a).errinfo1 = s.errinfo1 := rfl
@[simp] theorem State.fillCell_acc (s : State) (a : Nat) : (s.fillCell a).acc = s.acc := rfl
@[simp] theorem State.fillCell_desc (s : State) (a : Nat) : (s.fillCell a).desc = s.desc := rfl
@[simp] theorem State.fillCell_ucount (s : State) (a : Nat) : (s.fillCell a).ucount = s.ucount := rfl
@[simp] theorem State.fillCell_ncount (s : State) (a : Nat) : (s.fillCell a).ncount = s.ncount := rfl
@[simp] theorem State.fillCell_latch (s : State) (a : Nat) : (s.fillCell a).latch = s.latch := rfl
@[simp] theorem State.fillCell_mem (s : State) (a : Nat) : (s.fillCell a).mem = s.mem.writeCell a (Config.unspecifiedWord s.freeIndex) := rfl
@[simp] theorem State.fillCell_inputs (s : State) (a : Nat) : (s.fillCell a).inputs = s.inputs := rfl
@[simp] theorem State.fillCell_entropy (s : State) (a : Nat) : (s.fillCell a).entropy = s.entropy := rfl
@[simp] theorem State.fillCell_drawIndex (s : State) (a : Nat) : (s.fillCell a).drawIndex = s.drawIndex := rfl
@[simp] theorem State.fillCell_freeIndex (s : State) (a : Nat) : (s.fillCell a).freeIndex = s.freeIndex + 1 := rfl
@[simp] theorem State.fillCell_readData (s : State) (a : Nat) : (s.fillCell a).readData = s.readData := rfl

/-! ### reportSizeLwe -/

@[simp] theorem State.reportSizeLwe_bufWords (s : State) (d : Descriptors) : (s.reportSizeLwe d).bufWords = s.bufWords := rfl
@[simp] theorem State.reportSizeLwe_ie (s : State) (d : Descriptors) : (s.reportSizeLwe d).ie = s.ie := rfl
@[simp] theorem State.reportSizeLwe_phase (s : State) (d : Descriptors) : (s.reportSizeLwe d).phase = s.phase := rfl
@[simp] theorem State.reportSizeLwe_done (s : State) (d : Descriptors) : (s.reportSizeLwe d).done = s.done := rfl
@[simp] theorem State.reportSizeLwe_err (s : State) (d : Descriptors) : (s.reportSizeLwe d).err = s.err := rfl
@[simp] theorem State.reportSizeLwe_wbusy (s : State) (d : Descriptors) : (s.reportSizeLwe d).wbusy = s.wbusy := rfl
@[simp] theorem State.reportSizeLwe_errcode (s : State) (d : Descriptors) : (s.reportSizeLwe d).errcode = s.errcode := rfl
@[simp] theorem State.reportSizeLwe_lastop (s : State) (d : Descriptors) : (s.reportSizeLwe d).lastop = s.lastop := rfl
@[simp] theorem State.reportSizeLwe_cmd (s : State) (d : Descriptors) : (s.reportSizeLwe d).cmd = s.cmd := rfl
@[simp] theorem State.reportSizeLwe_errinfo0 (s : State) (d : Descriptors) : (s.reportSizeLwe d).errinfo0 = s.errinfo0 := rfl
@[simp] theorem State.reportSizeLwe_errinfo1 (s : State) (d : Descriptors) : (s.reportSizeLwe d).errinfo1 = s.errinfo1 := rfl
@[simp] theorem State.reportSizeLwe_acc (s : State) (d : Descriptors) : (s.reportSizeLwe d).acc = s.acc := rfl
@[simp] theorem State.reportSizeLwe_desc (s : State) (d : Descriptors) : (s.reportSizeLwe d).desc = { s.desc with ctSize := BitVec.ofNat 64 (d.keyDim.toNat + 1) } := rfl
@[simp] theorem State.reportSizeLwe_ucount (s : State) (d : Descriptors) : (s.reportSizeLwe d).ucount = s.ucount := rfl
@[simp] theorem State.reportSizeLwe_ncount (s : State) (d : Descriptors) : (s.reportSizeLwe d).ncount = s.ncount := rfl
@[simp] theorem State.reportSizeLwe_latch (s : State) (d : Descriptors) : (s.reportSizeLwe d).latch = s.latch := rfl
@[simp] theorem State.reportSizeLwe_mem (s : State) (d : Descriptors) : (s.reportSizeLwe d).mem = s.mem := rfl
@[simp] theorem State.reportSizeLwe_inputs (s : State) (d : Descriptors) : (s.reportSizeLwe d).inputs = s.inputs := rfl
@[simp] theorem State.reportSizeLwe_entropy (s : State) (d : Descriptors) : (s.reportSizeLwe d).entropy = s.entropy := rfl
@[simp] theorem State.reportSizeLwe_drawIndex (s : State) (d : Descriptors) : (s.reportSizeLwe d).drawIndex = s.drawIndex := rfl
@[simp] theorem State.reportSizeLwe_freeIndex (s : State) (d : Descriptors) : (s.reportSizeLwe d).freeIndex = s.freeIndex := rfl
@[simp] theorem State.reportSizeLwe_readData (s : State) (d : Descriptors) : (s.reportSizeLwe d).readData = s.readData := rfl

/-! ### reportSizeGlwe -/

@[simp] theorem State.reportSizeGlwe_bufWords (s : State) (d : Descriptors) : (s.reportSizeGlwe d).bufWords = s.bufWords := rfl
@[simp] theorem State.reportSizeGlwe_ie (s : State) (d : Descriptors) : (s.reportSizeGlwe d).ie = s.ie := rfl
@[simp] theorem State.reportSizeGlwe_phase (s : State) (d : Descriptors) : (s.reportSizeGlwe d).phase = s.phase := rfl
@[simp] theorem State.reportSizeGlwe_done (s : State) (d : Descriptors) : (s.reportSizeGlwe d).done = s.done := rfl
@[simp] theorem State.reportSizeGlwe_err (s : State) (d : Descriptors) : (s.reportSizeGlwe d).err = s.err := rfl
@[simp] theorem State.reportSizeGlwe_wbusy (s : State) (d : Descriptors) : (s.reportSizeGlwe d).wbusy = s.wbusy := rfl
@[simp] theorem State.reportSizeGlwe_errcode (s : State) (d : Descriptors) : (s.reportSizeGlwe d).errcode = s.errcode := rfl
@[simp] theorem State.reportSizeGlwe_lastop (s : State) (d : Descriptors) : (s.reportSizeGlwe d).lastop = s.lastop := rfl
@[simp] theorem State.reportSizeGlwe_cmd (s : State) (d : Descriptors) : (s.reportSizeGlwe d).cmd = s.cmd := rfl
@[simp] theorem State.reportSizeGlwe_errinfo0 (s : State) (d : Descriptors) : (s.reportSizeGlwe d).errinfo0 = s.errinfo0 := rfl
@[simp] theorem State.reportSizeGlwe_errinfo1 (s : State) (d : Descriptors) : (s.reportSizeGlwe d).errinfo1 = s.errinfo1 := rfl
@[simp] theorem State.reportSizeGlwe_acc (s : State) (d : Descriptors) : (s.reportSizeGlwe d).acc = s.acc := rfl
@[simp] theorem State.reportSizeGlwe_desc (s : State) (d : Descriptors) : (s.reportSizeGlwe d).desc = { s.desc with ctSize := BitVec.ofNat 64 (d.keyDim.toNat + 1), ctPoly := d.keyPoly } := rfl
@[simp] theorem State.reportSizeGlwe_ucount (s : State) (d : Descriptors) : (s.reportSizeGlwe d).ucount = s.ucount := rfl
@[simp] theorem State.reportSizeGlwe_ncount (s : State) (d : Descriptors) : (s.reportSizeGlwe d).ncount = s.ncount := rfl
@[simp] theorem State.reportSizeGlwe_latch (s : State) (d : Descriptors) : (s.reportSizeGlwe d).latch = s.latch := rfl
@[simp] theorem State.reportSizeGlwe_mem (s : State) (d : Descriptors) : (s.reportSizeGlwe d).mem = s.mem := rfl
@[simp] theorem State.reportSizeGlwe_inputs (s : State) (d : Descriptors) : (s.reportSizeGlwe d).inputs = s.inputs := rfl
@[simp] theorem State.reportSizeGlwe_entropy (s : State) (d : Descriptors) : (s.reportSizeGlwe d).entropy = s.entropy := rfl
@[simp] theorem State.reportSizeGlwe_drawIndex (s : State) (d : Descriptors) : (s.reportSizeGlwe d).drawIndex = s.drawIndex := rfl
@[simp] theorem State.reportSizeGlwe_freeIndex (s : State) (d : Descriptors) : (s.reportSizeGlwe d).freeIndex = s.freeIndex := rfl
@[simp] theorem State.reportSizeGlwe_readData (s : State) (d : Descriptors) : (s.reportSizeGlwe d).readData = s.readData := rfl

/-! ### clearRegisters -/

@[simp] theorem State.clearRegisters_bufWords (s : State) : s.clearRegisters.bufWords = s.bufWords := rfl
@[simp] theorem State.clearRegisters_ie (s : State) : s.clearRegisters.ie = false := rfl
@[simp] theorem State.clearRegisters_phase (s : State) : s.clearRegisters.phase = .idle := rfl
@[simp] theorem State.clearRegisters_done (s : State) : s.clearRegisters.done = false := rfl
@[simp] theorem State.clearRegisters_err (s : State) : s.clearRegisters.err = false := rfl
@[simp] theorem State.clearRegisters_wbusy (s : State) : s.clearRegisters.wbusy = false := rfl
@[simp] theorem State.clearRegisters_errcode (s : State) : s.clearRegisters.errcode = 0 := rfl
@[simp] theorem State.clearRegisters_lastop (s : State) : s.clearRegisters.lastop = 0 := rfl
@[simp] theorem State.clearRegisters_cmd (s : State) : s.clearRegisters.cmd = 0 := rfl
@[simp] theorem State.clearRegisters_errinfo0 (s : State) : s.clearRegisters.errinfo0 = 0 := rfl
@[simp] theorem State.clearRegisters_errinfo1 (s : State) : s.clearRegisters.errinfo1 = 0 := rfl
@[simp] theorem State.clearRegisters_acc (s : State) : s.clearRegisters.acc = 0 := rfl
@[simp] theorem State.clearRegisters_desc (s : State) : s.clearRegisters.desc = .zero := rfl
@[simp] theorem State.clearRegisters_ucount (s : State) : s.clearRegisters.ucount = 0 := rfl
@[simp] theorem State.clearRegisters_ncount (s : State) : s.clearRegisters.ncount = 0 := rfl
@[simp] theorem State.clearRegisters_latch (s : State) : s.clearRegisters.latch = .zero := rfl
@[simp] theorem State.clearRegisters_mem (s : State) : s.clearRegisters.mem = s.mem := rfl
@[simp] theorem State.clearRegisters_inputs (s : State) : s.clearRegisters.inputs = s.inputs := rfl
@[simp] theorem State.clearRegisters_entropy (s : State) : s.clearRegisters.entropy = s.entropy := rfl
@[simp] theorem State.clearRegisters_drawIndex (s : State) : s.clearRegisters.drawIndex = s.drawIndex := rfl
@[simp] theorem State.clearRegisters_freeIndex (s : State) : s.clearRegisters.freeIndex = s.freeIndex := rfl
@[simp] theorem State.clearRegisters_readData (s : State) : s.clearRegisters.readData = s.readData := rfl

/-! ### emptyRegion -/

@[simp] theorem State.emptyRegion_bufWords (s : State) (r : Region) : (s.emptyRegion r).bufWords = s.bufWords := rfl
@[simp] theorem State.emptyRegion_ie (s : State) (r : Region) : (s.emptyRegion r).ie = s.ie := rfl
@[simp] theorem State.emptyRegion_phase (s : State) (r : Region) : (s.emptyRegion r).phase = s.phase := rfl
@[simp] theorem State.emptyRegion_done (s : State) (r : Region) : (s.emptyRegion r).done = s.done := rfl
@[simp] theorem State.emptyRegion_err (s : State) (r : Region) : (s.emptyRegion r).err = s.err := rfl
@[simp] theorem State.emptyRegion_wbusy (s : State) (r : Region) : (s.emptyRegion r).wbusy = s.wbusy := rfl
@[simp] theorem State.emptyRegion_errcode (s : State) (r : Region) : (s.emptyRegion r).errcode = s.errcode := rfl
@[simp] theorem State.emptyRegion_lastop (s : State) (r : Region) : (s.emptyRegion r).lastop = s.lastop := rfl
@[simp] theorem State.emptyRegion_cmd (s : State) (r : Region) : (s.emptyRegion r).cmd = s.cmd := rfl
@[simp] theorem State.emptyRegion_errinfo0 (s : State) (r : Region) : (s.emptyRegion r).errinfo0 = s.errinfo0 := rfl
@[simp] theorem State.emptyRegion_errinfo1 (s : State) (r : Region) : (s.emptyRegion r).errinfo1 = s.errinfo1 := rfl
@[simp] theorem State.emptyRegion_acc (s : State) (r : Region) : (s.emptyRegion r).acc = s.acc := rfl
@[simp] theorem State.emptyRegion_desc (s : State) (r : Region) : (s.emptyRegion r).desc = s.desc := rfl
@[simp] theorem State.emptyRegion_ucount (s : State) (r : Region) : (s.emptyRegion r).ucount = s.ucount := rfl
@[simp] theorem State.emptyRegion_ncount (s : State) (r : Region) : (s.emptyRegion r).ncount = s.ncount := rfl
@[simp] theorem State.emptyRegion_latch (s : State) (r : Region) : (s.emptyRegion r).latch = s.latch := rfl
@[simp] theorem State.emptyRegion_mem (s : State) (r : Region) : (s.emptyRegion r).mem = s.mem.emptyCells r.base (min (r.base + r.len) s.bufWords) := rfl
@[simp] theorem State.emptyRegion_inputs (s : State) (r : Region) : (s.emptyRegion r).inputs = s.inputs := rfl
@[simp] theorem State.emptyRegion_entropy (s : State) (r : Region) : (s.emptyRegion r).entropy = s.entropy := rfl
@[simp] theorem State.emptyRegion_drawIndex (s : State) (r : Region) : (s.emptyRegion r).drawIndex = s.drawIndex := rfl
@[simp] theorem State.emptyRegion_freeIndex (s : State) (r : Region) : (s.emptyRegion r).freeIndex = s.freeIndex := rfl
@[simp] theorem State.emptyRegion_readData (s : State) (r : Region) : (s.emptyRegion r).readData = s.readData := rfl

/-! ### countDraw: the counter its request names, and nothing else -/

@[simp] theorem State.countDraw_bufWords (s : State) (r : Request) : (s.countDraw r).bufWords = s.bufWords := by cases r <;> rfl
@[simp] theorem State.countDraw_ie (s : State) (r : Request) : (s.countDraw r).ie = s.ie := by cases r <;> rfl
@[simp] theorem State.countDraw_phase (s : State) (r : Request) : (s.countDraw r).phase = s.phase := by cases r <;> rfl
@[simp] theorem State.countDraw_done (s : State) (r : Request) : (s.countDraw r).done = s.done := by cases r <;> rfl
@[simp] theorem State.countDraw_err (s : State) (r : Request) : (s.countDraw r).err = s.err := by cases r <;> rfl
@[simp] theorem State.countDraw_wbusy (s : State) (r : Request) : (s.countDraw r).wbusy = s.wbusy := by cases r <;> rfl
@[simp] theorem State.countDraw_errcode (s : State) (r : Request) : (s.countDraw r).errcode = s.errcode := by cases r <;> rfl
@[simp] theorem State.countDraw_lastop (s : State) (r : Request) : (s.countDraw r).lastop = s.lastop := by cases r <;> rfl
@[simp] theorem State.countDraw_cmd (s : State) (r : Request) : (s.countDraw r).cmd = s.cmd := by cases r <;> rfl
@[simp] theorem State.countDraw_errinfo0 (s : State) (r : Request) : (s.countDraw r).errinfo0 = s.errinfo0 := by cases r <;> rfl
@[simp] theorem State.countDraw_errinfo1 (s : State) (r : Request) : (s.countDraw r).errinfo1 = s.errinfo1 := by cases r <;> rfl
@[simp] theorem State.countDraw_acc (s : State) (r : Request) : (s.countDraw r).acc = s.acc := by cases r <;> rfl
@[simp] theorem State.countDraw_desc (s : State) (r : Request) : (s.countDraw r).desc = s.desc := by cases r <;> rfl
@[simp] theorem State.countDraw_latch (s : State) (r : Request) : (s.countDraw r).latch = s.latch := by cases r <;> rfl
@[simp] theorem State.countDraw_mem (s : State) (r : Request) : (s.countDraw r).mem = s.mem := by cases r <;> rfl
@[simp] theorem State.countDraw_inputs (s : State) (r : Request) : (s.countDraw r).inputs = s.inputs := by cases r <;> rfl
@[simp] theorem State.countDraw_entropy (s : State) (r : Request) : (s.countDraw r).entropy = s.entropy := by cases r <;> rfl
@[simp] theorem State.countDraw_drawIndex (s : State) (r : Request) : (s.countDraw r).drawIndex = s.drawIndex := by cases r <;> rfl
@[simp] theorem State.countDraw_freeIndex (s : State) (r : Request) : (s.countDraw r).freeIndex = s.freeIndex := by cases r <;> rfl
@[simp] theorem State.countDraw_readData (s : State) (r : Request) : (s.countDraw r).readData = s.readData := by cases r <;> rfl

/-! ### The power-on state -/

@[simp] theorem State.powerOn_bufWords (n : Nat) : (State.powerOn n).bufWords = n := rfl
@[simp] theorem State.powerOn_mem (n : Nat) : (State.powerOn n).mem = [] := rfl
@[simp] theorem State.powerOn_phase (n : Nat) : (State.powerOn n).phase = .idle := rfl

end Sys2Proof.Machine
end

