-- ==== Sys2Proof/Laws/Memory.lean ====
section
/-! SUPPORT. Sys2Proof/Laws/Memory.lean: read after write for bytes, halves and cells, what emptying cells leaves, and that
every memory operation keeps the canonical form, the bounds and whole halves. -/

namespace Sys2Proof.Machine

open Sys2Proof

/-- Every listed byte lies below `stop`. -/
abbrev Memory.below (m : Memory) (stop : Nat) : Prop := ∀ c ∈ m, c.1 < stop

/-- Each half holds a value as a whole or not at all (10_state.md R37). -/
def Memory.halvesWhole (m : Memory) : Prop :=
  ∀ h, (∀ i < 4, (m.readByte (4 * h + i)).isSome) ∨ ∀ i < 4, m.readByte (4 * h + i) = none

/-! ### Bytes -/

@[simp] theorem Memory.readByte_nil (a : Nat) : Memory.readByte [] a = none := rfl

theorem Memory.readByte_cons (k : Nat) (b : Byte) (m : Memory) (a : Nat) :
    Memory.readByte ((k, b) :: m) a = if k = a then some b else Memory.readByte m a := rfl

theorem Memory.readByte_writeByte (m : Memory) (a x : Nat) (b : Byte) :
    (m.writeByte a b).readByte x = if a = x then some b else m.readByte x := by
  induction m with
  | nil => simp [Memory.writeByte, Memory.readByte_cons]
  | cons c m ih =>
    obtain ⟨k, y⟩ := c
    simp only [Memory.writeByte]
    split_ifs <;> simp_all [Memory.readByte_cons]
    grind

theorem Memory.mem_writeByte {m : Memory} {a : Nat} {b : Byte} {c : Host.Cell}
    (h : c ∈ m.writeByte a b) : c = (a, b) ∨ c ∈ m := by
  induction m with
  | nil => simpa [Memory.writeByte] using h
  | cons d m ih =>
    obtain ⟨k, y⟩ := d
    simp only [Memory.writeByte] at h
    split_ifs at h <;> simp_all <;> grind

theorem Memory.wf_writeByte {m : Memory} (h : m.wf) (a : Nat) (b : Byte) : (m.writeByte a b).wf := by
  induction m with
  | nil => simp [Memory.writeByte, Memory.wf]
  | cons d m ih =>
    obtain ⟨k, y⟩ := d
    obtain ⟨hk, hm⟩ := List.pairwise_cons.1 h
    simp only [Memory.writeByte]
    split_ifs with h1 h2
    · refine List.pairwise_cons.2 ⟨fun c hc => ?_, h⟩
      rcases List.mem_cons.1 hc with rfl | hc
      · exact h1
      · exact h1.trans (hk c hc)
    · subst h2
      exact List.pairwise_cons.2 ⟨hk, hm⟩
    · refine List.pairwise_cons.2 ⟨fun c hc => ?_, ih hm⟩
      rcases Memory.mem_writeByte hc with rfl | hc
      · change k < a
        omega
      · exact hk c hc

theorem Memory.below_writeByte {m : Memory} {stop : Nat} (h : m.below stop) {a : Nat} (ha : a < stop) (b : Byte) :
    (m.writeByte a b).below stop := by
  intro c hc
  rcases Memory.mem_writeByte hc with rfl | hc
  · exact ha
  · exact h c hc

/-! ### Halves -/

theorem half_of_bytes (v : Half) :
    v.extractLsb' 24 8 ++ v.extractLsb' 16 8 ++ v.extractLsb' 8 8 ++ v.extractLsb' 0 8 = v := by
  ext i hi
  simp only [BitVec.getElem_append, BitVec.getElem_extractLsb']
  split_ifs <;> simp_all [← BitVec.getLsbD_eq_getElem] <;> grind

theorem word_of_halves (v : Word) : v.extractLsb' 32 32 ++ v.extractLsb' 0 32 = v := by
  ext i hi
  simp only [BitVec.getElem_append, BitVec.getElem_extractLsb']
  split_ifs <;> simp_all [← BitVec.getLsbD_eq_getElem]

theorem low_of_halves (hi lo : Half) : (hi ++ lo : Word).extractLsb' 0 32 = lo := by
  apply BitVec.eq_of_getLsbD_eq
  intro i h
  have e := BitVec.getLsbD_append (x := hi) (y := lo) (i := i)
  rw [if_pos h] at e
  rw [BitVec.getLsbD_extractLsb', Nat.zero_add]
  simpa [h] using e

theorem high_of_halves (hi lo : Half) : (hi ++ lo : Word).extractLsb' 32 32 = hi := by
  apply BitVec.eq_of_getLsbD_eq
  intro i h
  have e := BitVec.getLsbD_append (x := hi) (y := lo) (i := 32 + i)
  rw [if_neg (by omega), Nat.add_sub_cancel_left] at e
  rw [BitVec.getLsbD_extractLsb']
  simpa [h] using e

theorem Memory.readByte_writeHalf (m : Memory) (h : Nat) (v : Half) (x : Nat) :
    (m.writeHalf h v).readByte x =
      if 4 * h ≤ x ∧ x < 4 * h + 4 then some (v.extractLsb' (8 * (x - 4 * h)) 8) else m.readByte x := by
  simp only [Memory.writeHalf, Memory.readByte_writeByte]
  by_cases h3 : 4 * h + 3 = x
  · subst h3; simp [show 4 * h + 3 - 4 * h = 3 by omega]
  by_cases h2 : 4 * h + 2 = x
  · subst h2; simp [show 4 * h + 2 - 4 * h = 2 by omega]
  by_cases h1 : 4 * h + 1 = x
  · subst h1; simp [show 4 * h + 1 - 4 * h = 1 by omega]
  by_cases h0 : 4 * h = x
  · subst h0; simp
  rw [if_neg h3, if_neg h2, if_neg h1, if_neg h0, if_neg (by omega)]

theorem Memory.readHalf_writeHalf (m : Memory) (h g : Nat) (v : Half) :
    (m.writeHalf h v).readHalf g = if h = g then some v else m.readHalf g := by
  by_cases hg : h = g
  · subst hg
    simp [Memory.readHalf, Memory.readByte_writeHalf, show 4 * h + 1 - 4 * h = 1 by omega,
      show 4 * h + 2 - 4 * h = 2 by omega, show 4 * h + 3 - 4 * h = 3 by omega, half_of_bytes]
  · simp only [Memory.readHalf, Memory.readByte_writeHalf, if_neg hg]
    rw [if_neg (by omega), if_neg (by omega), if_neg (by omega), if_neg (by omega)]

theorem Memory.wf_writeHalf {m : Memory} (hm : m.wf) (h : Nat) (v : Half) : (m.writeHalf h v).wf :=
  wf_writeByte (wf_writeByte (wf_writeByte (wf_writeByte hm _ _) _ _) _ _) _ _

theorem Memory.below_writeHalf {m : Memory} {stop : Nat} (hm : m.below stop) {h : Nat} (hh : 4 * h + 4 ≤ stop)
    (v : Half) : (m.writeHalf h v).below stop :=
  below_writeByte (below_writeByte (below_writeByte (below_writeByte hm (by omega) _) (by omega) _) (by omega) _)
    (by omega) _

theorem Memory.halvesWhole_writeHalf {m : Memory} (hm : m.halvesWhole) (h : Nat) (v : Half) :
    (m.writeHalf h v).halvesWhole := by
  intro g
  simp only [Memory.readByte_writeHalf]
  by_cases hg : g = h
  · subst hg
    exact .inl fun i hi => by rw [if_pos (by omega)]; rfl
  · rcases hm g with h1 | h1
    · exact .inl fun i hi => by rw [if_neg (by omega)]; exact h1 i hi
    · exact .inr fun i hi => by rw [if_neg (by omega)]; exact h1 i hi

/-- In a memory of whole halves a half that cannot be read has no byte that can. -/
theorem Memory.readByte_of_readHalf_none {m : Memory} (hm : m.halvesWhole) {h : Nat} (hn : m.readHalf h = none)
    {i : Nat} (hi : i < 4) : m.readByte (4 * h + i) = none := by
  rcases hm h with h1 | h1
  · obtain ⟨b0, e0⟩ := Option.isSome_iff_exists.1 (h1 0 (by omega))
    obtain ⟨b1, e1⟩ := Option.isSome_iff_exists.1 (h1 1 (by omega))
    obtain ⟨b2, e2⟩ := Option.isSome_iff_exists.1 (h1 2 (by omega))
    obtain ⟨b3, e3⟩ := Option.isSome_iff_exists.1 (h1 3 (by omega))
    simp [Memory.readHalf, e1, e2, e3] at hn
    simp_all
  · exact h1 i hi

/-! ### Cells -/

theorem Memory.readByte_writeCell (m : Memory) (a : Nat) (v : Word) (x : Nat) (hx : x < 8 * a ∨ 8 * a + 8 ≤ x) :
    (m.writeCell a v).readByte x = m.readByte x := by
  simp only [Memory.writeCell, Memory.readByte_writeHalf]
  rw [if_neg (by omega), if_neg (by omega)]

theorem Memory.readHalf_writeCell (m : Memory) (a : Nat) (v : Word) (g : Nat) :
    (m.writeCell a v).readHalf g =
      if g = 2 * a then some (v.extractLsb' 0 32)
      else if g = 2 * a + 1 then some (v.extractLsb' 32 32) else m.readHalf g := by
  simp only [Memory.writeCell, Memory.readHalf_writeHalf]
  by_cases h1 : g = 2 * a
  · subst h1; simp
  · by_cases h2 : g = 2 * a + 1
    · subst h2; simp
    · rw [if_neg (by omega), if_neg (by omega), if_neg h1, if_neg h2]

theorem Memory.readCell_writeCell (m : Memory) (a b : Nat) (v : Word) :
    (m.writeCell a v).readCell b = if a = b then some v else m.readCell b := by
  by_cases h : a = b
  · subst h
    simp [Memory.readCell, Memory.readHalf_writeCell, word_of_halves]
  · simp only [Memory.readCell, Memory.readHalf_writeCell, if_neg h]
    rw [if_neg (by omega), if_neg (by omega), if_neg (by omega), if_neg (by omega)]

theorem Memory.wf_writeCell {m : Memory} (hm : m.wf) (a : Nat) (v : Word) : (m.writeCell a v).wf :=
  wf_writeHalf (wf_writeHalf hm _ _) _ _

theorem Memory.below_writeCell {m : Memory} {stop : Nat} (hm : m.below (8 * stop)) {a : Nat} (ha : a < stop)
    (v : Word) : (m.writeCell a v).below (8 * stop) :=
  below_writeHalf (below_writeHalf hm (by omega) _) (by omega) _

theorem Memory.halvesWhole_writeCell {m : Memory} (hm : m.halvesWhole) (a : Nat) (v : Word) :
    (m.writeCell a v).halvesWhole :=
  halvesWhole_writeHalf (halvesWhole_writeHalf hm _ _) _ _

/-- Halves with the same bytes read the same. -/
theorem Memory.readHalf_congr {m m' : Memory} {h : Nat} (e : ∀ i < 4, m'.readByte (4 * h + i) = m.readByte (4 * h + i)) :
    m'.readHalf h = m.readHalf h := by
  have e0 := e 0 (by omega)
  have e1 := e 1 (by omega)
  have e2 := e 2 (by omega)
  have e3 := e 3 (by omega)
  simp only [Nat.add_zero] at e0
  simp only [Memory.readHalf, e0, e1, e2, e3]

/-- Cells with the same bytes read the same. -/
theorem Memory.readCell_congr {m m' : Memory} {a : Nat} (e : ∀ i < 8, m'.readByte (8 * a + i) = m.readByte (8 * a + i)) :
    m'.readCell a = m.readCell a := by
  have h0 : m'.readHalf (2 * a) = m.readHalf (2 * a) :=
    readHalf_congr fun i hi => by
      have := e i (by omega)
      rwa [show 4 * (2 * a) + i = 8 * a + i by omega]
  have h1 : m'.readHalf (2 * a + 1) = m.readHalf (2 * a + 1) :=
    readHalf_congr fun i hi => by
      have := e (4 + i) (by omega)
      rwa [show 4 * (2 * a + 1) + i = 8 * a + (4 + i) by omega]
  simp only [Memory.readCell, h0, h1]

/-! ### Emptying -/

theorem Memory.readByte_emptyCells (m : Memory) (base stop x : Nat) :
    (m.emptyCells base stop).readByte x = if 8 * base ≤ x ∧ x < 8 * stop then none else m.readByte x := by
  induction m with
  | nil => simp [Memory.emptyCells]
  | cons c m ih =>
    obtain ⟨k, y⟩ := c
    simp only [Memory.emptyCells, List.filter_cons] at ih ⊢
    by_cases hk : 8 * base ≤ k ∧ k < 8 * stop
    · rw [if_neg (by simp; omega), ih, Memory.readByte_cons]
      split_ifs <;> first | rfl | omega
    · rw [if_pos (by simp; omega), Memory.readByte_cons, ih, Memory.readByte_cons]
      split_ifs <;> first | rfl | omega

theorem Memory.wf_emptyCells {m : Memory} (hm : m.wf) (base stop : Nat) : (m.emptyCells base stop).wf :=
  List.Pairwise.filter _ hm

theorem Memory.below_emptyCells {m : Memory} {b : Nat} (hm : m.below b) (base stop : Nat) :
    (m.emptyCells base stop).below b :=
  fun c hc => hm c (List.mem_filter.1 hc).1

theorem Memory.halvesWhole_emptyCells {m : Memory} (hm : m.halvesWhole) (base stop : Nat) :
    (m.emptyCells base stop).halvesWhole := by
  intro h
  simp only [Memory.readByte_emptyCells]
  by_cases hc : 2 * base ≤ h ∧ h < 2 * stop
  · exact .inr fun i hi => by rw [if_pos (by omega)]
  · rcases hm h with h1 | h1
    · exact .inl fun i hi => by rw [if_neg (by omega)]; exact h1 i hi
    · exact .inr fun i hi => by rw [if_neg (by omega)]; exact h1 i hi

theorem Memory.wf_nil : Memory.wf [] := List.Pairwise.nil

theorem Memory.halvesWhole_nil : Memory.halvesWhole [] := fun _ => .inr fun _ _ => rfl

end Sys2Proof.Machine
end

