-- ==== Sys2Proof/Laws/Ops.lean ====
section
/-! SUPPORT. Sys2Proof/Laws/Ops.lean: what each shared operation does, once: reading operands, writing results, drawing,
filling with unspecified words, and the entry of a command. Proofs about commands cite these and unfold none of them. -/

namespace Sys2Proof.Machine

open Sys2Proof

/-! ### Attempts -/

@[simp] theorem Attempt.done_andThen {α β : Type} (a : α) (k : α → Attempt β) : (Attempt.done a).andThen k = k a := rfl

@[simp] theorem Attempt.error_andThen {α β : Type} (x : CommandError) (s : State) (k : α → Attempt β) :
    (Attempt.error x s : Attempt α).andThen k = .error x s := rfl

@[simp] theorem Attempt.fault_andThen {α β : Type} (f : Fault) (k : α → Attempt β) :
    (Attempt.fault f : Attempt α).andThen k = .fault f := rfl

@[simp] theorem Attempt.done_finish (s : State) : (Attempt.done s).finish = .next s.complete := rfl

@[simp] theorem Attempt.error_finish (x : CommandError) (s : State) : (Attempt.error x s).finish = .next (s.raiseError x) :=
  rfl

@[simp] theorem Attempt.fault_finish (f : Fault) : (Attempt.fault f : Attempt State).finish = .fault f := rfl

/-- A stretch that ends in the first one's value ran through both. -/
theorem Attempt.andThen_done {α β : Type} {t : Attempt α} {k : α → Attempt β} {b : β} (h : t.andThen k = .done b) :
    ∃ a, t = .done a ∧ k a = .done b := by
  cases t with
  | done a => exact ⟨a, rfl, h⟩
  | error x s => cases h
  | fault f => cases h

/-- An error of two stretches is an error of one of them. -/
theorem Attempt.andThen_error {α β : Type} {t : Attempt α} {k : α → Attempt β} {x : CommandError} {u : State}
    (h : t.andThen k = .error x u) : t = .error x u ∨ ∃ a, t = .done a ∧ k a = .error x u := by
  cases t with
  | done a => exact .inr ⟨a, rfl, h⟩
  | error y s => exact .inl (by cases h; rfl)
  | fault f => cases h

/-! ### The entry of a command -/

theorem State.enter_pass (s : State) (e : Entry) {cs : List Check} (body : Attempt State) (h : firstFailure cs = none) :
    s.enter e cs body = body.finish := by
  simp [State.enter, h]

theorem State.enter_checked (s : State) {cs : List Check} (body : Attempt State) {x : CommandError}
    (h : firstFailure cs = some x) : s.enter .checked cs body = .next (s.raiseError x) := by
  simp [State.enter, h]

theorem State.enter_unchecked (s : State) {cs : List Check} (body : Attempt State) {x : CommandError}
    (h : firstFailure cs = some x) : s.enter .unchecked cs body = .fault .preconditionViolated := by
  simp [State.enter, h]

/-- Every way a command can answer a next state. -/
theorem State.enter_next {s : State} {e : Entry} {cs : List Check} {body : Attempt State} {t : State}
    (h : s.enter e cs body = .next t) :
    (∃ x, firstFailure cs = some x ∧ e = .checked ∧ t = s.raiseError x) ∨
      (firstFailure cs = none ∧ ∃ u, body = .done u ∧ t = u.complete) ∨
      (firstFailure cs = none ∧ ∃ x u, body = .error x u ∧ t = u.raiseError x) := by
  unfold State.enter at h
  split at h
  · rename_i x hx
    injection h with h
    exact .inl ⟨x, hx, rfl, h.symm⟩
  · cases h
  · rename_i hx
    cases body with
    | done u =>
      injection h with h
      exact .inr (.inl ⟨hx, u, rfl, h.symm⟩)
    | error x u =>
      injection h with h
      exact .inr (.inr ⟨hx, x, u, rfl, h.symm⟩)
    | fault f => cases h

theorem firstFailure_append (xs ys : List Check) :
    firstFailure (xs ++ ys) = (firstFailure xs).or (firstFailure ys) := by
  induction xs with
  | nil => rfl
  | cons c cs ih =>
    simp only [List.cons_append, firstFailure]
    split_ifs
    · exact ih
    · rfl

theorem firstFailure_eq_none {cs : List Check} : firstFailure cs = none ↔ ∀ c ∈ cs, c.holds = true := by
  induction cs with
  | nil => simp [firstFailure]
  | cons c cs ih =>
    simp only [firstFailure, List.mem_cons, forall_eq_or_imp]
    split_ifs with h
    · simp [ih, h]
    · simp [h]

theorem addressCheck_holds {n : Nat} {r : Region} : (addressCheck n r).holds = true ↔ Fits n r.base r.len := by
  simp [addressCheck, Fits]

theorem overlapCheck_holds {a b : Region} :
    (overlapCheck a b).holds = true ↔ Apart a.base a.len b.base b.len := by
  simp [overlapCheck, Apart, or_assoc]

theorem addressChecks_pass {n : Nat} {rs : List Region} :
    (∀ c ∈ addressChecks n rs, c.holds = true) ↔ ∀ r ∈ rs, Fits n r.base r.len := by
  simp [addressChecks, addressCheck_holds]

theorem overlapChecks_pass {a : Region} {rs : List Region} :
    (∀ c ∈ overlapChecks a rs, c.holds = true) ↔ ∀ r ∈ rs, Apart a.base a.len r.base r.len := by
  simp [overlapChecks, overlapCheck_holds]

/-! ### Reading -/

theorem State.readElem_w64 (s : State) (a : Nat) :
    s.readElem .w64 a =
      if a < s.bufWords then
        match s.mem.readCell a with
        | some v => .done v.toNat
        | none => .fault .uninitRead
      else .fault .addressRange := by
  simp only [State.readElem, State.memRead]
  split_ifs
  · cases s.mem.readCell a <;> rfl
  · rfl

theorem State.readElem_w32 (s : State) (a : Nat) :
    s.readElem .w32 a =
      if a < s.bufWords then
        match s.mem.readHalf (2 * a) with
        | some v => .done v.toNat
        | none => .fault .uninitRead
      else .fault .addressRange := by
  simp only [State.readElem, State.memReadLow]
  split_ifs
  · cases s.mem.readHalf (2 * a) <;> rfl
  · rfl

theorem State.readElem_lt {s : State} {w : Width} {a : Nat} {x : Int} (h : s.readElem w a = .done x) :
    a < s.bufWords := by
  cases w
  · rw [State.readElem_w32] at h
    by_contra hn
    rw [if_neg hn] at h
    cases h
  · rw [State.readElem_w64] at h
    by_contra hn
    rw [if_neg hn] at h
    cases h

/-- A read of one element ends with a value or a fault. -/
theorem State.readElem_total (s : State) (w : Width) (a : Nat) :
    (∃ x, s.readElem w a = .done x) ∨ ∃ f, s.readElem w a = .fault f := by
  cases w
  · rw [State.readElem_w32]
    split_ifs
    · cases s.mem.readHalf (2 * a) <;> simp
    · simp
  · rw [State.readElem_w64]
    split_ifs
    · cases s.mem.readCell a <;> simp
    · simp

/-- An element in range that cannot be read faults as uninitialised (20_memory.md R50). -/
theorem State.readElem_uninit {s : State} {w : Width} {a : Nat} (ha : a < s.bufWords)
    (h : ∀ x, s.readElem w a ≠ .done x) : s.readElem w a = .fault .uninitRead := by
  cases w
  · rw [State.readElem_w32, if_pos ha] at h ⊢
    cases e : s.mem.readHalf (2 * a) with
    | none => rfl
    | some v => exact absurd (by simp [e]) (h v.toNat)
  · rw [State.readElem_w64, if_pos ha] at h ⊢
    cases e : s.mem.readCell a with
    | none => rfl
    | some v => exact absurd (by simp [e]) (h v.toNat)

/-- What a command reads of a cell depends on BUF_WORDS and that cell's bytes alone. -/
theorem State.readElem_congr {s t : State} {w : Width} {a : Nat} (hb : t.bufWords = s.bufWords)
    (hm : ∀ i < 8, t.mem.readByte (8 * a + i) = s.mem.readByte (8 * a + i)) : t.readElem w a = s.readElem w a := by
  cases w
  · have : t.mem.readHalf (2 * a) = s.mem.readHalf (2 * a) :=
      Memory.readHalf_congr fun i hi => by
        have := hm i (by omega)
        rwa [show 4 * (2 * a) + i = 8 * a + i by omega]
    rw [State.readElem_w32, State.readElem_w32, this, hb]
  · rw [State.readElem_w64, State.readElem_w64, Memory.readCell_congr hm, hb]

/-- A cell that holds the word of an element reads as that element. -/
theorem State.readElem_of_cell {s : State} {w : Width} {a : Nat} {v : Int} (ha : a < s.bufWords)
    (h : s.mem.readCell a = some (wordOf w v)) : s.readElem w a = .done (torus w v) := by
  cases w
  · rw [State.readElem_w32, if_pos ha]
    unfold Memory.readCell at h
    split at h
    · rename_i lo hi h1 h2
      rw [h1]
      have hlo : lo = (wordOf .w32 v).extractLsb' 0 32 := by
        injection h with h
        rw [← h, low_of_halves]
      simp only [hlo, low_half_wordOf]
    · cases h
  · rw [State.readElem_w64, if_pos ha, h]
    simp only [wordOf_toNat]

theorem State.readElems_of_readable {s : State} {w : Width} {n a : Nat} {x : Nat → Int} (h : Readable s w a n x) :
    s.readElems w a n = .done ((List.range n).map x) := by
  induction n generalizing a x with
  | zero => rfl
  | succ n ih =>
    have h0 := h 0 (by omega)
    have h1 : Readable s w (a + 1) n (fun i => x (i + 1)) := fun i hi => by
      have := h (i + 1) (by omega)
      rwa [show a + (i + 1) = a + 1 + i by omega] at this
    rw [Nat.add_zero] at h0
    rw [State.readElems, h0, Attempt.done_andThen, ih h1, Attempt.done_andThen, List.range_succ_eq_map]
    simp [Function.comp_def]

/-- A run of reads ends with the elements of readable cells or with a fault. -/
theorem State.readElems_total (s : State) (w : Width) (a n : Nat) :
    (∃ x, Readable s w a n x ∧ s.readElems w a n = .done ((List.range n).map x)) ∨
      ∃ f, s.readElems w a n = .fault f := by
  by_cases h : ∀ i < n, ∃ x, s.readElem w (a + i) = .done x
  · choose! x hx using h
    exact .inl ⟨x, hx, readElems_of_readable hx⟩
  · right
    push Not at h
    obtain ⟨i, hi, hx⟩ := h
    induction n generalizing a i with
    | zero => omega
    | succ n ih =>
      rcases s.readElem_total w a with ⟨y, hy⟩ | ⟨f, hf⟩
      · have hi0 : i ≠ 0 := by
          rintro rfl
          exact hx y hy
        obtain ⟨f, hf⟩ := ih (a + 1) (i - 1) (by omega) (by rwa [show a + 1 + (i - 1) = a + i by omega])
        exact ⟨f, by rw [State.readElems, hy, Attempt.done_andThen, hf, Attempt.fault_andThen]⟩
      · exact ⟨f, by rw [State.readElems, hf, Attempt.fault_andThen]⟩

/-- In range, the fault of a run of reads is UninitRead (R50). -/
theorem State.readElems_uninit {s : State} {w : Width} {a n i : Nat} (hfit : a + n ≤ s.bufWords) (hi : i < n)
    (h : ∀ x, s.readElem w (a + i) ≠ .done x) : s.readElems w a n = .fault .uninitRead := by
  induction n generalizing a i with
  | zero => omega
  | succ n ih =>
    by_cases h0 : ∃ y, s.readElem w a = .done y
    · obtain ⟨y, hy⟩ := h0
      have hi0 : i ≠ 0 := by
        rintro rfl
        exact h y hy
      have := ih (a := a + 1) (i := i - 1) (by omega) (by omega) (by rwa [show a + 1 + (i - 1) = a + i by omega])
      rw [State.readElems, hy, Attempt.done_andThen, this, Attempt.fault_andThen]
    · push Not at h0
      rw [State.readElems, State.readElem_uninit (by omega) h0, Attempt.fault_andThen]

theorem Readable.congr {s : State} {w : Width} {a n : Nat} {x y : Nat → Int} (h : Readable s w a n x)
    (e : ∀ i < n, x i = y i) : Readable s w a n y := fun i hi => by rw [h i hi, e i hi]

/-! ### Writing -/

/-- The cells from a on each take the next word. -/
def Memory.writeCells : Memory → Nat → List Word → Memory
  | m, _, [] => m
  | m, a, v :: vs => (m.writeCell a v).writeCells (a + 1) vs

theorem Memory.readByte_writeCells (m : Memory) (a : Nat) (vs : List Word) (x : Nat)
    (hx : x < 8 * a ∨ 8 * (a + vs.length) ≤ x) : (m.writeCells a vs).readByte x = m.readByte x := by
  induction vs generalizing m a with
  | nil => rfl
  | cons v vs ih =>
    simp only [List.length_cons] at hx
    rw [Memory.writeCells, ih _ _ (by omega), Memory.readByte_writeCell _ _ _ _ (by omega)]

theorem Memory.readCell_writeCells_other (m : Memory) (a : Nat) (vs : List Word) (b : Nat)
    (hb : b < a ∨ a + vs.length ≤ b) : (m.writeCells a vs).readCell b = m.readCell b :=
  readCell_congr fun i hi => readByte_writeCells _ _ _ _ (by omega)

theorem Memory.readCell_writeCells (m : Memory) (a : Nat) (vs : List Word) (i : Nat) (hi : i < vs.length) :
    (m.writeCells a vs).readCell (a + i) = vs[i]? := by
  induction vs generalizing m a i with
  | nil => simp at hi
  | cons v vs ih =>
    rw [Memory.writeCells]
    cases i with
    | zero =>
      rw [Memory.readCell_writeCells_other _ _ _ _ (by omega), Memory.readCell_writeCell, if_pos (by omega)]
      rfl
    | succ i =>
      rw [show a + (i + 1) = a + 1 + i by omega, ih _ _ i (by simpa using hi)]
      rfl

theorem Memory.wf_writeCells {m : Memory} (hm : m.wf) (a : Nat) (vs : List Word) : (m.writeCells a vs).wf := by
  induction vs generalizing m a with
  | nil => exact hm
  | cons v vs ih => exact ih (wf_writeCell hm a v) (a + 1)

theorem Memory.below_writeCells {m : Memory} {n : Nat} (hm : m.below (8 * n)) (a : Nat) (vs : List Word)
    (h : Fits n a vs.length) : (m.writeCells a vs).below (8 * n) := by
  induction vs generalizing m a with
  | nil => exact hm
  | cons v vs ih =>
    simp only [Fits, List.length_cons, Nat.add_one_ne_zero, false_or] at h
    exact ih (below_writeCell hm (by omega) v) (a + 1) (.inr (by omega))

theorem Memory.halvesWhole_writeCells {m : Memory} (hm : m.halvesWhole) (a : Nat) (vs : List Word) :
    (m.writeCells a vs).halvesWhole := by
  induction vs generalizing m a with
  | nil => exact hm
  | cons v vs ih => exact ih (halvesWhole_writeCell hm a v) (a + 1)

theorem State.writeElems_eq (s : State) (w : Width) (a : Nat) (vs : List Int) (h : Fits s.bufWords a vs.length) :
    s.writeElems w a vs = .done { s with mem := s.mem.writeCells a (vs.map (wordOf w)) } := by
  induction vs generalizing s a with
  | nil => rfl
  | cons v vs ih =>
    simp only [Fits, List.length_cons, Nat.add_one_ne_zero, false_or] at h
    rw [State.writeElems, State.writeElem, State.memWrite, if_pos (by omega), Attempt.done_andThen,
      ih _ _ (.inr (by simp only; omega))]
    rfl

theorem State.writeElem_eq (s : State) (w : Width) (a : Nat) (v : Int) (h : a < s.bufWords) :
    s.writeElem w a v = .done { s with mem := s.mem.writeCell a (wordOf w v) } := by
  rw [State.writeElem, State.memWrite, if_pos h]

/-- A run of writes never raises an error. -/
theorem State.writeElems_not_error (s : State) (w : Width) (a : Nat) (vs : List Int) (x : CommandError) (u : State) :
    s.writeElems w a vs ≠ .error x u := by
  induction vs generalizing s a with
  | nil => exact fun h => by cases h
  | cons v vs ih =>
    rw [State.writeElems, State.writeElem, State.memWrite]
    split_ifs
    · exact ih _ _
    · exact fun h => by cases h

theorem stores_writeCells (m : Memory) (w : Width) (a n : Nat) (x : Nat → Int) :
    Stores (m.writeCells a (((List.range n).map x).map (wordOf w))) w a n x := fun i hi => by
  rw [Memory.readCell_writeCells _ _ _ _ (by simpa using hi)]
  simp [hi]

theorem Stores.congr {m : Memory} {w : Width} {a n : Nat} {x y : Nat → Int} (h : Stores m w a n x)
    (e : ∀ i < n, torus w (x i) = torus w (y i)) : Stores m w a n y := fun i hi => by
  rw [h i hi, wordOf_congr (e i hi)]

/-- Stored results can be read back as operands. -/
theorem Stores.readable {s : State} {w : Width} {a n : Nat} {x : Nat → Int} (h : Stores s.mem w a n x)
    (hfit : Fits s.bufWords a n) : Readable s w a n (fun i => torus w (x i)) := fun i hi =>
  State.readElem_of_cell (by rcases hfit with rfl | hf <;> omega) (h i hi)

theorem sameOutside_writeCells (m : Memory) (a : Nat) (vs : List Word) (n : Nat) (hn : vs.length = n) :
    SameOutside m (m.writeCells a vs) a n := by
  subst hn
  exact fun x hx => Memory.readByte_writeCells _ _ _ _ hx

/-- Operands outside the written cells read as before. -/
theorem Readable.of_sameOutside {s t : State} {w : Width} {a n c l : Nat} {x : Nat → Int} (h : Readable s w a n x)
    (hb : t.bufWords = s.bufWords) (hm : SameOutside s.mem t.mem c l) (hap : Apart c l a n) : Readable t w a n x := by
  intro i hi
  rw [State.readElem_congr hb fun j hj => hm _ ?_]
  · exact h i hi
  · rcases hap with h | h | h | h <;> omega

/-! ### Drawing -/

@[simp] theorem State.drawn_bufWords (s : State) (u n : Nat) : (s.drawn u n).bufWords = s.bufWords := rfl

@[simp] theorem State.drawn_mem (s : State) (u n : Nat) : (s.drawn u n).mem = s.mem := rfl

theorem State.drawn_zero (s : State) : s.drawn 0 0 = s := by simp [State.drawn]

theorem State.drawn_drawn (s : State) (u n u' n' : Nat) : (s.drawn u n).drawn u' n' = s.drawn (u + u') (n + n') := by
  simp only [State.drawn, List.drop_drop, State.mk.injEq, BitVec.ofNat_add, true_and, and_true]
  exact ⟨by rw [BitVec.add_assoc], by rw [BitVec.add_assoc], by congr 1; omega, by omega⟩

theorem State.answerAt_drawn (s : State) (u n k : Nat) (r : Request) :
    (s.drawn u n).answerAt k r = s.answerAt (u + n + k) r := by
  simp only [State.answerAt, State.drawn, List.getElem?_drop, Nat.add_assoc]

theorem State.draw_ok {s : State} {w : Width} {v : Word} (h : s.answerAt 0 (.uniform w) = .ok v) :
    s.draw (.uniform w) = .all [drawnElem (.uniform w) v] (s.drawn 1 0) := by
  simp only [State.draw, h]
  simp [State.countDraw, State.takeAnswer, State.drawn]

theorem State.draw_noise_ok {s : State} {w : Width} {D : Word} {k : NoiseKind} {v : Word}
    (h : s.answerAt 0 (.noise w D k) = .ok v) :
    s.draw (.noise w D k) = .all [drawnElem (.noise w D k) v] (s.drawn 0 1) := by
  simp only [State.draw, h]
  simp [State.countDraw, State.takeAnswer, State.drawn]

theorem State.draw_fail {s : State} {r : Request} (h : s.answerAt 0 r = .fail) : s.draw r = .failed s.takeAnswer := by
  simp only [State.draw, h]

/-- The state after n delivered draws of one kind. -/
def State.drawnFor (s : State) (r : Request) (n : Nat) : State :=
  match r with
  | .uniform _ => s.drawn n 0
  | .noise _ _ _ => s.drawn 0 n

theorem State.drawnFor_answerAt (s : State) (r : Request) (n k : Nat) (q : Request) :
    (s.drawnFor r n).answerAt k q = s.answerAt (n + k) q := by
  cases r <;> simp [State.drawnFor, State.answerAt_drawn]

theorem State.drawnFor_drawnFor (s : State) (r : Request) (m n : Nat) :
    (s.drawnFor r m).drawnFor r n = s.drawnFor r (m + n) := by
  cases r <;> simp [State.drawnFor, State.drawn_drawn]

theorem State.draw_delivered {s : State} {r : Request} {v : Word} (h : s.answerAt 0 r = .ok v) :
    s.draw r = .all [drawnElem r v] (s.drawnFor r 1) := by
  cases r with
  | uniform w => exact State.draw_ok h
  | noise w D k => exact State.draw_noise_ok h

/-- Draws that are all delivered (40_common.md R87, R88, R89). -/
theorem State.drawMany_delivers {s : State} {r : Request} {n : Nat} {v : Nat → Word} (h : Delivers s 0 r n v) :
    s.drawMany r n = .all ((List.range n).map fun i => drawnElem r (v i)) (s.drawnFor r n) := by
  induction n generalizing s v with
  | zero => cases r <;> simp [State.drawMany, State.drawnFor, State.drawn_zero]
  | succ n ih =>
    have h0 := h 0 (by omega)
    have h1 : Delivers (s.drawnFor r 1) 0 r n (fun i => v (i + 1)) := fun i hi => by
      have := h (i + 1) (by omega)
      rw [State.drawnFor_answerAt]
      rwa [show 0 + (i + 1) = 1 + (0 + i) by omega] at this
    simp only [State.drawMany, State.draw_delivered h0, ih h1, State.drawnFor_drawnFor]
    rw [List.range_succ_eq_map, Nat.add_comm 1 n]
    simp [Function.comp_def]

/-- Draws of which number j is the first to fail (R90). -/
theorem State.drawMany_fails {s : State} {r : Request} {n j : Nat} {v : Nat → Word} (hj : j < n)
    (h : Delivers s 0 r j v) (hf : s.answerAt j r = .fail) :
    s.drawMany r n = .failed (s.drawnFor r j).takeAnswer := by
  induction n generalizing s v j with
  | zero => omega
  | succ n ih =>
    cases j with
    | zero =>
      simp only [State.drawMany, State.draw_fail hf]
      cases r <;> simp [State.drawnFor, State.drawn_zero]
    | succ j =>
      have h0 := h 0 (by omega)
      have h1 : Delivers (s.drawnFor r 1) 0 r j (fun i => v (i + 1)) := fun i hi => by
        have := h (i + 1) (by omega)
        rw [State.drawnFor_answerAt]
        rwa [show 0 + (i + 1) = 1 + (0 + i) by omega] at this
      have hf' : (s.drawnFor r 1).answerAt j r = .fail := by
        rw [State.drawnFor_answerAt, show 1 + j = j + 1 by omega]
        exact hf
      simp only [State.drawMany, State.draw_delivered h0, ih (by omega) h1 hf', State.drawnFor_drawnFor]
      rw [Nat.add_comm 1 j]

/-- A run of draws is all delivered, or one of them is the first to fail. -/
theorem State.drawMany_total (s : State) (r : Request) (n : Nat) :
    (∃ v, Delivers s 0 r n v) ∨ ∃ j v, j < n ∧ Delivers s 0 r j v ∧ s.answerAt j r = .fail := by
  induction n with
  | zero => exact .inl ⟨fun _ => 0, fun i hi => by omega⟩
  | succ n ih =>
    rcases ih with ⟨v, hv⟩ | ⟨j, v, hj, hv, hf⟩
    · cases ha : s.answerAt n r with
      | fail => exact .inr ⟨n, v, by omega, hv, ha⟩
      | ok x =>
        refine .inl ⟨fun i => if i = n then x else v i, fun i hi => ?_⟩
        by_cases hin : i = n
        · subst hin; simp [ha]
        · simp only [hin, if_false]
          exact hv i (by omega)
    · exact .inr ⟨j, v, by omega, hv, hf⟩

/-! ### Filling with unspecified words -/

theorem State.fillCells_eq (s : State) (a n : Nat) :
    s.fillCells a n =
      { s with
        mem := s.mem.writeCells a ((List.range n).map fun i => Config.unspecifiedWord (s.freeIndex + i))
        freeIndex := s.freeIndex + n } := by
  induction n generalizing s a with
  | zero => rfl
  | succ n ih =>
    rw [State.fillCells, ih, List.range_succ_eq_map]
    simp only [State.fillCell, List.map_cons, List.map_map, Function.comp_def, Memory.writeCells, Nat.add_zero,
      State.mk.injEq, true_and, and_true, Nat.succ_eq_add_one]
    refine ⟨?_, by omega⟩
    congr 2
    funext i
    congr 1
    omega

/-- After a failed draw each cell of the unfinished region holds some word (40_common.md R90). -/
theorem State.fillCells_valued (s : State) (a n i : Nat) (hi : i < n) :
    ∃ v, (s.fillCells a n).mem.readCell (a + i) = some v := by
  rw [State.fillCells_eq]
  refine ⟨Config.unspecifiedWord (s.freeIndex + i), ?_⟩
  change (s.mem.writeCells _ _).readCell _ = _
  rw [Memory.readCell_writeCells _ _ _ _ (by simpa using hi)]
  simp [hi]

/-! ### Sampling into a region -/

/-- Every draw delivered: the mask cells hold the uniform draws and the body cells what is computed of them. -/
theorem State.sampleInto_delivers {s : State} {w : Width} {d : Descriptors} {c m b : Nat}
    {body : List Int → List Int → List Int} {u e : Nat → Word} {y : Nat → Int} (hu : Delivers s 0 (.uniform w) m u)
    (he : Delivers s m (noiseRequest w d) b e) (hfit : Fits s.bufWords c (m + b))
    (hbody : body ((List.range m).map fun i => elemOf w (u i)) ((List.range b).map fun i => noiseOf w d (e i))
      = (List.range b).map y) :
    s.sampleInto w d c m b body =
      .done { s.drawn m b with
        mem := s.mem.writeCells c
          ((((List.range m).map fun i => elemOf w (u i)) ++ (List.range b).map y).map (wordOf w)) } := by
  have he' : Delivers (s.drawn m 0) 0 (noiseRequest w d) b e := fun i hi => by
    rw [State.answerAt_drawn, show m + 0 + (0 + i) = m + i by omega]
    exact he i hi
  have h1 := State.drawMany_delivers hu
  have h2 := State.drawMany_delivers he'
  simp only [State.drawnFor, State.drawn_drawn, Nat.add_zero, Nat.zero_add] at h1 h2
  simp only [State.sampleInto, h1, h2]
  have h3 : (fun i => drawnElem (.noise w d.disp d.noiseKind) (e i)) = fun i => noiseOf w d (e i) := rfl
  have h4 : (fun i => drawnElem (.uniform w) (u i)) = fun i => elemOf w (u i) := rfl
  rw [h3, h4, hbody, State.writeElems_eq _ _ _ _ (by simpa using hfit)]
  rfl

/-- A uniform draw fails: source 1 (R87, R90). -/
theorem State.sampleInto_uniform_fails {s : State} {w : Width} {d : Descriptors} {c m b j : Nat}
    {body : List Int → List Int → List Int} {u : Nat → Word} (hj : j < m) (hu : Delivers s 0 (.uniform w) j u)
    (hf : s.answerAt j (.uniform w) = .fail) :
    s.sampleInto w d c m b body =
      .error ⟨.engineFailure, 1, 0⟩ ((s.drawn j 0).takeAnswer.fillCells c (m + b)) := by
  simp only [State.sampleInto, State.drawMany_fails hj hu hf]
  rfl

/-- A noise draw fails: source 2 (R88, R90). -/
theorem State.sampleInto_noise_fails {s : State} {w : Width} {d : Descriptors} {c m b j : Nat}
    {body : List Int → List Int → List Int} {u e : Nat → Word} (hu : Delivers s 0 (.uniform w) m u) (hj : j < b)
    (he : Delivers s m (noiseRequest w d) j e) (hf : s.answerAt (m + j) (noiseRequest w d) = .fail) :
    s.sampleInto w d c m b body =
      .error ⟨.engineFailure, 2, 0⟩ ((s.drawn m j).takeAnswer.fillCells c (m + b)) := by
  have he' : Delivers (s.drawn m 0) 0 (noiseRequest w d) j e := fun i hi => by
    rw [State.answerAt_drawn, show m + 0 + (0 + i) = m + i by omega]
    exact he i hi
  have hf' : (s.drawn m 0).answerAt j (noiseRequest w d) = .fail := by
    rw [State.answerAt_drawn]
    exact hf
  have h1 := State.drawMany_delivers hu
  have h2 := State.drawMany_fails hj he' hf'
  simp only [State.drawnFor, State.drawn_drawn, Nat.add_zero, Nat.zero_add] at h1 h2
  simp only [State.sampleInto, h1, h2]
  rfl

end Sys2Proof.Machine
end

