-- ==== Sys2Proof/Laws/Commands.lean ====
section
/-! SUPPORT. Sys2Proof/Laws/Commands.lean: what a command can do, once. `Touched` is what a stretch of pseudocode may change;
`exec_next` lists every way `exec` can answer a next state, and invariants and frames are derived from it. -/

namespace Sys2Proof.Machine

open Sys2Proof

/-- `u` differs from `s` only in cells `c` to `c + l - 1`, in UCOUNT where `uniform`, in NCOUNT where `noise`, in the entropy source's
position and in how many unspecified words have been taken; BUF stays in its form. -/
structure Touched (s u : State) (c l : Nat) (uniform noise : Bool) : Prop where
  rest : u = { s with
    mem := u.mem, ucount := u.ucount, ncount := u.ncount, entropy := u.entropy, drawIndex := u.drawIndex,
    freeIndex := u.freeIndex }
  ucount : uniform = false → u.ucount = s.ucount
  ncount : noise = false → u.ncount = s.ncount
  outside : SameOutside s.mem u.mem c l
  wf : s.mem.wf → u.mem.wf
  below : s.mem.below (8 * s.bufWords) → u.mem.below (8 * s.bufWords)
  whole : s.mem.halvesWhole → u.mem.halvesWhole

theorem Touched.refl (s : State) (c l : Nat) (uniform noise : Bool) : Touched s s c l uniform noise where
  rest := rfl
  ucount := fun _ => rfl
  ncount := fun _ => rfl
  outside := fun _ _ => rfl
  wf := id
  below := id
  whole := id

theorem Touched.bufWords {s u : State} {c l : Nat} {p q : Bool} (h : Touched s u c l p q) : u.bufWords = s.bufWords := by
  rw [h.rest]

theorem Touched.trans {s t u : State} {c l : Nat} {p q : Bool} (h1 : Touched s t c l p q) (h2 : Touched t u c l p q) :
    Touched s u c l p q where
  rest := by
    rw [h2.rest]
    conv_lhs => rw [h1.rest]
  ucount := fun h => (h2.ucount h).trans (h1.ucount h)
  ncount := fun h => (h2.ncount h).trans (h1.ncount h)
  outside := fun a ha => (h2.outside a ha).trans (h1.outside a ha)
  wf := fun h => h2.wf (h1.wf h)
  below := fun h => by
    have := h2.below
    rw [h1.bufWords] at this
    exact this (h1.below h)
  whole := fun h => h2.whole (h1.whole h)

/-- A change within a region is a change within any region around it. -/
theorem Touched.mono {s u : State} {c l c' l' : Nat} {p q : Bool} (h : Touched s u c l p q) (h1 : c' ≤ c)
    (h2 : c + l ≤ c' + l') : Touched s u c' l' p q where
  rest := h.rest
  ucount := h.ucount
  ncount := h.ncount
  outside := fun a ha => h.outside a (by omega)
  wf := h.wf
  below := h.below
  whole := h.whole

theorem touched_drawn (s : State) (u n c l : Nat) {p q : Bool} (hp : p = false → u = 0) (hq : q = false → n = 0) :
    Touched s (s.drawn u n) c l p q where
  rest := rfl
  ucount := fun h => by simp [State.drawn, hp h]
  ncount := fun h => by simp [State.drawn, hq h]
  outside := fun _ _ => rfl
  wf := id
  below := id
  whole := id

theorem touched_takeAnswer (s : State) (c l : Nat) (p q : Bool) : Touched s s.takeAnswer c l p q where
  rest := rfl
  ucount := fun _ => rfl
  ncount := fun _ => rfl
  outside := fun _ _ => rfl
  wf := id
  below := id
  whole := id

theorem touched_writeCells (s : State) (c : Nat) (vs : List Word) {n : Nat} {p q : Bool} (hn : vs.length = n)
    (h : Fits s.bufWords c n) : Touched s { s with mem := s.mem.writeCells c vs } c n p q where
  rest := rfl
  ucount := fun _ => rfl
  ncount := fun _ => rfl
  outside := sameOutside_writeCells _ _ _ _ hn
  wf := fun hm => Memory.wf_writeCells hm _ _
  below := fun hm => Memory.below_writeCells hm _ _ (hn ▸ h)
  whole := fun hm => Memory.halvesWhole_writeCells hm _ _

theorem touched_fillCells (s : State) (c n : Nat) {p q : Bool} (h : Fits s.bufWords c n) :
    Touched s (s.fillCells c n) c n p q := by
  rw [State.fillCells_eq]
  have t := touched_writeCells s c ((List.range n).map fun i => Config.unspecifiedWord (s.freeIndex + i))
    (p := p) (q := q) (by simp) h
  exact ⟨rfl, fun _ => rfl, fun _ => rfl, t.outside, t.wf, t.below, t.whole⟩

/-- What sampling into a region can do: it writes the region, or a draw fails and leaves the region valued. -/
theorem sampleInto_result {s : State} {w : Width} {d : Descriptors} {c m b : Nat} {body : List Int → List Int → List Int}
    {p q : Bool} (hfit : Fits s.bufWords c (m + b)) (hbody : ∀ x y, (body x y).length = y.length ∨ (body x y).length = b)
    (hp : p = false → m = 0) (hq : q = false → b = 0) :
    (∃ u, s.sampleInto w d c m b body = .done u ∧ Touched s u c (m + b) p q) ∨
      ∃ x u, s.sampleInto w d c m b body = .error ⟨.engineFailure, x, 0⟩ u ∧ Touched s u c (m + b) p q := by
  rcases s.drawMany_total (.uniform w) m with ⟨u, hu⟩ | ⟨j, u, hj, hu, hf⟩
  · rcases (s.drawn m 0).drawMany_total (noiseRequest w d) b with ⟨e, he⟩ | ⟨j, e, hj, he, hf⟩
    · have he' : Delivers s m (noiseRequest w d) b e := fun i hi => by
        have := he i hi
        rwa [State.answerAt_drawn, show m + 0 + (0 + i) = m + i by omega] at this
      have hlen : (body ((List.range m).map fun i => elemOf w (u i)) ((List.range b).map fun i => noiseOf w d (e i))).length
          = b := by
        rcases hbody ((List.range m).map fun i => elemOf w (u i)) ((List.range b).map fun i => noiseOf w d (e i)) with h | h
        · simpa using h
        · exact h
      generalize hy : body ((List.range m).map fun i => elemOf w (u i)) ((List.range b).map fun i => noiseOf w d (e i)) = ys
        at hlen
      have hys : ys = (List.range b).map fun i => elemAt ys i := by
        subst hlen
        apply List.ext_getElem (by simp)
        intro i h1 h2
        simp [elemAt, h1]
      refine .inl ⟨_, State.sampleInto_delivers hu he' hfit (hy.trans hys), ?_⟩
      exact (touched_drawn s m b c (m + b) hp hq).trans
        (touched_writeCells (s.drawn m b) c _ (by simp) (by simpa using hfit))
    · have he' : Delivers s m (noiseRequest w d) j e := fun i hi => by
        have := he i hi
        rwa [State.answerAt_drawn, show m + 0 + (0 + i) = m + i by omega] at this
      rw [State.answerAt_drawn] at hf
      refine .inr ⟨2, _, State.sampleInto_noise_fails hu hj he' hf, ?_⟩
      exact ((touched_drawn s m j c (m + b) hp fun h => by have := hq h; omega).trans
        (touched_takeAnswer _ c (m + b) p q)).trans
        (touched_fillCells _ c (m + b) (by simpa using hfit))
  · refine .inr ⟨1, _, State.sampleInto_uniform_fails hj hu hf, ?_⟩
    exact ((touched_drawn s j 0 c (m + b) (fun h => by have := hp h; omega) fun _ => rfl).trans
      (touched_takeAnswer _ c (m + b) p q)).trans
      (touched_fillCells _ c (m + b) (by simpa using hfit))

/-- How a stretch of pseudocode that writes one region may end: in a state that differs from `s` as `Touched` says, with a failed
draw in such a state, or with a fault. -/
def Attempt.Within (s : State) (c l : Nat) (uniform noise : Bool) (t : Attempt State) : Prop :=
  (∃ u, t = .done u ∧ Touched s u c l uniform noise) ∨
    (∃ x u, t = .error ⟨.engineFailure, x, 0⟩ u ∧ Touched s u c l uniform noise) ∨ ∃ f, t = .fault f

theorem within_sampleInto {s : State} {w : Width} {d : Descriptors} {c m b : Nat} {body : List Int → List Int → List Int}
    {p q : Bool} (hfit : Fits s.bufWords c (m + b)) (hbody : ∀ x y, (body x y).length = y.length ∨ (body x y).length = b)
    (hp : p = false → m = 0) (hq : q = false → b = 0) : (s.sampleInto w d c m b body).Within s c (m + b) p q := by
  rcases sampleInto_result (w := w) (d := d) hfit hbody hp hq with h | h
  · exact .inl h
  · exact .inr (.inl h)

theorem within_writeElems {s : State} {w : Width} {c : Nat} {vs : List Int} {n : Nat} {p q : Bool} (hn : vs.length = n)
    (hfit : Fits s.bufWords c n) : (s.writeElems w c vs).Within s c n p q := by
  subst hn
  rw [State.writeElems_eq _ _ _ _ hfit]
  exact .inl ⟨_, rfl, touched_writeCells s c _ (by simp) hfit⟩

/-- A read before the rest: the rest's result, or a fault. -/
theorem within_readElem {s : State} {w : Width} {a c l : Nat} {p q : Bool} {k : Int → Attempt State}
    (h : ∀ x, (k x).Within s c l p q) : ((s.readElem w a).andThen k).Within s c l p q := by
  rcases s.readElem_total w a with ⟨x, hx⟩ | ⟨f, hf⟩
  · rw [hx, Attempt.done_andThen]; exact h x
  · rw [hf, Attempt.fault_andThen]; exact .inr (.inr ⟨f, rfl⟩)

/-- Reads before the rest: the rest's result on as many elements, or a fault. -/
theorem within_readElems {s : State} {w : Width} {a n c l : Nat} {p q : Bool} {k : List Int → Attempt State}
    (h : ∀ xs, xs.length = n → (k xs).Within s c l p q) : ((s.readElems w a n).andThen k).Within s c l p q := by
  rcases s.readElems_total w a n with ⟨x, -, hx⟩ | ⟨f, hf⟩
  · rw [hx, Attempt.done_andThen]; exact h _ (by simp)
  · rw [hf, Attempt.fault_andThen]; exact .inr (.inr ⟨f, rfl⟩)

theorem length_lweBody (w : Width) (n : Nat) (key : List Int) (p : Int) (x y : List Int) :
    (lweBody w n key p x y).length = y.length := by simp [lweBody]

theorem length_glweBody (w : Width) (k n : Nat) (key pt x y : List Int) : (glweBody w k n key pt x y).length = n := by
  simp [glweBody]

theorem within_encryptLwe {s : State} {w : Width} {d : Descriptors} (key : List Int) (p : Int) {c : Nat}
    (hfit : Fits s.bufWords c (d.keyDim.toNat + 1)) : (s.encryptLwe w d key p c).Within s c (d.keyDim.toNat + 1) true true :=
  within_sampleInto hfit (fun _ _ => .inl (length_lweBody ..)) nofun nofun

theorem within_encryptGlwe {s : State} {w : Width} {d : Descriptors} (key pt : List Int)
    (hfit : Fits s.bufWords d.ctBase.toNat ((d.keyDim.toNat + 1) * d.keyPoly.toNat)) :
    (s.encryptGlwe w d key pt).Within s d.ctBase.toNat ((d.keyDim.toNat + 1) * d.keyPoly.toNat) true true := by
  rw [Nat.add_mul, Nat.one_mul] at hfit ⊢
  exact within_sampleInto hfit (fun _ _ => .inr (length_glweBody ..)) nofun nofun

theorem within_encLwe {s : State} {w : Width} {d : Descriptors} (hfit : Fits s.bufWords d.ctBase.toNat (d.keyDim.toNat + 1)) :
    (s.encLwe w d).Within s d.ctBase.toNat (d.keyDim.toNat + 1) true true :=
  within_readElems fun key _ => within_readElem fun p => within_encryptLwe key p hfit

theorem within_encGlwe {s : State} {w : Width} {d : Descriptors}
    (hfit : Fits s.bufWords d.ctBase.toNat ((d.keyDim.toNat + 1) * d.keyPoly.toNat)) :
    (s.encGlwe w d).Within s d.ctBase.toNat ((d.keyDim.toNat + 1) * d.keyPoly.toNat) true true :=
  within_readElems fun key _ => within_readElems fun pt _ => within_encryptGlwe key pt hfit

theorem within_trivialLwe {s : State} {w : Width} {d : Descriptors} {p q : Bool} (h1 : 1 ≤ d.ctSize.toNat)
    (hfit : Fits s.bufWords d.ctBase.toNat d.ctSize.toNat) :
    (s.trivialLwe w d).Within s d.ctBase.toNat d.ctSize.toNat p q :=
  within_readElem fun _ => within_writeElems (by simp; omega) hfit

theorem within_trivialGlwe {s : State} {w : Width} {d : Descriptors} {p q : Bool} (h1 : 1 ≤ d.ctSize.toNat)
    (hfit : Fits s.bufWords d.ctBase.toNat (d.ctSize.toNat * d.ctPoly.toNat)) :
    (s.trivialGlwe w d).Within s d.ctBase.toNat (d.ctSize.toNat * d.ctPoly.toNat) p q :=
  within_readElems fun pt hpt => within_writeElems (by
    simp only [List.length_append, List.length_replicate, hpt]
    obtain ⟨g, hg⟩ := Nat.exists_eq_add_of_le h1
    rw [hg, Nat.add_sub_cancel_left, Nat.add_mul]
    omega) hfit

/-- One element after the other, each within its own ciphertext. -/
theorem within_encryptEach {s : State} {w : Width} {d : Descriptors} (key ps : List Int) {c : Nat}
    (hs : d.ctSize.toNat = d.keyDim.toNat + 1) (hfit : Fits s.bufWords c (ps.length * d.ctSize.toNat)) :
    (s.encryptEach w d key c ps).Within s c (ps.length * d.ctSize.toNat) true true := by
  induction ps generalizing s c with
  | nil => exact .inl ⟨s, rfl, Touched.refl s _ _ _ _⟩
  | cons p ps ih =>
    have hlen : (p :: ps).length * d.ctSize.toNat = d.ctSize.toNat + ps.length * d.ctSize.toNat := by
      rw [List.length_cons]; ring
    rw [hlen] at hfit ⊢
    have hf1 : Fits s.bufWords c (d.keyDim.toNat + 1) := by rcases hfit with h | h <;> [skip; right] <;> omega
    rw [State.encryptEach]
    rcases within_encryptLwe (w := w) key p hf1 with ⟨u, hu, ht⟩ | ⟨x, u, hu, ht⟩ | ⟨f, hf⟩
    · rw [hu, Attempt.done_andThen]
      have ht' := ht.mono (c' := c) (l' := d.ctSize.toNat + ps.length * d.ctSize.toNat) (by omega) (by omega)
      have hf2 : Fits u.bufWords (c + d.ctSize.toNat) (ps.length * d.ctSize.toNat) := by
        rw [ht.bufWords]; rcases hfit with h | h <;> [left; right] <;> omega
      rcases ih hf2 with ⟨v, hv, hw⟩ | ⟨x, v, hv, hw⟩ | ⟨f, hf⟩
      · exact .inl ⟨v, hv, ht'.trans (hw.mono (by omega) (by omega))⟩
      · exact .inr (.inl ⟨x, v, hv, ht'.trans (hw.mono (by omega) (by omega))⟩)
      · exact .inr (.inr ⟨f, hf⟩)
    · rw [hu, Attempt.error_andThen]
      exact .inr (.inl ⟨x, u, rfl, ht.mono (by omega) (by omega)⟩)
    · rw [hf, Attempt.fault_andThen]
      exact .inr (.inr ⟨f, rfl⟩)

/-! ### Every way a command answers a next state -/

/-- The commands that write ACC (10_state.md R25). -/
def writesAcc : Instr → Bool
  | .dot _ _ => true
  | .dota _ _ => true
  | .dots _ _ => true
  | .accld _ _ => true
  | .accadd _ _ => true
  | _ => false

/-- What the pseudocode of command `i` may have changed when it ends, in state `u`, with or without a failed draw. -/
structure Changed (i : Instr) (s u : State) : Prop where
  rest : u = { s with
    acc := u.acc, desc := u.desc, mem := u.mem, ucount := u.ucount, ncount := u.ncount, entropy := u.entropy,
    drawIndex := u.drawIndex, freeIndex := u.freeIndex }
  acc : writesAcc i = false → u.acc = s.acc
  desc : u.desc = s.desc ∨
    ((∃ e w, i = .aencLwe e w) ∧
      u.desc = { s.desc with ctSize := BitVec.ofNat 64 (s.latch.desc.keyDim.toNat + 1) }) ∨
    ((∃ e w, i = .aencGlwe e w) ∧
      u.desc = { s.desc with
        ctSize := BitVec.ofNat 64 (s.latch.desc.keyDim.toNat + 1), ctPoly := s.latch.desc.keyPoly })
  ucount : drawsUniform i = false → u.ucount = s.ucount
  ncount : drawsNoise i = false → u.ncount = s.ncount
  outside : SameOutsideAll s.mem u.mem (writtenRegions s.latch.desc i)
  wf : s.mem.wf → u.mem.wf
  below : s.mem.below (8 * s.bufWords) → u.mem.below (8 * s.bufWords)
  whole : s.mem.halvesWhole → u.mem.halvesWhole

theorem Touched.changed {i : Instr} {s u : State} {r : Region}
    (h : Touched s u r.base r.len (drawsUniform i) (drawsNoise i)) (hr : r ∈ writtenRegions s.latch.desc i) : Changed i s u where
  rest := by
    conv_lhs => rw [h.rest]
    rw [h.rest]
  acc := fun _ => by rw [h.rest]
  desc := .inl (by rw [h.rest])
  ucount := h.ucount
  ncount := h.ncount
  outside := fun a ha => h.outside a (ha r hr)
  wf := h.wf
  below := h.below
  whole := h.whole

/-- The pseudocode changed nothing. -/
theorem Changed.refl (i : Instr) (s : State) : Changed i s s :=
  ⟨rfl, fun _ => rfl, .inl rfl, fun _ => rfl, fun _ => rfl, fun _ _ => rfl, id, id, id⟩

theorem changed_writeAcc (i : Instr) (s : State) (w : Width) (v : Int) (hi : writesAcc i = true) :
    Changed i s (s.writeAcc w v) :=
  ⟨rfl, fun h => by simp [hi] at h, .inl rfl, fun _ => rfl, fun _ => rfl, fun _ _ => rfl, id, id, id⟩

/-- How a command's pseudocode may end, all its predicates holding. -/
def Ends (i : Instr) (s : State) (t : Attempt State) : Prop :=
  (∃ u, t = .done u ∧ Changed i s u) ∨ (∃ x u, t = .error ⟨.engineFailure, x, 0⟩ u ∧ Changed i s u) ∨ ∃ f, t = .fault f

theorem Attempt.Within.ends {i : Instr} {s : State} {r : Region} {t : Attempt State}
    (h : t.Within s r.base r.len (drawsUniform i) (drawsNoise i)) (hr : r ∈ writtenRegions s.latch.desc i) : Ends i s t := by
  rcases h with ⟨u, hu, ht⟩ | ⟨x, u, hu, ht⟩ | h
  · exact .inl ⟨u, hu, ht.changed hr⟩
  · exact .inr (.inl ⟨x, u, hu, ht.changed hr⟩)
  · exact .inr (.inr h)

theorem ends_innerProduct {i : Instr} {s : State} {w : Width} {d : Descriptors} {f : Int → Int} (hi : writesAcc i = true) :
    Ends i s ((s.innerProduct w d).andThen fun x => .done (s.writeAcc w (f x))) := by
  unfold State.innerProduct
  rcases s.readElems_total w d.srcA.toNat d.len.toNat with ⟨a, -, ha⟩ | ⟨g, hg⟩
  · rcases s.readElems_total w d.srcB.toNat d.len.toNat with ⟨b, -, hb⟩ | ⟨g, hg⟩
    · simp only [ha, hb, Attempt.done_andThen]
      exact .inl ⟨_, rfl, changed_writeAcc i s w _ hi⟩
    · simp only [ha, hg, Attempt.done_andThen, Attempt.fault_andThen]
      exact .inr (.inr ⟨g, rfl⟩)
  · simp only [hg, Attempt.fault_andThen]
    exact .inr (.inr ⟨g, rfl⟩)

theorem ends_readElem {i : Instr} {s : State} {w : Width} {a : Nat} {f : Int → Int} (hi : writesAcc i = true) :
    Ends i s ((s.readElem w a).andThen fun x => .done (s.writeAcc w (f x))) := by
  rcases s.readElem_total w a with ⟨x, hx⟩ | ⟨g, hg⟩
  · rw [hx, Attempt.done_andThen]
    exact .inl ⟨_, rfl, changed_writeAcc i s w _ hi⟩
  · rw [hg, Attempt.fault_andThen]
    exact .inr (.inr ⟨g, rfl⟩)

/-- Every way `exec` answers a next state: a checked command reports its first false predicate and changes nothing else; or, all
predicates holding, the pseudocode ran to its end or to a failed draw. -/
theorem exec_next {i : Instr} {s t : State} (h : exec i s = .next t) :
    (∃ x, firstFailure (validation s.bufWords s.latch.desc i) = some x ∧ t = s.raiseError x) ∨
      (firstFailure (validation s.bufWords s.latch.desc i) = none ∧
        ∃ u, Changed i s u ∧ (t = u.complete ∨ ∃ x, t = u.raiseError ⟨.engineFailure, x, 0⟩)) := by
  have key : ∀ {e : Entry} {body : Attempt State},
      (firstFailure (validation s.bufWords s.latch.desc i) = none → Ends i s body) →
      s.enter e (validation s.bufWords s.latch.desc i) body = .next t →
      (∃ x, firstFailure (validation s.bufWords s.latch.desc i) = some x ∧ t = s.raiseError x) ∨
        (firstFailure (validation s.bufWords s.latch.desc i) = none ∧
          ∃ u, Changed i s u ∧ (t = u.complete ∨ ∃ x, t = u.raiseError ⟨.engineFailure, x, 0⟩)) := by
    intro e body hb he
    rcases State.enter_next he with ⟨x, hx, -, ht⟩ | ⟨hn, u, hu, ht⟩ | ⟨hn, x, u, hu, ht⟩
    · exact .inl ⟨x, hx, ht⟩
    · rcases hb hn with ⟨v, hv, hc⟩ | ⟨y, v, hv, hc⟩ | ⟨f, hf⟩
      · rw [hu] at hv; injection hv with hv; subst hv
        exact .inr ⟨hn, u, hc, .inl ht⟩
      · rw [hu] at hv; cases hv
      · rw [hu] at hf; cases hf
    · rcases hb hn with ⟨v, hv, hc⟩ | ⟨y, v, hv, hc⟩ | ⟨f, hf⟩
      · rw [hu] at hv; cases hv
      · rw [hu] at hv; injection hv with hx hv; subst hx hv
        exact .inr ⟨hn, u, hc, .inr ⟨y, ht⟩⟩
      · rw [hu] at hf; cases hf
  cases i with
  | nop e w => exact key (e := e) (body := .done s) (fun _ => .inl ⟨s, rfl, Changed.refl _ s⟩) h
  | ufill e w =>
    refine key (fun hn => ?_) h
    have hv := firstFailure_eq_none.1 hn
    simp only [validation, addressChecks_pass, List.mem_singleton, forall_eq] at hv
    exact (within_sampleInto (b := 0) (p := true) (q := false) hv (fun _ _ => .inr rfl) nofun fun _ => rfl).ends (r := dstRegion s.latch.desc) (by simp [writtenRegions])
  | nfill e w =>
    refine key (fun hn => ?_) h
    have hv := firstFailure_eq_none.1 hn
    simp only [validation, addressChecks_pass, List.mem_singleton, forall_eq] at hv
    have hw := within_sampleInto (s := s) (w := w) (d := s.latch.desc) (c := s.latch.desc.dst.toNat) (m := 0)
      (b := s.latch.desc.len.toNat) (body := fun _ noise => noise) (p := false) (q := true)
      (by rw [Nat.zero_add]; exact hv) (fun _ _ => .inl rfl) (fun _ => rfl) nofun
    rw [Nat.zero_add] at hw
    exact hw.ends (r := dstRegion s.latch.desc) (by simp [writtenRegions])
  | dot e w => exact key (fun _ => ends_innerProduct (f := fun x => x) rfl) h
  | dota e w => exact key (fun _ => ends_innerProduct (f := fun x => s.readAcc w + x) rfl) h
  | dots e w => exact key (fun _ => ends_innerProduct (f := fun x => s.readAcc w - x) rfl) h
  | accld e w => exact key (fun _ => ends_readElem (f := fun x => x) rfl) h
  | accadd e w => exact key (fun _ => ends_readElem (f := fun x => s.readAcc w + x) rfl) h
  | accst e w =>
    refine key (fun hn => ?_) h
    have hv := firstFailure_eq_none.1 hn
    simp only [validation, addressChecks_pass, List.mem_singleton, forall_eq] at hv
    have hw := within_writeElems (w := w) (vs := [s.readAcc w]) (p := false) (q := false) rfl hv
    have he : s.writeElems w s.latch.desc.dst.toNat [s.readAcc w] = s.writeElem w s.latch.desc.dst.toNat (s.readAcc w) := by
      rw [State.writeElems]
      cases s.writeElem w s.latch.desc.dst.toNat (s.readAcc w) <;> rfl
    rw [show (dstCell s.latch.desc).base = s.latch.desc.dst.toNat from rfl, he] at hw
    exact hw.ends (r := dstCell s.latch.desc) (by simp [writtenRegions])
  | encLwe e w =>
    refine key (fun hn => ?_) h
    have hv := firstFailure_eq_none.1 hn
    simp only [validation, List.forall_mem_append, addressChecks_pass] at hv
    exact (within_encLwe (hv.1.2 (ctLwe s.latch.desc) (by simp))).ends (r := ctLwe s.latch.desc) (by simp [writtenRegions])
  | encGlwe e w =>
    refine key (fun hn => ?_) h
    have hv := firstFailure_eq_none.1 hn
    simp only [validation, List.forall_mem_append, addressChecks_pass] at hv
    exact (within_encGlwe (hv.1.2 (ctGlwe s.latch.desc) (by simp))).ends (r := ctGlwe s.latch.desc) (by simp [writtenRegions])
  | aencLwe e w =>
    refine key (fun hn => ?_) h
    have hv := firstFailure_eq_none.1 hn
    simp only [validation, List.forall_mem_append, addressChecks_pass] at hv
    rcases within_encLwe (w := w) (hv.1 (ctLwe s.latch.desc) (by simp)) with ⟨u, hu, ht⟩ | ⟨x, u, hu, ht⟩ | ⟨f, hf⟩
    · have hc := ht.changed (i := .aencLwe e w) (r := ctLwe s.latch.desc) (by simp [writtenRegions])
      refine .inl ⟨u.reportSizeLwe s.latch.desc, by rw [hu, Attempt.done_andThen], ?_⟩
      exact ⟨by rw [State.reportSizeLwe]; conv_lhs => rw [hc.rest], hc.acc,
        .inr (.inl ⟨⟨e, w, rfl⟩, by rw [State.reportSizeLwe_desc, ht.rest]⟩), hc.ucount, hc.ncount, hc.outside, hc.wf, hc.below, hc.whole⟩
    · exact .inr (.inl ⟨x, u, by rw [hu, Attempt.error_andThen],
        ht.changed (r := ctLwe s.latch.desc) (by simp [writtenRegions])⟩)
    · exact .inr (.inr ⟨f, by rw [hf, Attempt.fault_andThen]⟩)
  | aencGlwe e w =>
    refine key (fun hn => ?_) h
    have hv := firstFailure_eq_none.1 hn
    simp only [validation, List.forall_mem_append, addressChecks_pass] at hv
    have hw := within_encGlwe (w := w) (hv.1.2 (ctGlwe s.latch.desc) (by simp))
    rcases hw with ⟨u, hu, ht⟩ | ⟨x, u, hu, ht⟩ | ⟨f, hf⟩
    · have hc := ht.changed (i := .aencGlwe e w) (r := ctGlwe s.latch.desc) (by simp [writtenRegions])
      refine .inl ⟨u.reportSizeGlwe s.latch.desc, by rw [hu, Attempt.done_andThen], ?_⟩
      exact ⟨by rw [State.reportSizeGlwe]; conv_lhs => rw [hc.rest], hc.acc,
        .inr (.inr ⟨⟨e, w, rfl⟩, by rw [State.reportSizeGlwe_desc, ht.rest]⟩), hc.ucount, hc.ncount, hc.outside, hc.wf, hc.below, hc.whole⟩
    · exact .inr (.inl ⟨x, u, by rw [hu, Attempt.error_andThen],
        ht.changed (r := ctGlwe s.latch.desc) (by simp [writtenRegions])⟩)
    · exact .inr (.inr ⟨f, by rw [hf, Attempt.fault_andThen]⟩)
  | zencLwe e w =>
    refine key (fun hn => ?_) h
    have hv := firstFailure_eq_none.1 hn
    simp only [validation, List.forall_mem_append, addressChecks_pass] at hv
    have hf := hv.1.2 (ctLwe s.latch.desc) (by simp)
    exact (within_readElems fun key _ => within_encryptLwe key 0 hf).ends (r := ctLwe s.latch.desc) (by simp [writtenRegions])
  | zencGlwe e w =>
    refine key (fun hn => ?_) h
    have hv := firstFailure_eq_none.1 hn
    simp only [validation, List.forall_mem_append, addressChecks_pass] at hv
    have hf := hv.1.2 (ctGlwe s.latch.desc) (by simp)
    exact (within_readElems fun key _ => within_encryptGlwe key _ hf).ends (r := ctGlwe s.latch.desc)
      (by simp [writtenRegions])
  | tencLwe e w =>
    refine key (fun hn => ?_) h
    have hv := firstFailure_eq_none.1 hn
    simp only [validation, List.forall_mem_append, addressChecks_pass] at hv
    have h1 : 1 ≤ s.latch.desc.ctSize.toNat := by simpa [checkT1, shapeCheck] using hv.1.1
    exact (within_trivialLwe h1 (hv.1.2 (ctTrivialLwe s.latch.desc) (by simp))).ends (r := ctTrivialLwe s.latch.desc)
      (by simp [writtenRegions])
  | tencGlwe e w =>
    refine key (fun hn => ?_) h
    have hv := firstFailure_eq_none.1 hn
    simp only [validation, List.forall_mem_append, addressChecks_pass] at hv
    have h1 : 1 ≤ s.latch.desc.ctSize.toNat := by simpa [checkT1, shapeCheck] using hv.1.1 _ (List.mem_cons_self ..)
    exact (within_trivialGlwe h1 (hv.1.2 (ctTrivialGlwe s.latch.desc) (by simp))).ends (r := ctTrivialGlwe s.latch.desc)
      (by simp [writtenRegions])
  | atencLwe e w =>
    refine key (fun hn => ?_) h
    have hv := firstFailure_eq_none.1 hn
    simp only [validation, List.forall_mem_append, addressChecks_pass] at hv
    have h1 : 1 ≤ s.latch.desc.ctSize.toNat := by simpa [checkT1, shapeCheck] using hv.1.1
    exact (within_trivialLwe h1 (hv.1.2 (ctTrivialLwe s.latch.desc) (by simp))).ends (r := ctTrivialLwe s.latch.desc)
      (by simp [writtenRegions])
  | atencGlwe e w =>
    refine key (fun hn => ?_) h
    have hv := firstFailure_eq_none.1 hn
    simp only [validation, List.forall_mem_append, addressChecks_pass] at hv
    have h1 : 1 ≤ s.latch.desc.ctSize.toNat := by simpa [checkT1, shapeCheck] using hv.1.1 _ (List.mem_cons_self ..)
    exact (within_trivialGlwe h1 (hv.1.2 (ctTrivialGlwe s.latch.desc) (by simp))).ends (r := ctTrivialGlwe s.latch.desc)
      (by simp [writtenRegions])
  | decLwe e w =>
    refine key (fun hn => ?_) h
    have hv := firstFailure_eq_none.1 hn
    simp only [validation, List.forall_mem_append, addressChecks_pass] at hv
    have hf : Fits s.bufWords s.latch.desc.ptBase.toNat 1 := hv.1.2 (ptOne s.latch.desc) (by simp)
    refine (within_readElems fun a _ => within_readElems fun k _ => within_readElem fun b => ?_).ends
      (r := ptOne s.latch.desc) (by simp [writtenRegions])
    rw [State.writeElem_eq _ _ _ _ (by simpa [Fits] using hf)]
    exact .inl ⟨_, rfl, touched_writeCells s _ [_] rfl hf⟩
  | decGlwe e w =>
    refine key (fun hn => ?_) h
    have hv := firstFailure_eq_none.1 hn
    simp only [validation, List.forall_mem_append, addressChecks_pass] at hv
    have hf := hv.1.2 (ptGlwe s.latch.desc) (by simp)
    exact (within_readElems fun a _ => within_readElems fun b _ => within_readElems fun k _ =>
      within_writeElems (by simp [ptGlwe]) hf).ends (r := ptGlwe s.latch.desc) (by simp [writtenRegions])
  | encl e w =>
    refine key (fun hn => ?_) h
    have hv := firstFailure_eq_none.1 hn
    simp only [validation, List.forall_mem_append, addressChecks_pass] at hv
    have hs : s.latch.desc.ctSize.toNat = s.latch.desc.keyDim.toNat + 1 := by
      simpa [checkS1, shapeCheck] using hv.1.1 _ (List.mem_cons_self ..)
    have hc : s.latch.desc.ctCount = s.latch.desc.ptCount := by
      have := hv.1.1 (checkC1 s.latch.desc) (by simp)
      simpa [checkC1] using this
    have hf := hv.1.2 (ctList s.latch.desc) (by simp)
    by_cases h0 : s.latch.desc.ctCount = 0
    · rw [if_pos h0]
      exact .inl ⟨s, rfl, Changed.refl _ s⟩
    · rw [if_neg h0]
      refine (within_readElems fun key _ => within_readElems fun ps hps => ?_).ends (r := ctList s.latch.desc)
        (by simp [writtenRegions])
      have hl : ps.length = s.latch.desc.ctCount.toNat := by rw [hps, hc]
      have := within_encryptEach (s := s) (w := w) (d := s.latch.desc) key ps (c := s.latch.desc.ctBase.toNat) hs
        (by rw [hl]; exact hf)
      rw [hl] at this
      exact this

/-! ### Every command is its predicates and then its pseudocode -/

/-- The pseudocode of a command, its predicates holding, as its meaning gives it. -/
def pseudocode (s : State) : Instr → Attempt State
  | .nop _ _ => .done s
  | .ufill _ w => s.sampleInto w s.latch.desc s.latch.desc.dst.toNat s.latch.desc.len.toNat 0 (fun _ _ => [])
  | .nfill _ w => s.sampleInto w s.latch.desc s.latch.desc.dst.toNat 0 s.latch.desc.len.toNat (fun _ noise => noise)
  | .dot _ w => (s.innerProduct w s.latch.desc).andThen fun x => .done (s.writeAcc w x)
  | .dota _ w => (s.innerProduct w s.latch.desc).andThen fun x => .done (s.writeAcc w (s.readAcc w + x))
  | .dots _ w => (s.innerProduct w s.latch.desc).andThen fun x => .done (s.writeAcc w (s.readAcc w - x))
  | .accld _ w => (s.readElem w s.latch.desc.srcA.toNat).andThen fun x => .done (s.writeAcc w x)
  | .accadd _ w => (s.readElem w s.latch.desc.srcA.toNat).andThen fun x => .done (s.writeAcc w (s.readAcc w + x))
  | .accst _ w => s.writeElem w s.latch.desc.dst.toNat (s.readAcc w)
  | .encLwe _ w => s.encLwe w s.latch.desc
  | .encGlwe _ w => s.encGlwe w s.latch.desc
  | .aencLwe _ w => (s.encLwe w s.latch.desc).andThen fun t => .done (t.reportSizeLwe s.latch.desc)
  | .aencGlwe _ w => (s.encGlwe w s.latch.desc).andThen fun t => .done (t.reportSizeGlwe s.latch.desc)
  | .zencLwe _ w => (s.readKeyLwe w s.latch.desc).andThen fun key => s.encryptLwe w s.latch.desc key 0 s.latch.desc.ctBase.toNat
  | .zencGlwe _ w => (s.readKeyGlwe w s.latch.desc).andThen fun key =>
      s.encryptGlwe w s.latch.desc key (List.replicate s.latch.desc.keyPoly.toNat 0)
  | .tencLwe _ w => s.trivialLwe w s.latch.desc
  | .tencGlwe _ w => s.trivialGlwe w s.latch.desc
  | .atencLwe _ w => s.trivialLwe w s.latch.desc
  | .atencGlwe _ w => s.trivialGlwe w s.latch.desc
  | .decLwe _ w => (s.readElems w s.latch.desc.ctBase.toNat s.latch.desc.keyDim.toNat).andThen fun a =>
      (s.readKeyLwe w s.latch.desc).andThen fun key =>
        (s.readElem w (s.latch.desc.ctBase.toNat + s.latch.desc.keyDim.toNat)).andThen fun body =>
          s.writeElem w s.latch.desc.ptBase.toNat (torus w (body - dotSum s.latch.desc.keyDim.toNat a key))
  | .decGlwe _ w => (s.readElems w s.latch.desc.ctBase.toNat (s.latch.desc.keyDim.toNat * s.latch.desc.keyPoly.toNat)).andThen
      fun a => (s.readElems w (s.latch.desc.ctBase.toNat + s.latch.desc.keyDim.toNat * s.latch.desc.keyPoly.toNat)
          s.latch.desc.keyPoly.toNat).andThen fun body =>
        (s.readKeyGlwe w s.latch.desc).andThen fun key =>
          s.writeElems w s.latch.desc.ptBase.toNat ((List.range s.latch.desc.keyPoly.toNat).map fun t =>
            torus w (elemAt body t - torus w (innerCoeff s.latch.desc.keyDim.toNat s.latch.desc.keyPoly.toNat a key t)))
  | .encl _ w => if s.latch.desc.ctCount = 0 then .done s
      else (s.readKeyLwe w s.latch.desc).andThen fun key =>
        (s.readElems w s.latch.desc.ptBase.toNat s.latch.desc.ptCount.toNat).andThen fun ps =>
          s.encryptEach w s.latch.desc key s.latch.desc.ctBase.toNat ps

/-- Every command goes through the one entry with its predicates and its pseudocode (40_common.md R82, R83). -/
theorem exec_eq_enter (i : Instr) (s : State) :
    exec i s = s.enter (entryOf i) (validation s.bufWords s.latch.desc i) (pseudocode s i) := by
  cases i <;> rfl

/-- The predicates and the pseudocode of a command do not depend on its entry point. -/
theorem exec_throughEntry (i : Instr) (s : State) (e : Entry) :
    exec (throughEntry e i) s = s.enter e (validation s.bufWords s.latch.desc i) (pseudocode s i) := by
  cases i <;> rfl

/-- Where its predicates hold, a command is its pseudocode. -/
theorem exec_pass {i : Instr} {s : State} (h : ∀ c ∈ validation s.bufWords s.latch.desc i, c.holds = true) :
    exec i s = (pseudocode s i).finish := by
  rw [exec_eq_enter, State.enter_pass _ _ _ (firstFailure_eq_none.2 h)]

end Sys2Proof.Machine
end

