-- ==== Sys2Proof/Laws/Encryption.lean ====
section
/-! SUPPORT. Sys2Proof/Laws/Encryption.lean: what the shared encryptions write, once: one LWE ciphertext, one GLWE ciphertext, a
list of LWE ciphertexts, all draws delivered or one of them failing; and, backwards, what a run that ended has read and drawn. -/

namespace Sys2Proof.Machine

open Sys2Proof

/-! ### Ranges of readable operands -/

/-- Readable cells end within BUF. -/
theorem Readable.fits {s : State} {w : Width} {a n : Nat} {x : Nat → Int} (h : Readable s w a n x) : Fits s.bufWords a n := by
  by_cases hn : n = 0
  · exact .inl hn
  · have := State.readElem_lt (h (n - 1) (by omega))
    right
    omega

/-- A readable cell is within BUF. -/
theorem State.readElem_fits {s : State} {w : Width} {a : Nat} {x : Int} (h : s.readElem w a = .done x) :
    Fits s.bufWords a 1 := by
  have := State.readElem_lt h
  right
  omega

/-! ### Backwards: what a run that ended has read and drawn -/

theorem State.readElems_andThen_done {s : State} {w : Width} {a n : Nat} {k : List Int → Attempt State} {u : State}
    (h : (s.readElems w a n).andThen k = .done u) : ∃ x, Readable s w a n x ∧ k ((List.range n).map x) = .done u := by
  rcases s.readElems_total w a n with ⟨x, hx, he⟩ | ⟨f, hf⟩
  · rw [he, Attempt.done_andThen] at h
    exact ⟨x, hx, h⟩
  · rw [hf] at h
    cases h

theorem State.readElem_andThen_done {s : State} {w : Width} {a : Nat} {k : Int → Attempt State} {u : State}
    (h : (s.readElem w a).andThen k = .done u) : ∃ x, s.readElem w a = .done x ∧ k x = .done u := by
  rcases s.readElem_total w a with ⟨x, hx⟩ | ⟨f, hf⟩
  · rw [hx, Attempt.done_andThen] at h
    exact ⟨x, hx, h⟩
  · rw [hf] at h
    cases h

theorem State.sampleInto_done {s : State} {w : Width} {d : Descriptors} {c m b : Nat} {body : List Int → List Int → List Int}
    {u : State} (h : s.sampleInto w d c m b body = .done u) :
    (∃ x, Delivers s 0 (.uniform w) m x) ∧ ∃ y, Delivers s m (noiseRequest w d) b y := by
  rcases s.drawMany_total (.uniform w) m with ⟨x, hx⟩ | ⟨j, x, hj, hx, hf⟩
  · refine ⟨⟨x, hx⟩, ?_⟩
    rcases (s.drawn m 0).drawMany_total (noiseRequest w d) b with ⟨y, hy⟩ | ⟨j, y, hj, hy, hf⟩
    · refine ⟨y, fun i hi => ?_⟩
      have := hy i hi
      rwa [State.answerAt_drawn, show m + 0 + (0 + i) = m + i by omega] at this
    · have hy' : Delivers s m (noiseRequest w d) j y := fun i hi => by
        have := hy i hi
        rwa [State.answerAt_drawn, show m + 0 + (0 + i) = m + i by omega] at this
      rw [State.answerAt_drawn] at hf
      rw [State.sampleInto_noise_fails hx hj hy' hf] at h
      cases h
  · rw [State.sampleInto_uniform_fails hj hx hf] at h
    cases h

/-! ### A failed draw -/

/-- The state a failed draw leaves, with its unspecified cells as writes (40_common.md R90). -/
theorem State.drawn_takeAnswer_fillCells (s : State) (u n c cells : Nat) :
    (s.drawn u n).takeAnswer.fillCells c cells =
      { s.drawFailed u n cells with
        mem := s.mem.writeCells c ((List.range cells).map fun i => Config.unspecifiedWord (s.freeIndex + i)) } := by
  rw [State.fillCells_eq]
  simp [State.drawFailed, State.takeAnswer, State.drawn, List.tail_drop, Nat.add_assoc]

/-- Cells that took a list of words each hold a word. -/
theorem Memory.writeCells_valued (m : Memory) (c n : Nat) (f : Nat → Word) (a : Nat) (ha : a < n) :
    ∃ x, (m.writeCells c ((List.range n).map f)).readCell (c + a) = some x := by
  rw [Memory.readCell_writeCells _ _ _ _ (by simpa using ha)]
  simp [ha]

/-! ### One ciphertext -/

theorem torus_add_mid (w : Width) (x y z : Int) : torus w (x + torus w y + z) = torus w (x + y + z) := by
  rw [← torus_add_left, torus_add_right, torus_add_left]

/-- One LWE ciphertext, all draws delivered (43_kernel.md R110). -/
theorem State.encryptLwe_delivers {s : State} {w : Width} {d : Descriptors} {key : Nat → Int} {p : Int} {c : Nat}
    {u : Nat → Word} {v : Word} (hu : Delivers s 0 (.uniform w) d.keyDim.toNat u)
    (he : s.answerAt d.keyDim.toNat (noiseRequest w d) = .ok v) (hf : Fits s.bufWords c (d.keyDim.toNat + 1)) :
    ∃ m, s.encryptLwe w d ((List.range d.keyDim.toNat).map key) p c = .done { s.drawn d.keyDim.toNat 1 with mem := m } ∧
      lweCiphertext s m w d.keyDim.toNat c u (noiseOf w d v) key p := by
  have he' : Delivers s d.keyDim.toNat (noiseRequest w d) 1 (fun _ => v) := fun i hi => by
    obtain rfl : i = 0 := by omega
    exact he
  rw [State.encryptLwe, State.sampleInto_delivers
    (y := fun _ => torus w (noiseOf w d v + innerProductOf d.keyDim.toNat (fun i => elemOf w (u i)) key + p)) hu he' hf ?_]
  · refine ⟨_, rfl, ?_, ?_, ?_⟩
    · intro i hi
      rw [Memory.readCell_writeCells _ _ _ _ (by simp; omega)]
      simp [List.getElem?_append_left, hi]
    · rw [Memory.readCell_writeCells _ _ _ _ (by simp)]
      simp
    · exact sameOutside_writeCells _ _ _ _ (by simp)
  · simp only [lweBody, List.range_one, List.map_cons, List.map_nil]
    rw [dotSum_eq, torus_add_left]

/-- One GLWE ciphertext, all draws delivered (R111). -/
theorem State.encryptGlwe_delivers {s : State} {w : Width} {d : Descriptors} {key : Nat → Int} {pt : List Int} {p : Nat → Int}
    {u v : Nat → Word} (hp : ∀ t < d.keyPoly.toNat, elemAt pt t = p t)
    (hu : Delivers s 0 (.uniform w) (d.keyDim.toNat * d.keyPoly.toNat) u)
    (he : Delivers s (d.keyDim.toNat * d.keyPoly.toNat) (noiseRequest w d) d.keyPoly.toNat v)
    (hf : Fits s.bufWords d.ctBase.toNat ((d.keyDim.toNat + 1) * d.keyPoly.toNat)) :
    ∃ m, s.encryptGlwe w d ((List.range (d.keyDim.toNat * d.keyPoly.toNat)).map key) pt =
        .done { s.drawn (d.keyDim.toNat * d.keyPoly.toNat) d.keyPoly.toNat with mem := m } ∧
      glweCiphertext s m w d.keyDim.toNat d.keyPoly.toNat d.ctBase.toNat u (fun t => noiseOf w d (v t)) key p := by
  have hl : (d.keyDim.toNat + 1) * d.keyPoly.toNat = d.keyDim.toNat * d.keyPoly.toNat + d.keyPoly.toNat := by ring
  rw [hl] at hf
  rw [State.encryptGlwe, State.sampleInto_delivers
    (y := fun t => torus w (noiseOf w d (v t)
      + glweInnerOf d.keyDim.toNat d.keyPoly.toNat (fun i => elemOf w (u i)) key t + p t)) hu he hf ?_]
  · refine ⟨_, rfl, ?_, ?_, ?_⟩
    · intro i hi
      rw [Memory.readCell_writeCells _ _ _ _ (by simp; omega)]
      simp [List.getElem?_append_left, hi]
    · intro i hi
      rw [Nat.add_assoc, Memory.readCell_writeCells _ _ _ _ (by simp; omega)]
      simp [hi]
    · rw [hl]
      exact sameOutside_writeCells _ _ _ _ (by simp)
  · simp only [glweBody]
    refine List.map_congr_left fun t ht => ?_
    rw [List.mem_range] at ht
    rw [innerCoeff_eq _ _ _ _ _ ht, elemAt_map_range _ _ ht, hp t ht, torus_add_left, torus_add_mid]

/-! ### A list of ciphertexts -/

/-- The draws of one element have moved every later draw up by n + 1. -/
theorem State.answerAt_drawn_mem (s : State) (m : Memory) (n k : Nat) (r : Request) :
    ({ s.drawn n 1 with mem := m } : State).answerAt k r = s.answerAt (n + 1 + k) r := by
  rw [← State.answerAt_drawn]
  rfl

/-- The ciphertexts of the first `q` elements of a list from `c`, each of n + 1 cells (44_list.md R124). -/
def listCiphertexts (m : Memory) (w : Width) (d : Descriptors) (c q : Nat) (u : Nat → Nat → Word) (v : Nat → Word)
    (key pt : Nat → Int) : Prop :=
  ∀ i < q, Stores m w (c + i * (d.keyDim.toNat + 1)) d.keyDim.toNat (fun j => elemOf w (u i j)) ∧
    m.readCell (c + i * (d.keyDim.toNat + 1) + d.keyDim.toNat) =
      some (wordOf w (noiseOf w d (v i) + innerProductOf d.keyDim.toNat (fun j => elemOf w (u i j)) key + pt i))

/-- The first element's ciphertext and those of the rest, written after it and elsewhere, make up the list's. -/
theorem listCiphertexts_succ {s : State} {m m' : Memory} {w : Width} {d : Descriptors} {c q len : Nat}
    {u : Nat → Nat → Word} {v : Nat → Word} {key pt : Nat → Int}
    (h0 : lweCiphertext s m w d.keyDim.toNat c (u 0) (noiseOf w d (v 0)) key (pt 0))
    (h1 : listCiphertexts m' w d (c + (d.keyDim.toNat + 1)) q (fun i => u (i + 1)) (fun i => v (i + 1)) key (pt ∘ Nat.succ))
    (ho : SameOutside m m' (c + (d.keyDim.toNat + 1)) len) : listCiphertexts m' w d c (q + 1) u v key pt := by
  intro i hi
  rcases i with _ | i
  · simp only [Nat.zero_mul, Nat.add_zero]
    have hsame : ∀ a < d.keyDim.toNat + 1, m'.readCell (c + a) = m.readCell (c + a) := fun a ha =>
      Memory.readCell_congr fun j hj => ho _ (by left; omega)
    refine ⟨fun j hj => ?_, ?_⟩
    · rw [hsame j (by omega)]
      exact h0.1 j hj
    · rw [hsame _ (by omega)]
      exact h0.2.1
  · have := h1 i (by omega)
    rw [show c + (d.keyDim.toNat + 1) + i * (d.keyDim.toNat + 1) = c + (i + 1) * (d.keyDim.toNat + 1) by ring] at this
    exact this

/-- Every element of a list, all draws delivered (44_list.md R124). -/
theorem State.encryptEach_delivers {w : Width} {d : Descriptors} {key : Nat → Int}
    (hs : d.ctSize.toNat = d.keyDim.toNat + 1) (l : Nat) (s : State) (c : Nat) (pt : Nat → Int) (u : Nat → Nat → Word)
    (v : Nat → Word) (hf : Fits s.bufWords c (l * (d.keyDim.toNat + 1)))
    (hu : ∀ i < l, Delivers s (i * (d.keyDim.toNat + 1)) (.uniform w) d.keyDim.toNat (u i))
    (hv : ∀ i < l, s.answerAt (i * (d.keyDim.toNat + 1) + d.keyDim.toNat) (noiseRequest w d) = .ok (v i)) :
    ∃ m, s.encryptEach w d ((List.range d.keyDim.toNat).map key) c ((List.range l).map pt) =
        .done { s.drawn (l * d.keyDim.toNat) l with mem := m } ∧
      listCiphertexts m w d c l u v key pt ∧ SameOutside s.mem m c (l * (d.keyDim.toNat + 1)) := by
  induction l generalizing s c pt u v with
  | zero => exact ⟨s.mem, by simp [State.encryptEach, State.drawn_zero], fun i hi => by omega, fun _ _ => rfl⟩
  | succ l ih =>
    have hl : (l + 1) * (d.keyDim.toNat + 1) = (d.keyDim.toNat + 1) + l * (d.keyDim.toNat + 1) := by ring
    rw [hl] at hf ⊢
    have hf' : c + (d.keyDim.toNat + 1) + l * (d.keyDim.toNat + 1) ≤ s.bufWords := by rcases hf with h | h <;> omega
    obtain ⟨m, hm, hc⟩ := State.encryptLwe_delivers (s := s) (d := d) (key := key) (p := pt 0) (c := c) (u := u 0) (v := v 0)
      (w := w) (by simpa using hu 0 (by omega)) (by simpa using hv 0 (by omega)) (.inr (by omega))
    rw [List.range_succ_eq_map, List.map_cons, State.encryptEach, hm, Attempt.done_andThen, List.map_map, hs]
    obtain ⟨m', hm', hst, hso⟩ := ih { s.drawn d.keyDim.toNat 1 with mem := m } (c + (d.keyDim.toNat + 1)) (pt ∘ Nat.succ)
      (fun i => u (i + 1)) (fun i => v (i + 1)) (.inr hf')
      (fun i hi j hj => by
        rw [State.answerAt_drawn_mem]
        have := hu (i + 1) (by omega) j hj
        rwa [show (i + 1) * (d.keyDim.toNat + 1) + j = d.keyDim.toNat + 1 + (i * (d.keyDim.toNat + 1) + j) by ring] at this)
      (fun i hi => by
        rw [State.answerAt_drawn_mem]
        have := hv (i + 1) (by omega)
        rwa [show (i + 1) * (d.keyDim.toNat + 1) + d.keyDim.toNat
          = d.keyDim.toNat + 1 + (i * (d.keyDim.toNat + 1) + d.keyDim.toNat) by ring] at this)
    refine ⟨m', ?_, listCiphertexts_succ hc hst hso, fun a ha => ?_⟩
    · rw [hm', show ({ s.drawn d.keyDim.toNat 1 with mem := m } : State).drawn (l * d.keyDim.toNat) l
        = { (s.drawn d.keyDim.toNat 1).drawn (l * d.keyDim.toNat) l with mem := m } from rfl, State.drawn_drawn,
        show d.keyDim.toNat + l * d.keyDim.toNat = (l + 1) * d.keyDim.toNat by ring, Nat.add_comm 1 l]
    · rw [hso a (by omega)]
      exact hc.2.2 a (by omega)

/-- A list in whose element `q` draw `j` fails: the elements before it stand, its own cells hold some words (R90, R124). -/
theorem State.encryptEach_fails {w : Width} {d : Descriptors} {key : Nat → Int} (hs : d.ctSize.toNat = d.keyDim.toNat + 1)
    (q l : Nat) (s : State) (c j : Nat) (pt : Nat → Int) (u : Nat → Nat → Word) (v : Nat → Word) (hq : q < l)
    (hf : Fits s.bufWords c (l * (d.keyDim.toNat + 1)))
    (hu : ∀ i < q, Delivers s (i * (d.keyDim.toNat + 1)) (.uniform w) d.keyDim.toNat (u i))
    (hv : ∀ i < q, s.answerAt (i * (d.keyDim.toNat + 1) + d.keyDim.toNat) (noiseRequest w d) = .ok (v i))
    (hd : Delivers s (q * (d.keyDim.toNat + 1)) (.uniform w) j (u q))
    (hfail : j < d.keyDim.toNat ∧ s.answerAt (q * (d.keyDim.toNat + 1) + j) (.uniform w) = .fail ∨
      j = d.keyDim.toNat ∧ s.answerAt (q * (d.keyDim.toNat + 1) + d.keyDim.toNat) (noiseRequest w d) = .fail) :
    ∃ m, s.encryptEach w d ((List.range d.keyDim.toNat).map key) c ((List.range l).map pt) =
        .error ⟨.engineFailure, if j < d.keyDim.toNat then 1 else 2, 0⟩
          { s.drawFailed (q * d.keyDim.toNat + j) q (d.keyDim.toNat + 1) with mem := m } ∧
      listCiphertexts m w d c q u v key pt ∧
      (∀ a < d.keyDim.toNat + 1, ∃ x, m.readCell (c + q * (d.keyDim.toNat + 1) + a) = some x) ∧
      SameOutside s.mem m c ((q + 1) * (d.keyDim.toNat + 1)) := by
  induction q generalizing l s c pt u v with
  | zero =>
    obtain ⟨l, rfl⟩ : ∃ l', l = l' + 1 := ⟨l - 1, by omega⟩
    rw [List.range_succ_eq_map, List.map_cons, State.encryptEach, State.encryptLwe]
    simp only [Nat.zero_mul, Nat.zero_add, Nat.one_mul, Nat.add_zero] at hfail hd ⊢
    rcases hfail with ⟨hj, hx⟩ | ⟨rfl, hx⟩
    · rw [State.sampleInto_uniform_fails hj hd hx, Attempt.error_andThen, if_pos hj, State.drawn_takeAnswer_fillCells]
      exact ⟨_, rfl, fun i hi => by omega, Memory.writeCells_valued _ _ _ _, sameOutside_writeCells _ _ _ _ (by simp)⟩
    · rw [State.sampleInto_noise_fails (j := 0) (e := fun _ => 0) hd (by omega) (fun i hi => by omega) hx,
        Attempt.error_andThen, if_neg (by omega), State.drawn_takeAnswer_fillCells]
      exact ⟨_, rfl, fun i hi => by omega, Memory.writeCells_valued _ _ _ _, sameOutside_writeCells _ _ _ _ (by simp)⟩
  | succ q ih =>
    obtain ⟨l, rfl⟩ : ∃ l', l = l' + 1 := ⟨l - 1, by omega⟩
    have hl : (l + 1) * (d.keyDim.toNat + 1) = (d.keyDim.toNat + 1) + l * (d.keyDim.toNat + 1) := by ring
    have hl2 : (q + 1 + 1) * (d.keyDim.toNat + 1) = (d.keyDim.toNat + 1) + (q + 1) * (d.keyDim.toNat + 1) := by ring
    rw [hl] at hf
    rw [hl2]
    have hf' : c + (d.keyDim.toNat + 1) + l * (d.keyDim.toNat + 1) ≤ s.bufWords := by rcases hf with h | h <;> omega
    obtain ⟨m, hm, hc⟩ := State.encryptLwe_delivers (s := s) (d := d) (key := key) (p := pt 0) (c := c) (u := u 0) (v := v 0)
      (w := w) (by simpa using hu 0 (by omega)) (by simpa using hv 0 (by omega)) (.inr (by omega))
    rw [List.range_succ_eq_map, List.map_cons, State.encryptEach, hm, Attempt.done_andThen, List.map_map, hs]
    obtain ⟨m', hm', hst, hval, hso⟩ := ih l { s.drawn d.keyDim.toNat 1 with mem := m } (c + (d.keyDim.toNat + 1))
      (pt ∘ Nat.succ) (fun i => u (i + 1)) (fun i => v (i + 1)) (by omega) (.inr hf')
      (fun i hi j hj => by
        rw [State.answerAt_drawn_mem]
        have := hu (i + 1) (by omega) j hj
        rwa [show (i + 1) * (d.keyDim.toNat + 1) + j = d.keyDim.toNat + 1 + (i * (d.keyDim.toNat + 1) + j) by ring] at this)
      (fun i hi => by
        rw [State.answerAt_drawn_mem]
        have := hv (i + 1) (by omega)
        rwa [show (i + 1) * (d.keyDim.toNat + 1) + d.keyDim.toNat
          = d.keyDim.toNat + 1 + (i * (d.keyDim.toNat + 1) + d.keyDim.toNat) by ring] at this)
      (fun i hi => by
        rw [State.answerAt_drawn_mem]
        have := hd i hi
        rwa [show (q + 1) * (d.keyDim.toNat + 1) + i = d.keyDim.toNat + 1 + (q * (d.keyDim.toNat + 1) + i) by ring] at this)
      (by
        rw [State.answerAt_drawn_mem, State.answerAt_drawn_mem]
        rwa [show (q + 1) * (d.keyDim.toNat + 1) + j = d.keyDim.toNat + 1 + (q * (d.keyDim.toNat + 1) + j) by ring,
          show (q + 1) * (d.keyDim.toNat + 1) + d.keyDim.toNat
            = d.keyDim.toNat + 1 + (q * (d.keyDim.toNat + 1) + d.keyDim.toNat) by ring] at hfail)
    have hstate : ({ s.drawn d.keyDim.toNat 1 with mem := m } : State).drawFailed (q * d.keyDim.toNat + j) q
        (d.keyDim.toNat + 1) =
        { s.drawFailed ((q + 1) * d.keyDim.toNat + j) (q + 1) (d.keyDim.toNat + 1) with mem := m } := by
      simp only [State.drawFailed, State.drawn, List.drop_drop, State.mk.injEq, true_and, and_true]
      have e1 : (q + 1) * d.keyDim.toNat + j = d.keyDim.toNat + (q * d.keyDim.toNat + j) := by ring
      refine ⟨?_, ?_, ?_, ?_⟩
      · rw [e1, BitVec.ofNat_add d.keyDim.toNat, BitVec.add_assoc]
      · rw [Nat.add_comm q 1, BitVec.ofNat_add 1, BitVec.add_assoc]
      · congr 1
        omega
      · omega
    refine ⟨m', by rw [hm', hstate], listCiphertexts_succ hc hst hso, fun a ha => ?_, fun a ha => ?_⟩
    · have := hval a ha
      rwa [show c + (d.keyDim.toNat + 1) + q * (d.keyDim.toNat + 1) + a = c + (q + 1) * (d.keyDim.toNat + 1) + a by ring]
        at this
    · rw [hso a (by omega)]
      exact hc.2.2 a (by omega)

end Sys2Proof.Machine
end

