-- ==== Sys2Proof/Laws/HostPort.lean ====
section
/-! SUPPORT. Sys2Proof/Laws/HostPort.lean: where a host access goes, once: an offset of the register page to one register and
lane, an offset of the BUF window to one cell and lane (20_memory.md R43 to R45). -/

namespace Sys2Proof.Machine

open Sys2Proof

/-! ### Offsets -/

theorem laneOf_whole {o : Nat} (h : o % 8 = 0) : laneOf .b64 o = some .whole := by simp [laneOf, h]

theorem laneOf_low {o : Nat} (h : o % 8 = 0) : laneOf .b32 o = some .low := by simp [laneOf, h]

theorem laneOf_high {o : Nat} (h : o % 8 = 4) : laneOf .b32 o = some .high := by simp [laneOf, h]

/-- An offset below 2^24 is what the access carries. -/
theorem offset_toNat {o : Nat} (h : o < 2 ^ 24) : (BitVec.ofNat 24 o).toNat = o := by
  rw [BitVec.toNat_ofNat, Nat.mod_eq_of_lt h]

theorem targetOf_register {n o : Nat} (h : o < 0x1000) : targetOf n o = .register (o / 8) := by
  rw [targetOf, if_pos h]

theorem targetOf_cell {n a b : Nat} (h : a < n) (hb : b < 8) : targetOf n (0x100000 + 8 * a + b) = .cell a := by
  rw [targetOf, if_neg (by omega), if_pos (by omega)]
  congr 1
  omega

/-! ### Accesses -/

/-- An access whose offset and lane name a place of the register page. -/
theorem State.hostAccess_register {s : State} {x : Access} {l : Lane} (hl : laneOf x.size x.offset.toNat = some l)
    (ho : x.offset.toNat < 0x1000) : s.hostAccess x = .next (s.registerAccess (x.offset.toNat / 8) l x.kind) := by
  unfold State.hostAccess
  rw [hl, targetOf_register ho]

/-- An access whose offset and lane name a cell or a half of it. -/
theorem State.hostAccess_cell {s : State} {size : AccessSize} {a b : Nat} {k : AccessKind} {l : Lane}
    (ha : a < s.bufWords) (hn : s.bufWords ≤ 2 ^ 20) (hb : b < 8) (hl : laneOf size (0x100000 + 8 * a + b) = some l) :
    s.hostAccess ⟨size, BitVec.ofNat 24 (0x100000 + 8 * a + b), k⟩ = s.bufAccess a l k := by
  unfold State.hostAccess
  dsimp only
  rw [offset_toNat (by omega), hl, targetOf_cell ha hb]

theorem State.hostAccess_cell_whole {s : State} {a : Nat} {k : AccessKind} (ha : a < s.bufWords) (hn : s.bufWords ≤ 2 ^ 20) :
    s.hostAccess ⟨.b64, BitVec.ofNat 24 (0x100000 + 8 * a), k⟩ = s.bufAccess a .whole k :=
  hostAccess_cell (b := 0) ha hn (by omega) (laneOf_whole (by omega))

theorem State.hostAccess_cell_low {s : State} {a : Nat} {k : AccessKind} (ha : a < s.bufWords) (hn : s.bufWords ≤ 2 ^ 20) :
    s.hostAccess ⟨.b32, BitVec.ofNat 24 (0x100000 + 8 * a), k⟩ = s.bufAccess a .low k :=
  hostAccess_cell (b := 0) ha hn (by omega) (laneOf_low (by omega))

theorem State.hostAccess_cell_high {s : State} {a : Nat} {k : AccessKind} (ha : a < s.bufWords) (hn : s.bufWords ≤ 2 ^ 20) :
    s.hostAccess ⟨.b32, BitVec.ofNat 24 (0x100000 + 8 * a + 4), k⟩ = s.bufAccess a .high k :=
  hostAccess_cell (b := 4) ha hn (by omega) (laneOf_high (by omega))

/-! ### Registers -/

/-- Every register stands in the map, at its own index (10_state.md R18). -/
theorem regMap_idxOf (r : Reg) : regMap[regMap.idxOf r]? = some r := by cases r <;> decide

theorem regMap_idxOf_lt (r : Reg) : regMap.idxOf r < 25 := by cases r <;> decide

/-- An access of the register r in a lane, at its offset plus `b`. -/
theorem State.hostAccess_reg {s : State} {size : AccessSize} {r : Reg} {b : Nat} {k : AccessKind} {l : Lane}
    (hb : b < 8) (hl : laneOf size (8 * regMap.idxOf r + b) = some l) :
    s.hostAccess ⟨size, BitVec.ofNat 24 (8 * regMap.idxOf r + b), k⟩ =
      .next (match k with | .read => s.hostReadReg r l | .write v => s.hostWriteReg r l v) := by
  have hlt := regMap_idxOf_lt r
  have ho : (BitVec.ofNat 24 (8 * regMap.idxOf r + b)).toNat = 8 * regMap.idxOf r + b := offset_toNat (by omega)
  rw [State.hostAccess_register (l := l) (by rw [ho]; exact hl) (by dsimp only; omega)]
  dsimp only
  rw [ho, show (8 * regMap.idxOf r + b) / 8 = regMap.idxOf r by omega]
  cases k <;> simp only [State.registerAccess, regMap_idxOf]

theorem State.hostAccess_reg_whole {s : State} {r : Reg} {k : AccessKind} :
    s.hostAccess ⟨.b64, BitVec.ofNat 24 (8 * regMap.idxOf r), k⟩ =
      .next (match k with | .read => s.hostReadReg r .whole | .write v => s.hostWriteReg r .whole v) :=
  hostAccess_reg (b := 0) (by omega) (laneOf_whole (by omega))

theorem State.hostAccess_reg_low {s : State} {r : Reg} {k : AccessKind} :
    s.hostAccess ⟨.b32, BitVec.ofNat 24 (8 * regMap.idxOf r), k⟩ =
      .next (match k with | .read => s.hostReadReg r .low | .write v => s.hostWriteReg r .low v) :=
  hostAccess_reg (b := 0) (by omega) (laneOf_low (by omega))

theorem State.hostAccess_reg_high {s : State} {r : Reg} {k : AccessKind} :
    s.hostAccess ⟨.b32, BitVec.ofNat 24 (8 * regMap.idxOf r + 4), k⟩ =
      .next (match k with | .read => s.hostReadReg r .high | .write v => s.hostWriteReg r .high v) :=
  hostAccess_reg (b := 4) (by omega) (laneOf_high (by omega))

/-- Bit by bit, what STATUS shows (10_state.md R22). -/
theorem State.statusWord_getLsbD (s : State) (i : Nat) :
    s.statusWord.getLsbD i =
      if i = 0 then s.busy else if i = 1 then s.done else if i = 2 then s.err else if i = 3 then s.wbusy
      else if i < 8 then false else if i < 16 then s.errcode.getLsbD (i - 8)
      else if i < 24 then s.lastop.getLsbD (i - 16) else false := by
  unfold State.statusWord
  simp only [BitVec.getLsbD_append, BitVec.getLsbD_ofBool]
  by_cases h : i < 24
  · interval_cases i <;> simp
  · simp only [show ¬ i = 0 by omega, show ¬ i = 1 by omega, show ¬ i = 2 by omega, show ¬ i = 3 by omega,
      show ¬ i < 8 by omega, show ¬ i < 16 by omega, h, if_false]
    simp [show ¬ i < 1 by omega, show ¬ i - 1 < 1 by omega, show ¬ i - 1 - 1 < 1 by omega,
      show ¬ i - 1 - 1 - 1 < 1 by omega, show ¬ i - 1 - 1 - 1 - 1 < 4 by omega,
      show ¬ i - 1 - 1 - 1 - 1 - 4 < 8 by omega, show ¬ i - 1 - 1 - 1 - 1 - 4 - 8 < 8 by omega]

/-- A 32-bit write at a register's offset carries the low bits of its data. -/
theorem laneWrite_low_getLsbD (v : Word) (i : Nat) (h : i < 32) : (laneWrite .low 0 v).getLsbD i = v.getLsbD i := by
  unfold laneWrite
  simp only [BitVec.getLsbD_append, h, if_pos, BitVec.getLsbD_extractLsb']
  simp

/-- ACC and the descriptors are the registers a host write stores in, unless the block is Busy (10_state.md R18, R34). -/
theorem State.hostWriteReg_stored {s : State} {r : Reg} (hr : r ∈ storedRegs) (l : Lane) (v : Word) :
    s.hostWriteReg r l v = if s.busy then s.dropWrite else s.storeReg r (laneWrite l (s.readReg r) v) := by
  cases r <;> simp [storedRegs] at hr <;> rfl

/-! ### Soft reset -/

theorem State.emptyRegions_rest (s : State) (rs : List Region) :
    rs.foldl State.emptyRegion s = { s with mem := (rs.foldl State.emptyRegion s).mem } := by
  induction rs generalizing s with
  | nil => rfl
  | cons r rs ih =>
    rw [List.foldl_cons, ih]
    rfl

/-- A soft reset changes nothing but what `clearRegisters` does and BUF (70_reset_and_hazards.md R142). -/
theorem State.softReset_rest (s : State) : s.softReset = { s.clearRegisters with mem := s.softReset.mem } := by
  unfold State.softReset
  split
  · rfl
  · rw [State.emptyRegions_rest]
    rfl

/-- Which bytes the abandoned regions lose (R142 b). -/
theorem State.emptyRegions_readByte (s : State) (rs : List Region) (a : Nat) :
    (rs.foldl State.emptyRegion s).mem.readByte a =
      if (∃ r ∈ rs, 8 * r.base ≤ a ∧ a < 8 * (r.base + r.len)) ∧ a < 8 * s.bufWords then none else s.mem.readByte a := by
  induction rs generalizing s with
  | nil => simp
  | cons r rs ih =>
    rw [List.foldl_cons, ih]
    simp only [State.emptyRegion, Memory.readByte_emptyCells, List.exists_mem_cons_iff]
    by_cases h1 : ∃ r ∈ rs, 8 * r.base ≤ a ∧ a < 8 * (r.base + r.len) <;> by_cases h2 : a < 8 * s.bufWords <;>
      simp only [h1, h2] <;> simp <;> grind

end Sys2Proof.Machine
end

