-- ==== Sys2Proof/Laws/PerInstr.lean ====
section
/-! SUPPORT. Sys2Proof/Laws/PerInstr.lean: one statement per command about its encoding, so that statements over all commands
have a case for each constructor. -/

namespace Sys2Proof.Laws.CommandWord

open Sys2Proof Sys2Proof.Machine

/-- The word of a command is a legal one (30_encoding.md R71), its CHK bit is its entry point (R65), its W bit its width (R66), and
its OPC and K are its row's `match` value (R71). -/
def Statement (i : Instr) : Prop :=
  wordWellFormed (encode i) = true ∧ ((encode i).getLsbD 8 = true ↔ entryOf i = .checked) ∧
    ((encode i).getLsbD 9 = true ↔ widthOf i = .w64) ∧ encode i &&& 0xFFFF_FFFF_FFFF_FCFF = tableMatch i

theorem nop (e : Entry) (w : Width) : Statement (.nop e w) := by
  unfold Statement
  cases e <;> cases w <;> decide

theorem ufill (e : Entry) (w : Width) : Statement (.ufill e w) := by
  unfold Statement
  cases e <;> cases w <;> decide

theorem nfill (e : Entry) (w : Width) : Statement (.nfill e w) := by
  unfold Statement
  cases e <;> cases w <;> decide

theorem dot (e : Entry) (w : Width) : Statement (.dot e w) := by
  unfold Statement
  cases e <;> cases w <;> decide

theorem dota (e : Entry) (w : Width) : Statement (.dota e w) := by
  unfold Statement
  cases e <;> cases w <;> decide

theorem dots (e : Entry) (w : Width) : Statement (.dots e w) := by
  unfold Statement
  cases e <;> cases w <;> decide

theorem accld (e : Entry) (w : Width) : Statement (.accld e w) := by
  unfold Statement
  cases e <;> cases w <;> decide

theorem accadd (e : Entry) (w : Width) : Statement (.accadd e w) := by
  unfold Statement
  cases e <;> cases w <;> decide

theorem accst (e : Entry) (w : Width) : Statement (.accst e w) := by
  unfold Statement
  cases e <;> cases w <;> decide

theorem encLwe (e : Entry) (w : Width) : Statement (.encLwe e w) := by
  unfold Statement
  cases e <;> cases w <;> decide

theorem encGlwe (e : Entry) (w : Width) : Statement (.encGlwe e w) := by
  unfold Statement
  cases e <;> cases w <;> decide

theorem aencLwe (e : Entry) (w : Width) : Statement (.aencLwe e w) := by
  unfold Statement
  cases e <;> cases w <;> decide

theorem aencGlwe (e : Entry) (w : Width) : Statement (.aencGlwe e w) := by
  unfold Statement
  cases e <;> cases w <;> decide

theorem zencLwe (e : Entry) (w : Width) : Statement (.zencLwe e w) := by
  unfold Statement
  cases e <;> cases w <;> decide

theorem zencGlwe (e : Entry) (w : Width) : Statement (.zencGlwe e w) := by
  unfold Statement
  cases e <;> cases w <;> decide

theorem tencLwe (e : Entry) (w : Width) : Statement (.tencLwe e w) := by
  unfold Statement
  cases e <;> cases w <;> decide

theorem tencGlwe (e : Entry) (w : Width) : Statement (.tencGlwe e w) := by
  unfold Statement
  cases e <;> cases w <;> decide

theorem atencLwe (e : Entry) (w : Width) : Statement (.atencLwe e w) := by
  unfold Statement
  cases e <;> cases w <;> decide

theorem atencGlwe (e : Entry) (w : Width) : Statement (.atencGlwe e w) := by
  unfold Statement
  cases e <;> cases w <;> decide

theorem decLwe (e : Entry) (w : Width) : Statement (.decLwe e w) := by
  unfold Statement
  cases e <;> cases w <;> decide

theorem decGlwe (e : Entry) (w : Width) : Statement (.decGlwe e w) := by
  unfold Statement
  cases e <;> cases w <;> decide

theorem encl (e : Entry) (w : Width) : Statement (.encl e w) := by
  unfold Statement
  cases e <;> cases w <;> decide

end Sys2Proof.Laws.CommandWord
end

