-- ==== Sys2Proof/Tests/Slice0.lean ====
section
/-! SUPPORT. Sys2Proof/Tests/Slice0.lean: the model's own tests. Expected words, states and results are those of spec/95_test_vectors.md
(the vector is named in each comment) or are written out from the spec's encodings; the witnesses at the end show, for each
statement of Certificates/Slice0/Obligations.lean with hypotheses, a state and operands that meet them. -/

namespace Sys2Proof.Machine.Tests

open Sys2Proof Sys2Proof.Machine

/-! ### Helpers -/

/-- The next state of an outcome, if it is one. -/
def after : Host.Outcome State Fault Refusal → Option State
  | .next t => some t
  | .fault _ => none
  | .refused _ => none

/-- The fault of an outcome, if it is one. -/
def stop : Host.Outcome State Fault Refusal → Option Fault
  | .next _ => none
  | .fault f => some f
  | .refused _ => none

/-- BUF with the listed cells. -/
def bufOf (cells : List (Nat × Word)) : Memory := cells.foldl (fun m c => m.writeCell c.1 c.2) []

/-- Oracle answers that are all `ok`. -/
def oks (vs : List Word) : List Answer := vs.map .ok

/-- A Busy block of 64 cells with command word `c` latched over descriptors `d`, the listed cells and the listed answers. -/
def busyBlock (c : Word) (d : Descriptors) (cells : List (Nat × Word)) (entropy : List Answer) : State :=
  { ({ State.powerOn 64 with desc := d } : State).start c with mem := bufOf cells, entropy := entropy }

/-- What the block's step leaves. -/
def ran (c : Word) (d : Descriptors) (cells : List (Nat × Word)) (entropy : List Answer) : Option State :=
  after (step (busyBlock c d cells entropy))

/-- Cells of BUF as they read. -/
def cellsOf (t : State) (addresses : List Nat) : List (Option Word) := addresses.map t.mem.readCell

/-- The end a command reports: STATUS, ERRINFO0, ERRINFO1. -/
def endOf (t : State) : Word × Word × Word := (t.statusWord, t.errinfo0, t.errinfo1)

/-- UCOUNT and NCOUNT. -/
def counts (t : State) : Word × Word := (t.ucount, t.ncount)

/-- Elements from a list. -/
def seq (xs : List Int) (i : Nat) : Int := xs.getD i 0

/-- Words from a list. -/
def wordSeq (xs : List Word) (i : Nat) : Word := xs.getD i 0

/-! ### Well-formedness: an ill-formed term for each check, which the check refuses -/

theorem test_reservedBits_refused : wordReservedZero 0x810 = false ∧ wordReservedZero 0x8000_0000_0000_0110 = false := by
  decide

theorem test_reservedOpcode_refused : wordOpcodeListed 0x003 = false ∧ wordOpcodeListed 0x0FF = false ∧
    wordOpcodeListed 0x00E = false ∧ wordOpcodeListed 0x015 = false ∧ wordOpcodeListed 0x019 = false ∧
    wordOpcodeListed 0x021 = false := by decide

theorem test_illegalKind_refused : wordKindLegal 0x400 = false ∧ wordKindLegal 0x720 = false ∧ wordKindLegal 0x508 = false := by
  decide

theorem test_illFormedWords_refused : wordWellFormed 0x810 = false ∧ wordWellFormed 0x003 = false ∧
    wordWellFormed 0x400 = false ∧ wordWellFormed 0x110 = true := by decide

theorem test_bufWords_refused : bufWordsWellFormed 0 = false ∧ bufWordsWellFormed (2 ^ 20 + 1) = false ∧
    bufWordsWellFormed 1 = true ∧ bufWordsWellFormed (2 ^ 20) = true := by decide

theorem test_spelling_refused : spellingLegal { op := .nop, kind := some .glwe } = false ∧
    spellingLegal { op := .encl, kind := some .glwe } = false ∧ spellingLegal { op := .enc, kind := some .glwe } = true := by
  decide

/-! ### Decoding: a word of every constructor, written out from R63 and R70 (bits 10 K, 9 W, 8 CHK, 7:0 OPC) -/

theorem test_decode_primitives :
    decode 0b000_0000_0000 = .ok (.nop .unchecked .w32) ∧
    decode 0b001_0000_0001 = .ok (.ufill .checked .w32) ∧
    decode 0b010_0000_0010 = .ok (.nfill .unchecked .w64) ∧
    decode 0b011_0000_1000 = .ok (.dot .checked .w64) ∧
    decode 0b001_0000_1001 = .ok (.dota .checked .w32) ∧
    decode 0b010_0000_1010 = .ok (.dots .unchecked .w64) ∧
    decode 0b011_0000_1011 = .ok (.accld .checked .w64) ∧
    decode 0b000_0000_1100 = .ok (.accadd .unchecked .w32) ∧
    decode 0b001_0000_1101 = .ok (.accst .checked .w32) := by decide

theorem test_decode_kernel :
    decode 0b001_0001_0000 = .ok (.encLwe .checked .w32) ∧
    decode 0b111_0001_0000 = .ok (.encGlwe .checked .w64) ∧
    decode 0b000_0001_0001 = .ok (.aencLwe .unchecked .w32) ∧
    decode 0b111_0001_0001 = .ok (.aencGlwe .checked .w64) ∧
    decode 0b001_0001_0010 = .ok (.zencLwe .checked .w32) ∧
    decode 0b101_0001_0010 = .ok (.zencGlwe .checked .w32) ∧
    decode 0b011_0001_0011 = .ok (.tencLwe .checked .w64) ∧
    decode 0b100_0001_0011 = .ok (.tencGlwe .unchecked .w32) ∧
    decode 0b010_0001_0100 = .ok (.atencLwe .unchecked .w64) ∧
    decode 0b111_0001_0100 = .ok (.atencGlwe .checked .w64) ∧
    decode 0b001_0001_1000 = .ok (.decLwe .checked .w32) ∧
    decode 0b110_0001_1000 = .ok (.decGlwe .unchecked .w64) ∧
    decode 0b001_0010_0000 = .ok (.encl .checked .w32) := by decide

theorem test_decode_rejects : decode 0x810 = .error .reservedBits ∧ decode 0x003 = .error .reservedOpcode ∧
    decode 0x720 = .error .noGlweForm := by decide

/-- The table's match words of ENC.LWE and DEC.GLWE, and a number that is no 64-bit word. -/
theorem test_decodeTableWord : decodeTableWord 64 0x010 = some (.encLwe .unchecked .w32) ∧
    decodeTableWord 64 0x418 = some (.decGlwe .unchecked .w32) ∧ decodeTableWord 64 (2 ^ 64) = none := by decide

/-- The table's word of TENC.LWE, placed as the next command of the reset machine with T1 false, is run by the next step: unchecked,
it has no meaning there (R83); the checked word reports T1 (V-TENC-2). -/
theorem test_withFetchWord : stop (step (State.reset.withFetchWord 64 0x013)) = some .preconditionViolated ∧
    (after (step (State.reset.withFetchWord 64 0x113))).map endOf = some (0x0013_0106, 1, 0) := by decide

/-! ### Commands -/

/-- The first two rows of the encoding vectors. -/
theorem test_nop : (ran 0x000 .zero [] []).map endOf = some (0x2, 0, 0) ∧ (ran 0x300 .zero [] []).map endOf = some (0x2, 0, 0) := by
  decide

/-- The illegal rows of the encoding vectors with a reserved bit or a reserved OPC. -/
theorem test_illegal_reserved :
    (ran 0x3 .zero [] []).map endOf = some (0x3_0406, 0x3, 0) ∧
    (ran 0xFF .zero [] []).map endOf = some (0xFF_0406, 0xFF, 0) ∧
    (ran 0x810 .zero [] []).map endOf = some (0x10_0406, 0x810, 0) ∧
    (ran 0x8000_0000_0000_0110 .zero [] []).map endOf = some (0x10_0406, 0x8000_0000_0000_0110, 0) := by decide

/-- The illegal rows of the encoding vectors with K = 1 and no GLWE form, and 0x403. -/
theorem test_illegal_kind :
    (ran 0x400 .zero [] []).map endOf = some (0x406, 0x400, 0) ∧
    (ran 0x720 .zero [] []).map endOf = some (0x20_0406, 0x720, 0) ∧
    (ran 0x508 .zero [] []).map endOf = some (0x8_0406, 0x508, 0) ∧
    (ran 0x403 .zero [] []).map endOf = some (0x3_0406, 0x403, 0) := by decide

/-- V-VAL-1. -/
theorem test_ufill : (ran 0x101 { Descriptors.zero with dst := 60, len := 4 } [] (oks [1, 2, 3, 4])).map
    (fun t => (cellsOf t [60, 61, 62, 63], counts t)) = some ([some 1, some 2, some 3, some 4], 4, 0) := by decide

/-- V-SMP-4. -/
theorem test_ufill_failed_draw : (ran 0x101 { Descriptors.zero with dst := 8, len := 3 } [] [.ok 1, .fail]).map
    (fun t => (endOf t, counts t, (cellsOf t [8, 9, 10]).map Option.isSome)) =
      some ((0x1_0306, 1, 0), (1, 0), [true, true, true]) := by decide

/-- V-SMP-6: the noise -3. -/
theorem test_nfill : (ran 0x102 { Descriptors.zero with disp := 0x80_0000_0000, dst := 0, len := 1 } []
    [.ok (BitVec.ofInt 64 (-3))]).map (fun t => (cellsOf t [0], counts t)) = some ([some 0xFFFF_FFFD], 0, 1) := by decide

/-- V-SMP-8. -/
theorem test_nfill_failed_draw : (ran 0x102 { Descriptors.zero with disp := 1, dst := 0, len := 2 } [] [.ok 5, .fail]).map
    (fun t => (endOf t, counts t)) = some ((0x2_0306, 2, 0), (0, 1)) := by decide

/-- The operands of V-ACC-1, from cell 16 and from cell 0. -/
def dotCells32 : List (Nat × Word) :=
  [(0, 0x00000001), (1, 0xFFFFFFFF), (2, 0x00000002), (3, 0x80000000),
    (16, 0x12345678), (17, 0x9ABCDEF0), (18, 0x0F0F0F0F), (19, 0xDEADBEEF)]

/-- The operands of V-ACC-3. -/
def dotCells64 : List (Nat × Word) :=
  [(0, 0x00000001), (1, 0xFFFFFFFF), (2, 0x00000002), (3, 0x80000000),
    (16, 0x0123456789ABCDEF), (17, 0xFEDCBA9876543210), (18, 0x1111111111111111), (19, 0x8000000000000000)]

/-- SRCA = 16, SRCB = 0, LEN = 4. -/
def dotOperands : Descriptors := { Descriptors.zero with srcA := 16, srcB := 0, len := 4 }

/-- V-ACC-1. -/
theorem test_dot32 : (ran 0x108 dotOperands dotCells32 []).map State.acc = some 0x1595_95A6 := by decide

/-- V-ACC-3. -/
theorem test_dot64 : (ran 0x308 dotOperands dotCells64 []).map State.acc = some 0x9ABC_DF01_3579_BE01 := by decide

/-- V-ACC-12. -/
theorem test_dota : (after (step { busyBlock 0x109 .zero [] [] with acc := 0xFFFF_FFFF_0000_0005 })).map State.acc =
    some 0x5 := by decide

/-- V-ACC-11. -/
theorem test_dots : (after (step { busyBlock 0x10A dotOperands dotCells32 [] with acc := 0x15C5_95A6 })).map State.acc =
    some 0x0030_0000 := by decide

/-- V-ACC-13. -/
theorem test_accld : (ran 0x10B .zero [(0, 0xAAAA_BBBB_CCCC_DDDD)] []).map State.acc = some 0xCCCC_DDDD := by decide

/-- V-ACC-16. -/
theorem test_accld_out_of_range : (ran 0x10B { Descriptors.zero with srcA := 64 } [] []).map endOf =
    some (0xB_0506, 4, 64) := by decide

/-- V-ACC-9. -/
theorem test_accadd : (after (step { busyBlock 0x30C .zero [(0, 2)] [] with acc := 0xFFFF_FFFF_FFFF_FFFF })).map State.acc =
    some 1 := by decide

/-- V-ACC-14. -/
theorem test_accst : (after (step { busyBlock 0x10D { Descriptors.zero with dst := 7 } [] [] with
    acc := 0x1234_5678_9ABC_DEF0 })).map (fun t => (cellsOf t [7], t.acc)) =
      some ([some 0x9ABC_DEF0], 0x1234_5678_9ABC_DEF0) := by decide

/-- The set-up of V-ENC-1: key cells 0 to 3, the plaintext in cell 8. -/
def lweCells : List (Nat × Word) := [(0, 0x00000001), (1, 0xFFFFFFFF), (2, 0x00000002), (3, 0x80000000), (8, 0x0030_0000)]

/-- The descriptors of V-ENC-1. -/
def lweOperands : Descriptors := { Descriptors.zero with keyDim := 4, ctBase := 16, ctSize := 5, ptBase := 8 }

/-- The uniform draws of V-ENC-1. -/
def lweMask : List Word := [0x12345678, 0x9ABCDEF0, 0x0F0F0F0F, 0xDEADBEEF]

/-- V-ENC-1. -/
theorem test_enc_lwe : (ran 0x110 lweOperands lweCells (oks (lweMask ++ [0]))).map
    (fun t => (cellsOf t [16, 17, 18, 19, 20], endOf t, counts t)) =
      some (lweMask.map some ++ [some 0x15C5_95A6], (0x10_0002, 0, 0), (4, 1)) := by decide

/-- V-VAL-7, V-VAL-5, V-VAL-6 and V-VAL-4: shape before address, address before overlap, CT against KEY before CT against PT. -/
theorem test_enc_lwe_validation :
    (ran 0x110 { lweOperands with ctSize := 4, ctBase := 62 } [] []).map endOf = some (0x10_0106, 5, 4) ∧
    (ran 0x110 { lweOperands with keyBase := 12, ctBase := 10, ptBase := 30 } [] []).map endOf = some (0x10_0606, 2, 1) ∧
    (ran 0x110 { lweOperands with keyBase := 12, ctBase := 10, ptBase := 11 } [] []).map endOf = some (0x10_0606, 2, 1) ∧
    (ran 0x110 { lweOperands with keyBase := 0xFFFF_FFFF_FFFF_FFFF, keyDim := 2, ctSize := 3, ctBase := 10, ptBase := 20 }
      [] []).map endOf = some (0x10_0506, 1, 0xFFFF_FFFF_FFFF_FFFF) := by decide

/-- The key and plaintext of V-ENC-3. -/
def glweCells : List (Nat × Word) :=
  [(0, 1), (1, 0), (2, 1), (3, 1), (4, 0), (5, 1), (6, 1), (7, 0),
    (8, 0x000C_0000_0000_0000), (9, 0x000C_0000_0000_0000), (10, 0x000C_0000_0000_0000), (11, 0x000C_0000_0000_0000)]

/-- The descriptors of V-ENC-3. -/
def glweOperands : Descriptors :=
  { Descriptors.zero with keyDim := 2, keyPoly := 4, ctBase := 16, ctSize := 3, ctPoly := 4, ptBase := 8, ptCount := 4 }

/-- The uniform draws of V-ENC-3. -/
def glweMask : List Word :=
  [0x0123456789ABCDEF, 0xFEDCBA9876543210, 0x1111111111111111, 0x8000000000000000,
    0x0000000000000001, 0xFFFFFFFFFFFFFFFF, 0x2222222222222222, 0x7FFFFFFFFFFFFFFF]

/-- V-ENC-4: the noise 1, -2, 0, 3. -/
theorem test_enc_glwe : (ran 0x710 { glweOperands with disp := 1 } glweCells
    (oks (glweMask ++ [1, BitVec.ofInt 64 (-2), 0, 3]))).map (fun t => (cellsOf t [24, 25, 26, 27], counts t)) =
      some ([some 0x4F1F579BE02468AE, some 0xEDD7A987654320FF, some 0x924056789ABCDF00, some 0xA22E222222222223], 8, 4) := by
  decide

/-- V-GSH-1, V-GSH-3 and V-GSH-5. -/
theorem test_enc_glwe_validation :
    (ran 0x710 { glweOperands with keyPoly := 0, ctPoly := 0, ptCount := 0 } [] []).map endOf = some (0x10_0106, 1, 0) ∧
    (ran 0x710 { glweOperands with ctPoly := 8 } [] []).map endOf = some (0x10_0106, 4, 8) ∧
    (ran 0x710 { glweOperands with ctSize := 2, ptCount := 3 } [] []).map endOf = some (0x10_0106, 3, 2) := by decide

/-- V-AENC-1. -/
theorem test_aenc_lwe : (ran 0x111 { lweOperands with ctSize := 99 } lweCells (oks (lweMask ++ [0]))).map
    (fun t => (cellsOf t [20], t.desc.ctSize, t.errcode)) = some ([some 0x15C5_95A6], 5, 0) := by decide

/-- V-AENC-1 with a draw that fails: CT_SIZE stays. -/
theorem test_aenc_lwe_failed_draw : (ran 0x111 { lweOperands with ctSize := 99 } lweCells (oks (lweMask.take 2) ++ [.fail])).map
    (fun t => (t.desc.ctSize, t.errcode)) = some (99, 3) := by decide

/-- V-AENC-2. -/
theorem test_aenc_glwe : (ran 0x711 { glweOperands with ctSize := 0, ctPoly := 0 } glweCells
    (oks (glweMask ++ [0, 0, 0, 0]))).map (fun t => (cellsOf t [24, 27], t.desc.ctSize, t.desc.ctPoly)) =
      some ([some 0x4F1F579BE02468AD, some 0xA22E222222222220], 3, 4) := by decide

/-- V-ZENC-1: the plaintext cell holds no value. -/
theorem test_zenc_lwe : (ran 0x112 { lweOperands with ptBase := 50 } lweCells (oks (lweMask ++ [0]))).map
    (fun t => cellsOf t [20]) = some [some 0x1595_95A6] := by decide

/-- V-ZENC-2: the negacyclic sign. -/
theorem test_zenc_glwe : (ran 0x512 { Descriptors.zero with keyDim := 1, keyPoly := 2, ctBase := 16, ctSize := 2, ctPoly := 2 }
    [(0, 11), (1, 13)] (oks [5, 7, 0, 0])).map (fun t => cellsOf t [16, 17, 18, 19]) =
      some [some 5, some 7, some 0xFFFF_FFDC, some 0x8E] := by decide

/-- V-TENC-1. -/
theorem test_tenc_lwe : (ran 0x113 lweOperands lweCells []).map (fun t => (cellsOf t [16, 17, 18, 19, 20], counts t)) =
    some ([some 0, some 0, some 0, some 0, some 0x0030_0000], 0, 0) := by decide

/-- V-TENC-3. -/
theorem test_tenc_glwe : (ran 0x713 glweOperands glweCells []).map (fun t => cellsOf t [16, 23, 24, 27]) =
    some [some 0, some 0, some 0x000C_0000_0000_0000, some 0x000C_0000_0000_0000] := by decide

/-- V-TENC-3 with PT_COUNT = 3. -/
theorem test_tenc_glwe_validation : (ran 0x713 { glweOperands with ptCount := 3 } [] []).map endOf = some (0x13_0106, 4, 3) := by
  decide

/-- V-ATENC-1. -/
theorem test_atenc_lwe : (ran 0x114 lweOperands lweCells []).map (fun t => cellsOf t [16, 19, 20]) =
    some [some 0, some 0, some 0x0030_0000] := by decide

/-- R119: V-TENC-3's result by ATENC. -/
theorem test_atenc_glwe : (ran 0x714 glweOperands glweCells []).map (fun t => cellsOf t [16, 23, 24, 27]) =
    some [some 0, some 0, some 0x000C_0000_0000_0000, some 0x000C_0000_0000_0000] := by decide

/-- V-ENC-1's decryption. -/
theorem test_dec_lwe : (ran 0x118 { lweOperands with ptBase := 9 } (dotCells32 ++ [(20, 0x15C5_95A6)]) []).map
    (fun t => cellsOf t [9]) = some [some 0x0030_0000] := by decide

/-- E-6 and V-VAL-8. -/
theorem test_dec_lwe_validation : (ran 0x118 { lweOperands with keyDim := 3 } [] []).map endOf = some (0x18_0106, 4, 5) ∧
    (ran 0x118 { lweOperands with ptBase := 20 } [] []).map endOf = some (0x18_0606, 3, 2) := by decide

/-- V-ZENC-2's decryption: two results and no third. -/
theorem test_dec_glwe : (ran 0x518 { Descriptors.zero with
      keyDim := 1, keyPoly := 2, ctBase := 16, ctSize := 2, ctPoly := 2, ptBase := 32, ptCount := 2 }
    [(0, 11), (1, 13), (16, 5), (17, 7), (18, 0xFFFF_FFDC), (19, 0x8E)] []).map (fun t => cellsOf t [32, 33, 34]) =
      some [some 0, some 0, none] := by decide

/-- The key and plaintexts of V-ENCL-1. -/
def listCells : List (Nat × Word) := [(0, 3), (1, 5), (8, 0x4000_0000), (9, 0xC000_0000)]

/-- The descriptors of V-ENCL-1. -/
def listOperands : Descriptors :=
  { Descriptors.zero with keyDim := 2, ctBase := 16, ctSize := 3, ctCount := 2, ptBase := 8, ptCount := 2 }

/-- V-ENCL-1. -/
theorem test_encl : (ran 0x120 listOperands listCells (oks [0x10, 0x20, 0, 0xFFFF_FFF0, 1, 0])).map
    (fun t => (cellsOf t [16, 17, 18, 19, 20, 21], counts t)) =
      some ([some 0x10, some 0x20, some 0x4000_00D0, some 0xFFFF_FFF0, some 1, some 0xBFFF_FFD5], 4, 2) := by decide

/-- V-ENCL-4. -/
theorem test_encl_failed_draw : (ran 0x120 listOperands listCells (oks [0x10, 0x20, 0, 0xFFFF_FFF0] ++ [.fail])).map
    (fun t => (cellsOf t [16, 17, 18], (cellsOf t [19, 20, 21]).map Option.isSome, endOf t, counts t)) =
      some ([some 0x10, some 0x20, some 0x4000_00D0], [true, true, true], (0x20_0306, 1, 0), (3, 1)) := by decide

/-- E-7 (a), V-ENCL-3 and V-VAL-12. -/
theorem test_encl_counts : (ran 0x120 { listOperands with ctCount := 4, ptCount := 3 } [] []).map endOf = some (0x20_0206, 4, 3) ∧
    (ran 0x120 { listOperands with ctCount := 0, ptCount := 0 } [] []).map (fun t => (endOf t, counts t, t.mem)) =
      some ((0x20_0002, 0, 0), (0, 0), []) ∧
    (ran 0x120 { listOperands with ctSize := 4, ctCount := 4, ptCount := 3 } [] []).map endOf = some (0x20_0106, 3, 4) := by
  decide

/-! ### The host port and the life of a command -/

/-- V-HOST-1, V-HOST-6, V-HOST-9, V-HOST-10 and V-HOST-12. -/
theorem test_host_accesses :
    (after ({ State.reset with mem := bufOf [(0, 0x1122_3344_5566_7788)] }.hostAccess ⟨.b32, 0x100000, .read⟩)).map
      State.readData = some 0x5566_7788 ∧
    (after ({ State.reset with mem := bufOf [(0, 0x1122_3344_5566_7788)] }.hostAccess ⟨.b32, 0x100004, .read⟩)).map
      State.readData = some 0x1122_3344 ∧
    stop (State.reset.hostAccess ⟨.b16, 0x100000, .read⟩) = some .hostBusError ∧
    stop (State.reset.hostAccess ⟨.b64, 0x100004, .read⟩) = some .hostBusError ∧
    stop (State.reset.hostAccess ⟨.b64, 0x001000, .read⟩) = some .hostBusError ∧
    stop (State.reset.hostAccess ⟨.b64, 0x100200, .read⟩) = some .hostBusError ∧
    stop (State.reset.hostAccess ⟨.b64, 0x100028, .read⟩) = some .uninitRead := by decide

/-- V-AENC-1 with a draw failure: code 3, and CT_SIZE stays 99. -/
theorem test_aenc_failed_draw : (ran 0x111 { lweOperands with ctSize := 99 } lweCells (oks (lweMask.take 2) ++ [.fail])).map
    (fun t => (endOf t, counts t, t.desc.ctSize)) = some ((0x11_0306, 1, 0), (2, 0), 99) := by decide

/-- V-HOST-7, V-HOST-8 and V-HOST-11. -/
theorem test_host_registers :
    (after (State.reset.hostAccess ⟨.b64, 0x000000, .read⟩)).map State.readData = some 0x5446_4845_0007_0001 ∧
    (after ({ State.reset with readData := 1 }.hostAccess ⟨.b64, 0x000FF8, .read⟩)).map State.readData = some 0 ∧
    (after (State.reset.hostAccess ⟨.b32, 0x00005C, .write 0xDEAD_BEEF⟩)).map (fun t => t.desc.keyDim) =
      some 0xDEAD_BEEF_0000_0000 := by decide

/-- V-ST-3: a write while BUSY, and the block's step. -/
theorem test_write_while_busy : (after (Sys2Proof.core.run 3 { State.reset with
    inputs := [scriptWr .cmd 0x300, scriptWr .len 9, .block] })).map (fun t => (t.desc.len, t.statusWord)) = some (0, 0xA) := by
  decide

/-- V-ST-6 and V-ST-8: the interrupt. -/
theorem test_interrupt : (after (Sys2Proof.core.run 3 { State.reset with
      inputs := [scriptWr .ctrl 1, scriptWr .cmd 0x300, .block] })).map (fun t => (t.statusWord, t.irq)) = some (0x2, true) ∧
    (after (Sys2Proof.core.run 4 { State.reset with
      inputs := [scriptWr .ctrl 1, scriptWr .cmd 0x300, .block, scriptWr .ctrl 0] })).map (fun t => (t.statusWord, t.irq)) =
      some (0x2, false) := by decide

/-- V-ST-12: a soft reset while ENC.LWE runs. -/
theorem test_soft_reset_while_busy : (after ((busyBlock 0x110 lweOperands
    (lweCells ++ [(16, 1), (17, 1), (18, 1), (19, 1), (20, 1)]) []).hostAccess ⟨.b64, 0x10, .write 2⟩)).map
    (fun t => (t.statusWord, cellsOf t [16, 17, 18, 19, 20], cellsOf t [3, 8])) =
      some (0, [none, none, none, none, none], [some 0x80000000, some 0x0030_0000]) := by decide

/-! ### Witnesses: for each statement with hypotheses, a state and operands that meet all of them -/

/-- A next state read off by `after` is the outcome's. -/
theorem eq_next_of_after {o : Host.Outcome State Fault Refusal} {t : State} (h : after o = some t) : o = .next t := by
  cases o with
  | next u => simpa [after] using h
  | fault f => cases h
  | refused r => cases h

/-- An outcome whose next state passes a check has a next state that does. -/
theorem next_of_any {o : Host.Outcome State Fault Refusal} {p : State → Bool} (h : (after o).any p = true) :
    ∃ t, o = .next t ∧ p t = true := by
  cases o with
  | next u => exact ⟨u, rfl, by simpa [after] using h⟩
  | fault f => cases h
  | refused r => cases h

/-- A checkable form of `keepsCells`. -/
theorem keepsCells_of_bytes {s t : State} {base len : Nat}
    (h : ∀ i < 8 * len, t.mem.readByte (8 * base + i) = s.mem.readByte (8 * base + i)) : keepsCells s t base len :=
  fun a h1 h2 => by
    have := h (a - 8 * base) (by omega)
    rwa [show 8 * base + (a - 8 * base) = a by omega] at this

/-- DecodeByMaskAndMatch, its clauses on a Busy block: an illegal word latched, no input pending or the block's turn. -/
theorem witness_DecodeByMaskAndMatch : (busyBlock 0x403 .zero [] []).phase = .busy ∧ (busyBlock 0x403 .zero [] []).inputs = [] ∧
    wordWellFormed (busyBlock 0x403 .zero [] []).latch.cmd = false ∧
    { busyBlock 0x403 .zero [] [] with inputs := [.block, .reset] }.inputs = .block :: [.reset] := by decide

/-- CellWriteGivesBothHalves: the last cell, and the first address past it. -/
theorem witness_CellWriteGivesBothHalves : 63 < State.reset.bufWords ∧ State.reset.bufWords ≤ 64 := by decide

/-- ElementTakesOneCell: a cell with both halves, and the last cell with its low half alone. -/
theorem witness_ElementTakesOneCell :
    (0 < State.reset.bufWords ∧ (bufOf [(0, 0xFFFF_FFFF_FFFF_FFFF)]).readCell 0 = some 0xFFFF_FFFF_FFFF_FFFF) ∧
    (63 < State.reset.bufWords ∧ Memory.readHalf (Memory.writeHalf [] 126 7) 126 = some 7 ∧
      Memory.readHalf (Memory.writeHalf [] 126 7) 127 = none) := by decide

/-- UnvaluedHalfFaults: the last cell without its low half, and without its high half, for a command and for the host. -/
theorem witness_UnvaluedHalfFaults :
    (63 < (busyBlock 0x10B .zero [] []).bufWords ∧ (busyBlock 0x10B .zero [] []).phase = .busy ∧
      (busyBlock 0x10B .zero [] []).mem.readHalf 126 = none ∧ (busyBlock 0x10B .zero [] []).mem.readHalf 127 = none) ∧
    (63 < State.reset.bufWords ∧ State.reset.phase = .idle ∧ State.reset.bufWords ≤ 2 ^ 20 ∧
      Memory.readHalf (Memory.writeHalf [] 127 7) 126 = none) ∧
    Memory.readHalf (Memory.writeHalf [] 126 7) 127 = none := by decide

/-- BusErrorsExactly: an offset on each side of each boundary. -/
theorem witness_BusErrorsExactly :
    stop (State.reset.hostAccess ⟨.b64, 0x0FF8, .read⟩) = none ∧
    stop (State.reset.hostAccess ⟨.b64, 0x1000, .read⟩) = some .hostBusError ∧
    stop (State.reset.hostAccess ⟨.b32, 0x0FFFFC, .write 0⟩) = some .hostBusError ∧
    stop (State.reset.hostAccess ⟨.b64, 0x1001F8, .write 0⟩) = none ∧
    stop (State.reset.hostAccess ⟨.b64, 0x100200, .write 0⟩) = some .hostBusError ∧
    stop (State.reset.hostAccess ⟨.b128, 0x0, .read⟩) = some .hostBusError ∧
    stop (State.reset.hostAccess ⟨.b32, 0x2, .read⟩) = some .hostBusError := by decide

/-- BufferAccessWhileBusyFaults: the last cell. -/
theorem witness_BufferAccessWhileBusyFaults : (busyBlock 0x300 .zero [] []).phase = .busy ∧
    63 < (busyBlock 0x300 .zero [] []).bufWords ∧ (busyBlock 0x300 .zero [] []).bufWords ≤ 2 ^ 20 := by decide

/-- HostSeesLittleEndianLanes: the first and the last cell of the largest BUF. -/
theorem witness_HostSeesLittleEndianLanes : (State.powerOn (2 ^ 20)).phase = .idle ∧ 0 < (State.powerOn (2 ^ 20)).bufWords ∧
    2 ^ 20 - 1 < (State.powerOn (2 ^ 20)).bufWords ∧ (State.powerOn (2 ^ 20)).bufWords ≤ 2 ^ 20 := by decide

/-- RegisterWriteStores: the first and the last stored register and NCFG, in the three forms. -/
theorem witness_RegisterWriteStores : State.reset.phase = .idle ∧ Reg.acc ∈ storedRegs ∧ Reg.len ∈ storedRegs ∧
    Reg.ncfg ∈ storedRegs ∧ (AccessSize.b64 = .b64 ∧ 0 = 0) ∧ (AccessSize.b32 = .b32 ∧ 4 = 4) ∧
    ((0xFFFF_FFFF_0000_0007 : Word).extractLsb' 0 32 ++ (State.reset.readReg .acc).extractLsb' 0 32 : Word) =
      0x0000_0007_0000_0000 := by decide

/-- ReadOnlyAndReservedIgnoreWrites: both ends of the reserved offsets. -/
theorem witness_ReadOnlyAndReservedIgnoreWrites : (0x0C8 ≤ 0x0C8 ∧ 0x0C8 < 0x1000 ∧ 0x0C8 % 8 = 0) ∧
    (0x0C8 ≤ 0xFFC ∧ 0xFFC < 0x1000 ∧ 0xFFC % 4 = 0) := by decide

/-- WritesWhileBusyAreDropped. -/
theorem witness_WritesWhileBusyAreDropped : (busyBlock 0x300 .zero [] []).phase = .busy ∧ Reg.cmd ∈ Reg.cmd :: storedRegs ∧
    Reg.disp ∈ storedRegs := by decide

/-- CtrlWriteOrSoftReset: data without bit 1, and with it, in each phase. -/
theorem witness_CtrlWriteOrSoftReset : (0x5 : Word).getLsbD 1 = false ∧ (0x2 : Word).getLsbD 1 = true ∧
    State.reset.phase = .idle ∧ (busyBlock 0x300 .zero [] []).phase = .busy := by decide

/-- SoftResetAbandonsTheCommand: ENC.LWE running, and an illegal word latched. -/
theorem witness_SoftResetAbandonsTheCommand :
    (busyBlock 0x110 lweOperands [(16, 1)] []).phase = .busy ∧ (0x3 : Word).getLsbD 1 = true ∧
    decode (busyBlock 0x110 lweOperands [(16, 1)] []).latch.cmd = .ok (.encLwe .checked .w32) ∧
    writtenRegions lweOperands (.encLwe .checked .w32) = [⟨.ct, 16, 5⟩] ∧
    wordWellFormed (busyBlock 0x403 lweOperands [(16, 1)] []).latch.cmd = false := by decide

/-- PowerOnReset: the reset input pending while a command runs. -/
theorem witness_PowerOnReset :
    { busyBlock 0x110 lweOperands [(16, 1)] [] with inputs := [.reset, .block] }.inputs = .reset :: [.block] := by decide

/-- CommandWriteStarts: both widths, both phases. -/
theorem witness_CommandWriteStarts :
    (AccessSize.b64 = .b64 ∧ (0x110 : Word) = 0x110) ∧
    (AccessSize.b32 = .b32 ∧ (0x300 : Word) = ((0xFFFF_FFFF_0000_0300 : Word).extractLsb' 0 32).setWidth 64) ∧
    State.reset.phase = .idle ∧ (busyBlock 0x300 .zero [] []).phase = .busy := by decide

/-- HostReadsHaveNoSideEffects: a read that answers, a stable register while Busy. -/
theorem witness_HostReadsHaveNoSideEffects :
    (∃ t, (busyBlock 0x300 .zero [] []).hostAccess ⟨.b64, 0x18, .read⟩ = .next t ∧ (t.readData == 1) = true) ∧
    Reg.status ∉ [Reg.acc, .ctSize, .ctPoly, .errinfo0, .errinfo1, .ucount, .ncount] ∧ State.reset.phase = .idle :=
  ⟨next_of_any (by decide), by decide, by decide⟩

/-- InterruptLevel: a completed command, and an Idle block. -/
theorem witness_InterruptLevel : (∃ t, exec (.nop .checked .w32) { busyBlock 0x100 .zero [] [] with ie := true } = .next t ∧
    t.irq = true) ∧ State.reset.phase = .idle :=
  ⟨next_of_any (by decide), by decide⟩

/-- StepRunsTheLatchedCommand: the turn pending or not, Busy and Idle, and a host access pending. -/
theorem witness_StepRunsTheLatchedCommand :
    (busyBlock 0x110 .zero [] []).phase = .busy ∧ decode (busyBlock 0x110 .zero [] []).latch.cmd = .ok (.encLwe .checked .w32) ∧
    (busyBlock 0x110 .zero [] []).inputs = [] ∧
    { busyBlock 0x110 .zero [] [] with inputs := [.block, .reset] }.inputs = .block :: [.reset] ∧
    State.reset.phase = .idle ∧ State.reset.inputs = [] ∧
    { State.reset with inputs := [scriptRd .id] }.inputs = .host ⟨.b64, regOffset .id, .read⟩ :: [] := by decide

/-- A Busy state that meets the invariant: ACCST about to store, one cell of BUF valued. -/
def storing : State := { ({ State.powerOn 4 with desc := { Descriptors.zero with dst := 3 } } : State).start 0x10D with
  mem := Memory.writeCell [] 0 5 }

/-- EveryStepKeepsTheInvariant. -/
theorem witness_EveryStepKeepsTheInvariant : storing.Inv ∧ ∃ t, step storing = .next t ∧ (t.mem.readCell 3 == some 0) = true := by
  refine ⟨⟨by decide, by decide, by decide, ?_, by decide, by decide, by decide, by decide, by decide, by decide⟩,
    next_of_any (by decide)⟩
  exact Memory.halvesWhole_writeCell Memory.halvesWhole_nil 0 5

/-- InvariantHoldsAtReset: both ends of the range. -/
theorem witness_InvariantHoldsAtReset : (1 ≤ 1 ∧ 1 ≤ 2 ^ 20) ∧ 1 ≤ 2 ^ 20 ∧ 2 ^ 20 ≤ 2 ^ 20 := by decide

/-- EveryCommandCompletes: with code 0 and with a code. -/
theorem witness_EveryCommandCompletes :
    (∃ t, exec (.accst .checked .w32) storing = .next t ∧ (t.errcode == 0) = true) ∧
    ∃ t, exec (.tencLwe .checked .w32) storing = .next t ∧ (t.errcode == 1) = true :=
  ⟨next_of_any (by decide), next_of_any (by decide)⟩

/-- CommandsKeepOtherRegisters: ACC changed by ACCLD, CT_SIZE and CT_POLY by AENC.GLWE. -/
theorem witness_CommandsKeepOtherRegisters :
    (∃ t, exec (.accld .checked .w32) (busyBlock 0x10B .zero [(0, 7)] []) = .next t ∧ (t.acc == 7) = true) ∧
    ∃ t, exec (.aencGlwe .checked .w32) (busyBlock 0x511 { Descriptors.zero with keyPoly := 1, ptCount := 1, ptBase := 9 }
      [(9, 2)] (oks [0])) = .next t ∧ (t.desc.ctSize == 1 && t.desc.ctPoly == 1 && t.ncount != 0) = true :=
  ⟨next_of_any (by decide), next_of_any (by decide)⟩

/-- CommandsWriteTheirRegionsOnly: a store, and an error. -/
theorem witness_CommandsWriteTheirRegionsOnly :
    (∃ t, exec (.accst .checked .w32) storing = .next t ∧ (t.mem.readCell 0 == some 5) = true) ∧
    ∃ t, exec (.accst .checked .w32) { storing with latch := ⟨0x10D, { Descriptors.zero with dst := 4 }⟩ } = .next t ∧
      (t.errcode != 0 && t.errcode != 3) = true :=
  ⟨next_of_any (by decide), next_of_any (by decide)⟩

/-- SecretKeyIsNeverWritten: ENC.LWE and ZENC.GLWE that write their ciphertexts. -/
theorem witness_SecretKeyIsNeverWritten :
    (∃ t, exec (.encLwe .checked .w32) (busyBlock 0x110 lweOperands lweCells (oks (lweMask ++ [0]))) = .next t ∧
      (t.errcode == 0) = true) ∧
    ∃ t, exec (.zencGlwe .checked .w32) (busyBlock 0x512
      { Descriptors.zero with keyDim := 1, keyPoly := 2, ctBase := 16, ctSize := 2, ctPoly := 2 } [(0, 11), (1, 13)]
      (oks [5, 7, 0, 0])) = .next t ∧ (t.errcode == 0) = true :=
  ⟨next_of_any (by decide), next_of_any (by decide)⟩

/-- DrawsObeyTheirLaws: a delivered uniform draw, a delivered noise draw, a failed one. -/
theorem witness_DrawsObeyTheirLaws :
    (busyBlock 0x101 .zero [] (oks [7])).answerAt 0 (.uniform .w32) = .ok 7 ∧
    (busyBlock 0x102 .zero [] (oks [7])).answerAt 0 (.noise .w64 1 .variance) = .ok 7 ∧
    (busyBlock 0x101 .zero [] [.fail]).answerAt 0 (.uniform .w32) = .fail := by decide

/-- CheckedAndUncheckedEntries: a false predicate, and none. -/
theorem witness_CheckedAndUncheckedEntries :
    firstFailure (validation 64 { lweOperands with ctSize := 4 } (.encLwe .checked .w32)) = some ⟨.shapeMismatch, 5, 4⟩ ∧
    firstFailure (validation 64 lweOperands (.encLwe .checked .w32)) = none := by decide

/-- CommandsCompleteUnlessAnOperandIsUnvalued: a false predicate, an operand that cannot be read, all operands readable. -/
theorem witness_CommandsComplete :
    (entryOf (.accld .checked .w64) = .checked ∧
      firstFailure (validation 64 { Descriptors.zero with srcA := 64 } (.accld .checked .w64)) ≠ none) ∧
    (firstFailure (validation 64 Descriptors.zero (.accld .checked .w64)) = none ∧
      operandRegions Descriptors.zero (.accld .checked .w64) = [⟨.srcA, 0, 1⟩] ∧
      (busyBlock 0x30B .zero [] []).readElem .w64 0 = .fault .uninitRead ∧
      (busyBlock 0x30B .zero [(0, 7)] []).readElem .w64 0 = .done 7) := by decide

/-- InnerProductReducedOnceOrPerTerm: the terms backwards. -/
theorem witness_InnerProductReducedOnceOrPerTerm : [2, 1, 0].Perm (List.range 3) := by decide

/-- SamplersWriteTheirDraws: two uniform draws and two noise draws into the last two cells. -/
theorem witness_SamplersWriteTheirDraws :
    Fits 64 62 2 ∧ Delivers (busyBlock 0x101 { Descriptors.zero with dst := 62, len := 2 } [] (oks [9, 0x1_0000_0002]))
      0 (.uniform .w32) 2 (wordSeq [9, 0x1_0000_0002]) ∧
    Delivers (busyBlock 0x102 { Descriptors.zero with dst := 62, len := 2, disp := 3 } [] (oks [9, 8]))
      0 (noiseRequest .w32 { Descriptors.zero with dst := 62, len := 2, disp := 3 }) 2 (wordSeq [9, 8]) := by decide

/-- InnerProductCommands: V-ACC-10's operands. -/
theorem witness_InnerProductCommands :
    Fits 64 16 1 ∧ Fits 64 0 1 ∧
    Readable (busyBlock 0x10A { dotOperands with len := 1 } [(16, 2), (0, 3)] []) .w32 16 1 (seq [2]) ∧
    Readable (busyBlock 0x10A { dotOperands with len := 1 } [(16, 2), (0, 3)] []) .w32 0 1 (seq [3]) := by decide

/-- AccumulatorLoadAndAdd: past the end, the last cell readable, the last cell without a value. -/
theorem witness_AccumulatorLoadAndAdd :
    (busyBlock 0x10B { Descriptors.zero with srcA := 64 } [] []).bufWords ≤ 64 ∧
    (63 < (busyBlock 0x10B { Descriptors.zero with srcA := 63 } [(63, 7)] []).bufWords ∧
      (busyBlock 0x10B { Descriptors.zero with srcA := 63 } [(63, 7)] []).readElem .w32 63 = .done 7) ∧
    (busyBlock 0x10B { Descriptors.zero with srcA := 63 } [] []).readElem .w32 63 = .fault .uninitRead := by decide

/-- AccumulatorStore: past the end, and the last cell. -/
theorem witness_AccumulatorStore : (busyBlock 0x10D { Descriptors.zero with dst := 64 } [] []).bufWords ≤ 64 ∧
    63 < (busyBlock 0x10D { Descriptors.zero with dst := 63 } [] []).bufWords := by decide

/-- EncLweEncrypts, AencLweEncryptsAndReportsSize and ZencLweEncryptsZero: V-ENC-1. -/
theorem witness_EncLwe :
    lweOperands.ctSize.toNat = 4 + 1 ∧ Fits 64 16 (4 + 1) ∧ Apart 16 (4 + 1) 0 4 ∧ Apart 16 (4 + 1) 8 1 ∧
    Readable (busyBlock 0x110 lweOperands lweCells (oks (lweMask ++ [0]))) .w32 0 4
      (seq [0x00000001, 0xFFFFFFFF, 0x00000002, 0x80000000]) ∧
    (busyBlock 0x110 lweOperands lweCells (oks (lweMask ++ [0]))).readElem .w32 8 = .done 0x0030_0000 ∧
    Delivers (busyBlock 0x110 lweOperands lweCells (oks (lweMask ++ [0]))) 0 (.uniform .w32) 4 (wordSeq lweMask) ∧
    (busyBlock 0x110 lweOperands lweCells (oks (lweMask ++ [0]))).answerAt 4 (noiseRequest .w32 lweOperands) = .ok 0 := by
  decide

/-- The operands of V-ZENC-2 with a plaintext. -/
def smallGlwe : Descriptors :=
  { Descriptors.zero with keyDim := 1, keyPoly := 2, ctBase := 16, ctSize := 2, ctPoly := 2, ptBase := 8, ptCount := 2 }

/-- The state of V-ZENC-2 with a plaintext. -/
def smallGlweBlock : State := busyBlock 0x510 smallGlwe [(0, 11), (1, 13), (8, 20), (9, 30)] (oks [5, 7, 1, 2])

/-- EncGlweEncrypts, AencGlweEncryptsAndReportsSizes and ZencGlweEncryptsZero. -/
theorem witness_EncGlwe :
    1 ≤ smallGlwe.keyPoly.toNat ∧ smallGlwe.ctSize.toNat = 1 + 1 ∧ smallGlwe.ctPoly = smallGlwe.keyPoly ∧
    smallGlwe.ptCount = smallGlwe.keyPoly ∧ Fits 64 16 ((1 + 1) * 2) ∧ Apart 16 ((1 + 1) * 2) 0 (1 * 2) ∧
    Apart 16 ((1 + 1) * 2) 8 2 ∧ Readable smallGlweBlock .w32 0 (1 * 2) (seq [11, 13]) ∧
    Readable smallGlweBlock .w32 8 2 (seq [20, 30]) ∧ Delivers smallGlweBlock 0 (.uniform .w32) (1 * 2) (wordSeq [5, 7]) ∧
    Delivers smallGlweBlock (1 * 2) (noiseRequest .w32 smallGlwe) 2 (wordSeq [1, 2]) := by decide

/-- TrivialLweEncrypts: V-TENC-1, and one cell alone. -/
theorem witness_TrivialLwe : (1 ≤ 5 ∧ Fits 64 16 5 ∧ Apart 16 5 8 1) ∧ (1 ≤ 1 ∧ Fits 64 63 1 ∧ Apart 63 1 8 1) ∧
    (busyBlock 0x113 lweOperands lweCells []).readElem .w32 8 = .done 0x0030_0000 := by decide

/-- TrivialGlweEncrypts. -/
theorem witness_TrivialGlwe : 1 ≤ smallGlwe.ctSize.toNat ∧ 1 ≤ smallGlwe.ctPoly.toNat ∧ smallGlwe.ptCount = smallGlwe.ctPoly ∧
    Fits 64 16 (2 * 2) ∧ Apart 16 (2 * 2) 8 2 ∧ Readable smallGlweBlock .w32 8 2 (seq [20, 30]) := by decide

/-- The state of V-ENC-1's decryption. -/
def decBlock : State := busyBlock 0x118 { lweOperands with ptBase := 9 } (dotCells32 ++ [(20, 0x15C5_95A6)]) []

/-- DecLweDecrypts: V-ENC-1. -/
theorem witness_DecLwe : lweOperands.ctSize.toNat = 4 + 1 ∧ 9 < decBlock.bufWords ∧ Apart 9 1 0 4 ∧ Apart 9 1 16 (4 + 1) ∧
    Readable decBlock .w32 0 4 (seq [0x00000001, 0xFFFFFFFF, 0x00000002, 0x80000000]) ∧
    Readable decBlock .w32 16 4 (seq [0x12345678, 0x9ABCDEF0, 0x0F0F0F0F, 0xDEADBEEF]) ∧
    decBlock.readElem .w32 (16 + 4) = .done 0x15C5_95A6 := by decide

/-- The state of V-ZENC-2's decryption. -/
def smallDecBlock : State := busyBlock 0x518 { smallGlwe with ptBase := 32 }
  [(0, 11), (1, 13), (16, 5), (17, 7), (18, 0xFFFF_FFDC), (19, 0x8E)] []

/-- DecGlweDecrypts: V-ZENC-2. -/
theorem witness_DecGlwe : 1 ≤ 2 ∧ smallGlwe.ctSize.toNat = 1 + 1 ∧ smallGlwe.ctPoly = smallGlwe.keyPoly ∧
    smallGlwe.ptCount = smallGlwe.keyPoly ∧ Fits 64 32 2 ∧ Apart 32 2 0 (1 * 2) ∧ Apart 32 2 16 ((1 + 1) * 2) ∧
    Readable smallDecBlock .w32 0 (1 * 2) (seq [11, 13]) ∧ Readable smallDecBlock .w32 16 (1 * 2) (seq [5, 7]) ∧
    Readable smallDecBlock .w32 (16 + 1 * 2) 2 (seq [0xFFFF_FFDC, 0x8E]) := by decide

/-- The state of V-ENCL-1. -/
def listBlock (entropy : List Answer) : State := busyBlock 0x120 listOperands listCells entropy

/-- EnclEncryptsTheList: V-ENCL-1; and the empty list, which reads nothing. -/
theorem witness_EnclEncryptsTheList :
    (listOperands.ctSize.toNat = 2 + 1 ∧ listOperands.ptCount = listOperands.ctCount ∧ Fits 64 0 2 ∧ Fits 64 16 (2 * (2 + 1)) ∧
      Apart 16 (2 * (2 + 1)) 0 2 ∧ Apart 16 (2 * (2 + 1)) 8 2 ∧
      Readable (listBlock (oks [0x10, 0x20, 0, 0xFFFF_FFF0, 1, 0])) .w32 0 2 (seq [3, 5]) ∧
      Readable (listBlock (oks [0x10, 0x20, 0, 0xFFFF_FFF0, 1, 0])) .w32 8 2 (seq [0x4000_0000, 0xC000_0000]) ∧
      (∀ i < 2, Delivers (listBlock (oks [0x10, 0x20, 0, 0xFFFF_FFF0, 1, 0])) (i * (2 + 1)) (.uniform .w32) 2
        (wordSeq ([[0x10, 0x20], [0xFFFF_FFF0, 1]].getD i []))) ∧
      ∀ i < 2, (listBlock (oks [0x10, 0x20, 0, 0xFFFF_FFF0, 1, 0])).answerAt (i * (2 + 1) + 2)
        (noiseRequest .w32 listOperands) = .ok 0) ∧
    (Fits 64 16 (0 * (2 + 1)) ∧ Apart 16 (0 * (2 + 1)) 0 2 ∧ Readable State.reset .w32 8 0 (seq [])) := by decide

/-- SamplerDrawFailure: the first draw, and the last after one delivered. -/
theorem witness_SamplerDrawFailure :
    (Fits 64 8 2 ∧ 0 < 2 ∧ (busyBlock 0x101 { Descriptors.zero with dst := 8, len := 2 } [] [.fail]).answerAt 0
      (.uniform .w32) = .fail) ∧
    (1 < 2 ∧ Delivers (busyBlock 0x101 { Descriptors.zero with dst := 8, len := 2 } [] [.ok 5, .fail]) 0 (.uniform .w32) 1
      (wordSeq [5]) ∧ (busyBlock 0x101 { Descriptors.zero with dst := 8, len := 2 } [] [.ok 5, .fail]).answerAt 1
        (.uniform .w32) = .fail) ∧
    (Delivers (busyBlock 0x102 { Descriptors.zero with dst := 8, len := 2 } [] [.ok 5, .fail]) 0
      (noiseRequest .w32 { Descriptors.zero with dst := 8, len := 2 }) 1 (wordSeq [5]) ∧
      (busyBlock 0x102 { Descriptors.zero with dst := 8, len := 2 } [] [.ok 5, .fail]).answerAt 1
        (noiseRequest .w32 { Descriptors.zero with dst := 8, len := 2 }) = .fail) := by decide

/-- LweEncryptionDrawFailure: V-ENC-7, a uniform draw and the noise draw. -/
theorem witness_LweEncryptionDrawFailure :
    ({ lweOperands with ctSize := 99 }.ctSize ≠ 5 ∧ Fits 64 16 (4 + 1) ∧ Apart 16 (4 + 1) 0 4 ∧ Apart 16 (4 + 1) 8 1 ∧
      lweOperands.ctSize.toNat = 4 + 1) ∧
    (Readable (busyBlock 0x112 { lweOperands with ptBase := 16 } (lweCells.take 4) [.fail]) .w32 0 4
      (seq [0x00000001, 0xFFFFFFFF, 0x00000002, 0x80000000]) ∧
      (busyBlock 0x112 { lweOperands with ptBase := 16 } (lweCells.take 4) [.fail]).mem.readCell 16 = none) ∧
    (2 < 4 ∧ Delivers (busyBlock 0x110 lweOperands lweCells (oks (lweMask.take 2) ++ [.fail])) 0 (.uniform .w32) 2
      (wordSeq lweMask) ∧
      (busyBlock 0x110 lweOperands lweCells (oks (lweMask.take 2) ++ [.fail])).answerAt 2 (.uniform .w32) = .fail) ∧
    (Delivers (busyBlock 0x110 lweOperands lweCells (oks lweMask ++ [.fail])) 0 (.uniform .w32) 4 (wordSeq lweMask) ∧
      (busyBlock 0x110 lweOperands lweCells (oks lweMask ++ [.fail])).answerAt 4 (noiseRequest .w32 lweOperands) = .fail) ∧
    Readable (busyBlock 0x110 lweOperands lweCells (oks lweMask ++ [.fail])) .w32 0 4
      (seq [0x00000001, 0xFFFFFFFF, 0x00000002, 0x80000000]) ∧
    (busyBlock 0x110 lweOperands lweCells (oks lweMask ++ [.fail])).readElem .w32 8 = .done 0x0030_0000 := by decide

/-- GlweEncryptionDrawFailure: the last uniform draw and the last noise draw. AENC with another CT_SIZE and CT_POLY and ZENC with
PT_BASE in the ciphertext and another PT_COUNT meet the hypotheses on them as well. -/
theorem witness_GlweEncryptionDrawFailure :
    (1 ≤ smallGlwe.keyPoly.toNat ∧ Fits 64 16 ((1 + 1) * 2) ∧ Apart 16 ((1 + 1) * 2) 0 (1 * 2) ∧
      Apart 16 ((1 + 1) * 2) 8 2 ∧ smallGlwe.ptCount = smallGlwe.keyPoly ∧ smallGlwe.ctSize.toNat = 1 + 1 ∧
      smallGlwe.ctPoly = smallGlwe.keyPoly) ∧
    (Readable (busyBlock 0x511 { smallGlwe with ctSize := 99, ctPoly := 7 } [(0, 11), (1, 13), (8, 20), (9, 30)] [.fail]) .w32 8 2
      (seq [20, 30]) ∧
      Readable (busyBlock 0x512 { smallGlwe with ptBase := 16, ptCount := 9 } [(0, 11), (1, 13)] [.fail]) .w32 0 (1 * 2)
        (seq [11, 13])) ∧
    (1 < 1 * 2 ∧ Delivers { smallGlweBlock with entropy := [.ok 5, .fail] } 0 (.uniform .w32) 1 (wordSeq [5]) ∧
      { smallGlweBlock with entropy := [.ok 5, .fail] }.answerAt 1 (.uniform .w32) = .fail) ∧
    (1 < 2 ∧ Delivers { smallGlweBlock with entropy := oks [5, 7, 1] ++ [Answer.fail] } 0 (.uniform .w32) (1 * 2) (wordSeq [5, 7]) ∧
      Delivers { smallGlweBlock with entropy := oks [5, 7, 1] ++ [Answer.fail] } (1 * 2) (noiseRequest .w32 smallGlwe) 1
        (wordSeq [1]) ∧
      { smallGlweBlock with entropy := oks [5, 7, 1] ++ [Answer.fail] }.answerAt (1 * 2 + 1) (noiseRequest .w32 smallGlwe) =
        .fail) ∧
    Readable smallGlweBlock .w32 0 (1 * 2) (seq [11, 13]) ∧ Readable smallGlweBlock .w32 8 2 (seq [20, 30]) := by decide

/-- EnclDrawFailureKeepsFinishedElements: V-ENCL-4, and the noise draw of element 0. -/
theorem witness_EnclDrawFailure :
    (1 < 2 ∧ (∀ i < 1, Delivers (listBlock (oks [0x10, 0x20, 0, 0xFFFF_FFF0] ++ [.fail])) (i * (2 + 1)) (.uniform .w32) 2
        (wordSeq [0x10, 0x20])) ∧
      (∀ i < 1, (listBlock (oks [0x10, 0x20, 0, 0xFFFF_FFF0] ++ [.fail])).answerAt (i * (2 + 1) + 2)
        (noiseRequest .w32 listOperands) = .ok 0) ∧
      Delivers (listBlock (oks [0x10, 0x20, 0, 0xFFFF_FFF0] ++ [.fail])) (1 * (2 + 1)) (.uniform .w32) 1
        (wordSeq [0xFFFF_FFF0]) ∧
      1 < 2 ∧ (listBlock (oks [0x10, 0x20, 0, 0xFFFF_FFF0] ++ [.fail])).answerAt (1 * (2 + 1) + 1) (.uniform .w32) = .fail) ∧
    (Delivers (listBlock (oks [0x10, 0x20] ++ [.fail])) (0 * (2 + 1)) (.uniform .w32) 2 (wordSeq [0x10, 0x20]) ∧
      (listBlock (oks [0x10, 0x20] ++ [.fail])).answerAt (0 * (2 + 1) + 2) (noiseRequest .w32 listOperands) = .fail) := by
  decide

/-- PrimitivePredicates: LEN cells that end at BUF_WORDS, one past it, and an empty region anywhere. -/
theorem witness_PrimitivePredicates :
    [expectAddress 64 6 60 4].findSome? id = none ∧ [expectAddress 64 6 61 4].findSome? id = some (5, 6, 61) ∧
    [expectAddress 64 6 0xFFFF_FFFF_FFFF_FFFF 0].findSome? id = none ∧
    [expectAddress 64 4 16 4, expectAddress 64 5 64 1].findSome? id = some (5, 5, 64) := by decide

/-- LweEncryptionPredicates: each predicate of the longest list the first to be false, and none. -/
theorem witness_LweEncryptionPredicates :
    [expectShape (4 = 4 + 1) (4 + 1) 4, expectAddress 64 2 62 5].findSome? id = some (1, 5, 4) ∧
    [expectShape (3 = 2 + 1) (2 + 1) 3, expectAddress 64 1 0xFFFF_FFFF_FFFF_FFFF 2].findSome? id =
      some (5, 1, 0xFFFF_FFFF_FFFF_FFFF) ∧
    [expectAddress 64 2 10 5, expectOverlap 2 10 5 1 12 4, expectOverlap 2 10 5 3 11 1].findSome? id = some (6, 2, 1) ∧
    [expectOverlap 2 10 5 1 15 4, expectOverlap 2 10 5 3 14 1].findSome? id = some (6, 2, 3) ∧
    [expectShape (5 = 4 + 1) (4 + 1) 5, expectAddress 64 1 0 4, expectAddress 64 2 59 5, expectAddress 64 3 8 1,
      expectOverlap 2 59 5 1 0 4, expectOverlap 2 59 5 3 8 1].findSome? id = none := by decide

/-- GlweEncryptionPredicates: V-GSH-1, V-GSH-3, V-GSH-5, and none false. -/
theorem witness_GlweEncryptionPredicates :
    [expectShape (1 ≤ 0) 1 0].findSome? id = some (1, 1, 0) ∧
    [expectShape (1 ≤ 4) 1 4, expectShape (3 = 2 + 1) 3 3, expectShape ((8 : Word) = 4) 4 8].findSome? id = some (1, 4, 8) ∧
    [expectShape (2 = 2 + 1) 3 2, expectShape ((3 : Word) = 4) 4 3].findSome? id = some (1, 3, 2) ∧
    firstFailure (validation 64 smallGlwe (.encGlwe .checked .w32)) = none ∧
    firstFailure (validation 64 smallGlwe (.aencGlwe .checked .w32)) = none ∧
    firstFailure (validation 64 smallGlwe (.zencGlwe .checked .w32)) = none := by decide

/-- TrivialPredicates: V-TENC-2, V-TENC-3's error, an overlap, and none false. -/
theorem witness_TrivialPredicates :
    [expectShape (1 ≤ 0) 1 0].findSome? id = some (1, 1, 0) ∧
    [expectShape (1 ≤ 3) 1 3, expectShape (1 ≤ 4) 1 4, expectShape ((3 : Word) = 4) 4 3].findSome? id = some (1, 4, 3) ∧
    [expectAddress 64 2 16 5, expectAddress 64 3 20 1, expectOverlap 2 16 5 3 20 1].findSome? id = some (6, 2, 3) ∧
    firstFailure (validation 64 lweOperands (.tencLwe .checked .w32)) = none ∧
    firstFailure (validation 64 smallGlwe (.atencGlwe .checked .w32)) = none := by decide

/-- DecryptionPredicates: E-6, V-VAL-8, and none false. -/
theorem witness_DecryptionPredicates :
    [expectShape (5 = 3 + 1) (3 + 1) 5].findSome? id = some (1, 4, 5) ∧
    [expectOverlap 3 20 1 1 0 4, expectOverlap 3 20 1 2 16 5].findSome? id = some (6, 3, 2) ∧
    firstFailure (validation 64 lweOperands (.decLwe .checked .w32)) = none ∧
    firstFailure (validation 64 smallGlwe (.decGlwe .checked .w32)) = none := by decide

/-- ListPredicates: V-VAL-12, E-7 (b), and none false. -/
theorem witness_ListPredicates :
    [expectShape (4 = 2 + 1) (2 + 1) 4, some (2, 4, 3)].findSome? id = some (1, 3, 4) ∧
    [expectShape (3 = 2 + 1) (2 + 1) 3, if (3 : Word) = 4 then none else some (2, 3, 4)].findSome? id = some (2, 3, 4) ∧
    firstFailure (validation 64 listOperands (.encl .checked .w32)) = none := by decide

/-- What the first command of a round trip leaves, or where it began. -/
def leaves (i : Instr) (s : State) : State := (after (exec i s)).getD s

/-- The second command's start: the cells of `t`, descriptors `d` latched. -/
def next (t : State) (d : Descriptors) : State := { t with latch := ⟨0, d⟩ }

/-- V-ENC-2: V-ENC-1 with the noise -3. -/
def noisy : State := busyBlock 0x110 { lweOperands with disp := 1 } lweCells (oks (lweMask ++ [0xFFFF_FFFD]))

/-- RoundTrip, LWE: V-ENC-2. -/
theorem witness_RoundTripLwe :
    let t1 := leaves (.encLwe .checked .w32) noisy
    let s2 := next t1 { lweOperands with disp := 1, ptBase := 9 }
    exec (.encLwe .checked .w32) noisy = .next t1 ∧ t1.errcode = 0 ∧ noisy.readElem .w32 8 = .done 0x0030_0000 ∧
      noisy.answerAt 4 (noiseRequest .w32 { lweOperands with disp := 1 }) = .ok 0xFFFF_FFFD ∧ s2.bufWords = noisy.bufWords ∧
      keepsCells noisy s2 0 4 ∧ keepsCells t1 s2 16 5 ∧
      ∃ t2, exec (.decLwe .unchecked .w32) s2 = .next t2 ∧
        (t2.errcode == 0 && t2.mem.readCell 9 == some 0x002F_FFFD) = true :=
  ⟨eq_next_of_after (by decide), by decide, by decide, by decide, by decide, keepsCells_of_bytes (by decide),
    fun _ _ _ => rfl, next_of_any (by decide)⟩

/-- RoundTrip, GLWE. -/
theorem witness_RoundTripGlwe :
    let t1 := leaves (.encGlwe .checked .w32) smallGlweBlock
    let s2 := next t1 { smallGlwe with ptBase := 32 }
    exec (.encGlwe .checked .w32) smallGlweBlock = .next t1 ∧ t1.errcode = 0 ∧
      Readable smallGlweBlock .w32 8 2 (seq [20, 30]) ∧
      Delivers smallGlweBlock (1 * 2) (noiseRequest .w32 smallGlwe) 2 (wordSeq [1, 2]) ∧
      s2.bufWords = smallGlweBlock.bufWords ∧ keepsCells smallGlweBlock s2 0 (1 * 2) ∧ keepsCells t1 s2 16 ((1 + 1) * 2) ∧
      ∃ t2, exec (.decGlwe .unchecked .w32) s2 = .next t2 ∧
        (t2.errcode == 0 && t2.mem.readCell 32 == some 20 && t2.mem.readCell 33 == some 30) = true :=
  ⟨eq_next_of_after (by decide), by decide, by decide, by decide, by decide, keepsCells_of_bytes (by decide),
    fun _ _ _ => rfl, next_of_any (by decide)⟩

/-- TrivialRoundTrip, LWE: V-TENC-1 under the key of V-ENC-1. -/
theorem witness_TrivialRoundTripLwe :
    let s1 := busyBlock 0x113 lweOperands lweCells []
    let t1 := leaves (.tencLwe .checked .w32) s1
    let s2 := next t1 { lweOperands with ptBase := 9 }
    exec (.tencLwe .checked .w32) s1 = .next t1 ∧ t1.errcode = 0 ∧ s1.readElem .w32 8 = .done 0x0030_0000 ∧
      keepsCells t1 s2 16 5 ∧ ∃ t2, exec (.decLwe .checked .w32) s2 = .next t2 ∧
        (t2.errcode == 0 && t2.mem.readCell 9 == some 0x0030_0000) = true :=
  ⟨eq_next_of_after (by decide), by decide, by decide, fun _ _ _ => rfl, next_of_any (by decide)⟩

/-- TrivialRoundTrip, GLWE. -/
theorem witness_TrivialRoundTripGlwe :
    let t1 := leaves (.atencGlwe .checked .w32) smallGlweBlock
    let s2 := next t1 { smallGlwe with ptBase := 32 }
    exec (.atencGlwe .checked .w32) smallGlweBlock = .next t1 ∧ t1.errcode = 0 ∧
      Readable smallGlweBlock .w32 8 2 (seq [20, 30]) ∧ keepsCells t1 s2 16 (2 * 2) ∧
      ∃ t2, exec (.decGlwe .checked .w32) s2 = .next t2 ∧
        (t2.errcode == 0 && t2.mem.readCell 32 == some 20 && t2.mem.readCell 33 == some 30) = true :=
  ⟨eq_next_of_after (by decide), by decide, by decide, fun _ _ _ => rfl, next_of_any (by decide)⟩

/-- BatchConsistency: the second element of V-ENCL-1. -/
theorem witness_BatchConsistency :
    let s1 := listBlock (oks [0x10, 0x20, 0, 0xFFFF_FFF0, 1, 0])
    let t1 := leaves (.encl .checked .w32) s1
    let s2 := next t1 { listOperands with ctBase := 19, ptBase := 13 }
    exec (.encl .checked .w32) s1 = .next t1 ∧ t1.errcode = 0 ∧ listOperands.disp = 0 ∧ 1 < listOperands.ctCount.toNat ∧
      s1.readElem .w32 (8 + 1) = .done 0xC000_0000 ∧ (19 : Nat) = 16 + 1 * 3 ∧ keepsCells s1 s2 0 2 ∧
      keepsCells t1 s2 16 (2 * 3) ∧ ∃ t2, exec (.decLwe .checked .w32) s2 = .next t2 ∧
        (t2.errcode == 0 && t2.mem.readCell 13 == some 0xC000_0000) = true :=
  ⟨eq_next_of_after (by decide), by decide, by decide, by decide, by decide, by decide, keepsCells_of_bytes (by decide),
    fun _ _ _ => rfl, next_of_any (by decide)⟩

/-- ClearAccumulatorScript. -/
theorem witness_ClearAccumulatorScript :
    { State.reset with inputs := scriptClrAcc (some .w32) ++ [Input.block] }.phase = .idle ∧
    { State.reset with inputs := scriptClrAcc (some .w32) ++ [Input.block] }.inputs = scriptClrAcc (some .w32) ++ [Input.block] := by
  decide

end Sys2Proof.Machine.Tests
end

section
/-! Every step keeps the invariant (`State.Inv`, Safety.lean). `State.Sound` is the part of it that stands in either phase; a completion
and a reset need no more of the state before them, and what a command has changed before its completion keeps it. Each operation
of the block and of the host port then has one lemma, and the step's are put together from them. -/

namespace Sys2Proof.Machine

open Sys2Proof

/-! ### The part of the invariant that stands in either phase -/

/-- BUF_WORDS is legal, BUF is in its form and LASTOP is the OPC of CMD: the clauses of `State.Inv` that speak neither of the phase
nor of the error registers. -/
structure State.Sound (s : State) : Prop where
  bufWords_legal : 1 ≤ s.bufWords ∧ s.bufWords ≤ 2 ^ 20
  mem_wf : s.mem.wf
  mem_below : s.mem.below (8 * s.bufWords)
  mem_whole : s.mem.halvesWhole
  lastop_cmd : s.lastop = s.cmd.extractLsb' 0 8

variable {s t u : State}

theorem State.Inv.sound (h : s.Inv) : s.Sound where
  bufWords_legal := h.bufWords_legal
  mem_wf := h.mem_wf
  mem_below := h.mem_inside
  mem_whole := h.mem_halves
  lastop_cmd := h.lastop_cmd

/-- While Idle, the invariant asks for no more than soundness and the agreement of ERR and the information words with ERRCODE. -/
theorem State.Sound.inv_of_idle (h : s.Sound) (hidle : s.phase = .idle) (hcode : s.errcode.toNat ≤ 6)
    (herr : s.err = true → s.errcode ≠ 0) (hinfo : s.errcode = 0 → s.errinfo0 = 0 ∧ s.errinfo1 = 0) : s.Inv where
  bufWords_legal := h.bufWords_legal
  mem_wf := h.mem_wf
  mem_inside := h.mem_below
  mem_halves := h.mem_whole
  busy_flags := fun hb => by simp [hidle] at hb
  busy_latch := fun hb => by simp [hidle] at hb
  errcode_produced := hcode
  err_has_code := herr
  info_zero := hinfo
  lastop_cmd := h.lastop_cmd

/-! ### Start and completion -/

theorem State.Sound.start_inv (h : s.Sound) (c : Word) : (s.start c).Inv where
  bufWords_legal := h.bufWords_legal
  mem_wf := h.mem_wf
  mem_inside := h.mem_below
  mem_halves := h.mem_whole
  busy_flags := fun _ => ⟨rfl, rfl, rfl⟩
  busy_latch := fun _ => ⟨rfl, rfl⟩
  errcode_produced := by simp
  err_has_code := by simp
  info_zero := fun _ => ⟨rfl, rfl⟩
  lastop_cmd := rfl

theorem State.Sound.complete_inv (h : s.Sound) (hinfo : s.errinfo0 = 0 ∧ s.errinfo1 = 0) : s.complete.Inv :=
  State.Sound.inv_of_idle (s := s.complete) { h with } rfl (by simp) (by simp) fun _ => hinfo

/-- The codes of R127 are 1 to 6. -/
theorem errorNumber_range (c : ErrorCode) : errorNumber c ≠ 0 ∧ (errorNumber c).toNat ≤ 6 := by
  cases c <;> decide

theorem State.Sound.raiseError_inv (h : s.Sound) (x : CommandError) : (s.raiseError x).Inv := by
  obtain ⟨hne, hle⟩ := errorNumber_range x.code
  exact State.Sound.inv_of_idle (s := s.raiseError x) { h with } rfl hle (fun _ => hne) fun h0 => absurd h0 hne

/-! ### Resets -/

theorem State.Sound.emptyRegion (h : s.Sound) (r : Region) : (s.emptyRegion r).Sound where
  bufWords_legal := h.bufWords_legal
  mem_wf := Memory.wf_emptyCells h.mem_wf _ _
  mem_below := Memory.below_emptyCells h.mem_below _ _
  mem_whole := Memory.halvesWhole_emptyCells h.mem_whole _ _
  lastop_cmd := h.lastop_cmd

theorem State.Sound.emptyRegions (h : s.Sound) (rs : List Region) : (rs.foldl State.emptyRegion s).Sound := by
  induction rs generalizing s with
  | nil => exact h
  | cons r rs ih => exact ih (h.emptyRegion r)

theorem State.Sound.clearRegisters_inv (h : s.Sound) : s.clearRegisters.Inv :=
  State.Sound.inv_of_idle (s := s.clearRegisters) { h with lastop_cmd := rfl } rfl (by simp) (by simp)
    fun _ => ⟨rfl, rfl⟩

theorem State.Sound.softReset_inv (h : s.Sound) : s.softReset.Inv := by
  unfold State.softReset
  split
  · exact h.clearRegisters_inv
  · exact (h.emptyRegions _).clearRegisters_inv

/-- With every register at its power-on value and BUF empty, a legal BUF_WORDS is all that is left to ask. -/
theorem State.powerOn_inv {n : Nat} (hn : 1 ≤ n ∧ n ≤ 2 ^ 20) : (State.powerOn n).Inv :=
  State.Sound.inv_of_idle ⟨hn, Memory.wf_nil, by simp, Memory.halvesWhole_nil, rfl⟩ rfl (Nat.zero_le 6) nofun fun _ => ⟨rfl, rfl⟩

theorem State.Sound.powerOnReset_inv (h : s.Sound) : s.powerOnReset.Inv :=
  State.Sound.inv_of_idle ⟨h.bufWords_legal, Memory.wf_nil, nofun, Memory.halvesWhole_nil, rfl⟩ rfl
    (Nat.zero_le 6) nofun fun _ => ⟨rfl, rfl⟩

/-! ### Commands -/

/-- What a command's pseudocode changes keeps soundness and the information words. -/
theorem Changed.sound {i : Instr} (h : Changed i s u) (hs : s.Sound) :
    u.Sound ∧ u.errinfo0 = s.errinfo0 ∧ u.errinfo1 = s.errinfo1 := by
  have hbuf : u.bufWords = s.bufWords := by rw [h.rest]
  have hlastop : u.lastop = s.lastop := by rw [h.rest]
  have hcmd : u.cmd = s.cmd := by rw [h.rest]
  refine ⟨⟨hbuf ▸ hs.bufWords_legal, h.wf hs.mem_wf, hbuf ▸ h.below hs.mem_below, h.whole hs.mem_whole, ?_⟩, ?_⟩
  · rw [hlastop, hcmd, hs.lastop_cmd]
  · rw [h.rest]; exact ⟨rfl, rfl⟩

/-- The information words are 0 from the start of a command on, so a completion without a code leaves them 0 (10_state.md R24). -/
theorem State.Inv.of_exec {i : Instr} (h : s.Inv) (hbusy : s.phase = .busy) (he : exec i s = .next t) : t.Inv := by
  obtain ⟨-, -, hcode⟩ := h.busy_flags hbusy
  rcases exec_next he with ⟨x, -, rfl⟩ | ⟨-, u, hu, hend⟩
  · exact h.sound.raiseError_inv x
  · obtain ⟨hsound, h0, h1⟩ := hu.sound h.sound
    rcases hend with rfl | ⟨x, rfl⟩
    · exact hsound.complete_inv (by rw [h0, h1]; exact h.info_zero hcode)
    · exact hsound.raiseError_inv _

theorem State.Inv.of_runLatched (h : s.Inv) (hbusy : s.phase = .busy) (he : s.runLatched = .next t) : t.Inv := by
  unfold State.runLatched at he
  split at he
  · exact h.of_exec hbusy he
  · cases he
    exact h.sound.raiseError_inv _

theorem State.Inv.of_blockTurn (h : s.Inv) (he : s.blockTurn = .next t) : t.Inv := by
  unfold State.blockTurn at he
  split at he
  · cases he
    exact h
  next hbusy => exact h.of_runLatched hbusy he

/-! ### What a host access can do -/

/-- A register read delivers a value and may take an unspecified word; nothing else (10_state.md R35). -/
theorem State.hostReadReg_rest (s : State) (r : Reg) (l : Lane) :
    s.hostReadReg r l =
      { s with readData := (s.hostReadReg r l).readData, freeIndex := (s.hostReadReg r l).freeIndex } := by
  unfold State.hostReadReg
  split <;> rfl

theorem State.storeReg_rest (s : State) (r : Reg) (v : Word) :
    s.storeReg r v = { s with acc := (s.storeReg r v).acc, desc := (s.storeReg r v).desc } := by
  cases r <;> rfl

theorem State.phase_of_not_busy (h : ¬ s.busy = true) : s.phase = .idle := by
  unfold State.busy at h
  cases hp : s.phase
  · rfl
  · simp [hp] at h

/-- A read of a cell that answers changes what the host read, and nothing else. -/
theorem State.hostReadCell_next {a : Nat} {l : Lane} (h : s.hostReadCell a l = .next t) :
    t = { s with readData := t.readData } := by
  unfold State.hostReadCell at h
  split at h <;> split at h <;> cases h <;> rfl

/-- A cell the host window names lies in BUF (20_memory.md R43). -/
theorem lt_of_targetOf_cell {n o a : Nat} (h : targetOf n o = .cell a) : a < n := by
  unfold targetOf at h
  split_ifs at h with h1 h2
  injection h with h
  omega

/-- An access that answers is one of a register or of a cell in BUF. -/
theorem State.hostAccess_next {x : Access} (h : s.hostAccess x = .next t) :
    (∃ i l, t = s.registerAccess i l x.kind) ∨ ∃ a l, a < s.bufWords ∧ s.bufAccess a l x.kind = .next t := by
  unfold State.hostAccess at h
  split at h
  · cases h
  · cases h
  next l i _ _ =>
    cases h
    exact .inl ⟨i, l, rfl⟩
  next l a _ htarget => exact .inr ⟨a, l, lt_of_targetOf_cell htarget, h⟩

/-! ### Host accesses -/

/-- The fields `State.Inv` does not speak of are free. -/
theorem State.Inv.of_rest (h : s.Inv)
    (e : t = { s with
      ie := t.ie, wbusy := t.wbusy, acc := t.acc, ucount := t.ucount, ncount := t.ncount, inputs := t.inputs,
      entropy := t.entropy, drawIndex := t.drawIndex, freeIndex := t.freeIndex, readData := t.readData }) : t.Inv := by
  rw [e]
  exact { h with }

theorem State.Inv.with_mem (h : s.Inv) {m : Memory} (hwf : m.wf) (hbelow : m.below (8 * s.bufWords))
    (hwhole : m.halvesWhole) : ({ s with mem := m } : State).Inv :=
  { h with mem_wf := hwf, mem_inside := hbelow, mem_halves := hwhole }

theorem State.Inv.writeCtrl (h : s.Inv) (v : Word) : (s.writeCtrl v).Inv := by
  unfold State.writeCtrl
  split_ifs
  · exact h.sound.softReset_inv
  · exact h.of_rest rfl

/-- Clearing ERR keeps ERRCODE, and bits that are 0 stay 0 (10_state.md R22). -/
theorem State.Inv.clearStatus (h : s.Inv) (v : Word) : (s.clearStatus v).Inv :=
  { h with
    busy_flags := fun hb => by
      obtain ⟨hdone, herr, hcode⟩ := h.busy_flags hb
      simp [hdone, herr, hcode]
    err_has_code := fun he => h.err_has_code (by simp at he; exact he.1) }

/-- While Idle the latch need not follow the descriptors (R34, R78). -/
theorem State.Inv.storeReg (h : s.Inv) (hidle : s.phase = .idle) (r : Reg) (v : Word) : (s.storeReg r v).Inv := by
  rw [State.storeReg_rest]
  exact { h with busy_latch := fun hb => by simp [hidle] at hb }

/-- In the order of the definition: the read-only registers, CTRL, STATUS, CMD, and those that store (R18, R21 to R23, R34). -/
theorem State.Inv.hostWriteReg (h : s.Inv) (r : Reg) (l : Lane) (v : Word) : (s.hostWriteReg r l v).Inv := by
  unfold State.hostWriteReg
  split
  case h_7 =>
    split_ifs
    · exact h
    · exact h.writeCtrl _
  case h_8 =>
    split_ifs
    · exact h
    · exact h.clearStatus _
  case h_9 =>
    split_ifs
    · exact h
    · exact h.of_rest rfl
    · exact h.sound.start_inv _
  case h_10 =>
    split_ifs with hbusy
    · exact h.of_rest rfl
    · exact h.storeReg (State.phase_of_not_busy hbusy) _ _
  all_goals exact h

theorem State.Inv.registerAccess (h : s.Inv) (i : Nat) (l : Lane) (k : AccessKind) : (s.registerAccess i l k).Inv := by
  unfold State.registerAccess
  split
  · rw [State.hostReadReg_rest]
    exact h.of_rest rfl
  · exact h.hostWriteReg _ _ _
  · exact h.of_rest rfl
  · exact h

theorem State.Inv.writeHalf (h : s.Inv) {g : Nat} (hg : 4 * g + 4 ≤ 8 * s.bufWords) (v : Half) :
    ({ s with mem := s.mem.writeHalf g v } : State).Inv :=
  h.with_mem (Memory.wf_writeHalf h.mem_wf _ _) (Memory.below_writeHalf h.mem_inside hg _)
    (Memory.halvesWhole_writeHalf h.mem_halves _ _)

theorem State.Inv.hostWriteCell (h : s.Inv) {a : Nat} (ha : a < s.bufWords) (l : Lane) (v : Word) :
    (s.hostWriteCell a l v).Inv := by
  cases l with
  | whole =>
    exact h.with_mem (Memory.wf_writeCell h.mem_wf _ _) (Memory.below_writeCell h.mem_inside ha _)
      (Memory.halvesWhole_writeCell h.mem_halves _ _)
  | low => exact h.writeHalf (by omega) _
  | high => exact h.writeHalf (by omega) _

theorem State.Inv.of_bufAccess (h : s.Inv) {a : Nat} (ha : a < s.bufWords) {l : Lane} {k : AccessKind}
    (he : s.bufAccess a l k = .next t) : t.Inv := by
  unfold State.bufAccess at he
  split_ifs at he
  split at he
  · rw [State.hostReadCell_next he]
    exact h.of_rest rfl
  · cases he
    exact h.hostWriteCell ha _ _

theorem State.Inv.of_hostAccess (h : s.Inv) {x : Access} (he : s.hostAccess x = .next t) : t.Inv := by
  rcases State.hostAccess_next he with ⟨i, l, rfl⟩ | ⟨a, l, ha, he⟩
  · exact h.registerAccess i l _
  · exact h.of_bufAccess ha he

/-! ### The step -/

theorem State.Inv.with_inputs (h : s.Inv) (inputs : List Input) : ({ s with inputs := inputs } : State).Inv := h.of_rest rfl

theorem State.Inv.of_step (h : s.Inv) (he : step s = .next t) : t.Inv := by
  unfold step State.advance at he
  split at he
  next => exact h.of_blockTurn he
  next rest _ => exact (h.with_inputs rest).of_blockTurn he
  next a rest _ => exact (h.with_inputs rest).of_hostAccess he
  next rest _ =>
    cases he
    exact (h.with_inputs rest).sound.powerOnReset_inv

end Sys2Proof.Machine
end

section
/-! What the family of 00_scope.md asks of the invariant: every step keeps it, and it holds after reset. -/

namespace Sys2Proof.Machine

/-- Settles O21: the next input is the block's turn, a host access or the reset input, and each keeps the invariant. -/
theorem everyStepKeepsTheInvariant : Obligations.EveryStepKeepsTheInvariant := by
  unfold Obligations.EveryStepKeepsTheInvariant
  exact fun _ _ h he => h.of_step he

/-- Settles O22: `State.reset` is the power-on state of the model's own BUF_WORDS, which is legal. -/
theorem invariantHoldsAtReset : Obligations.InvariantHoldsAtReset := by
  unfold Obligations.InvariantHoldsAtReset
  exact ⟨fun _ h1 h2 => State.powerOn_inv ⟨h1, h2⟩, State.powerOn_inv (by decide)⟩

end Sys2Proof.Machine
end

section
/-! What a host access of a register or of a BUF cell does, once the access has reached it (20_memory.md R44, R57; 10_state.md R33 to
R36), and what the two resets leave of the registers (R41; 70_reset_and_hazards.md R141, R142). -/

namespace Sys2Proof.Machine

open Sys2Proof

variable {s : State}

/-! ### BUSY -/

theorem State.busy_of_idle (h : s.phase = .idle) : s.busy = false := by simp [State.busy, h]

theorem State.busy_of_busy (h : s.phase = .busy) : s.busy = true := by simp [State.busy, h]

/-! ### BUF cells -/

theorem State.bufAccess_read_of_idle (h : s.phase = .idle) (a : Nat) (l : Lane) :
    s.bufAccess a l .read = s.hostReadCell a l := by
  simp [State.bufAccess, State.busy_of_idle h]

theorem State.bufAccess_write_of_idle (h : s.phase = .idle) (a : Nat) (l : Lane) (v : Word) :
    s.bufAccess a l (.write v) = .next (s.hostWriteCell a l v) := by
  simp [State.bufAccess, State.busy_of_idle h]

theorem Memory.readHalf_of_readCell {m : Memory} {a : Nat} {v : Word} (h : m.readCell a = some v) :
    m.readHalf (2 * a) = some (v.extractLsb' 0 32) ∧ m.readHalf (2 * a + 1) = some (v.extractLsb' 32 32) := by
  unfold Memory.readCell at h
  split at h
  next lo hi hlo hhi =>
    injection h with h
    rw [hlo, hhi, ← h, low_of_halves, high_of_halves]
    exact ⟨rfl, rfl⟩
  next => cases h

/-- Of a cell that holds a word, every lane can be read (20_memory.md R44). -/
theorem State.hostReadCell_of_readCell {a : Nat} {v : Word} (h : s.mem.readCell a = some v) (l : Lane) :
    s.hostReadCell a l = .next { s with readData := laneRead l v } := by
  obtain ⟨hlo, hhi⟩ := Memory.readHalf_of_readCell h
  cases l with
  | whole => simp only [State.hostReadCell, h, laneRead]
  | low => simp only [State.hostReadCell, hlo, laneRead]
  | high => simp only [State.hostReadCell, hhi, laneRead]

/-- While Idle the host reads such a cell whole or by half (10_state.md R48). -/
theorem State.hostAccess_read_of_readCell {a : Nat} {v : Word} (hidle : s.phase = .idle) (ha : a < s.bufWords)
    (hn : s.bufWords ≤ 2 ^ 20) (h : s.mem.readCell a = some v) :
    s.hostAccess ⟨.b64, BitVec.ofNat 24 (0x100000 + 8 * a), .read⟩ = .next { s with readData := v } ∧
      s.hostAccess ⟨.b32, BitVec.ofNat 24 (0x100000 + 8 * a), .read⟩ =
        .next { s with readData := (v.extractLsb' 0 32).setWidth 64 } ∧
      s.hostAccess ⟨.b32, BitVec.ofNat 24 (0x100000 + 8 * a + 4), .read⟩ =
        .next { s with readData := (v.extractLsb' 32 32).setWidth 64 } := by
  have hread : ∀ l, s.bufAccess a l .read = .next { s with readData := laneRead l v } := fun l => by
    rw [State.bufAccess_read_of_idle hidle, State.hostReadCell_of_readCell h]
  exact ⟨(State.hostAccess_cell_whole ha hn).trans (hread .whole), (State.hostAccess_cell_low ha hn).trans (hread .low),
    (State.hostAccess_cell_high ha hn).trans (hread .high)⟩

theorem Memory.readByte_writeHalf_other (m : Memory) {h b : Nat} (v : Half) (hb : b < 4 * h ∨ 4 * h + 4 ≤ b) :
    (m.writeHalf h v).readByte b = m.readByte b := by
  rw [Memory.readByte_writeHalf, if_neg (by omega)]

theorem Memory.readHalf_writeHalf_same (m : Memory) (h : Nat) (v : Half) : (m.writeHalf h v).readHalf h = some v := by
  rw [Memory.readHalf_writeHalf, if_pos rfl]

theorem Memory.readHalf_writeHalf_other (m : Memory) {h g : Nat} (v : Half) (hg : h ≠ g) :
    (m.writeHalf h v).readHalf g = m.readHalf g := by
  rw [Memory.readHalf_writeHalf, if_neg hg]

/-! ### Stored registers -/

/-- NCFG keeps bit 0 of what is written (10_state.md R27). -/
theorem noiseKindWord_noiseKindOf (v : Word) : noiseKindWord (noiseKindOf v) = v &&& 1 := by
  have hbit : v &&& 1 = (BitVec.ofBool (v.getLsbD 0)).setWidth 64 := BitVec.and_one_eq_setWidth_ofBool_getLsbD
  rw [hbit, noiseKindOf]
  cases v.getLsbD 0 <;> rfl

theorem State.readReg_storeReg_same {r : Reg} (hr : r ∈ storedRegs) (v : Word) :
    (s.storeReg r v).readReg r = if r = .ncfg then v &&& 1 else v := by
  cases r
  case ncfg => exact noiseKindWord_noiseKindOf v
  all_goals simp [storedRegs] at hr <;> rfl

/-- No two registers share a field. -/
theorem State.readReg_storeReg_other {q r : Reg} (h : q ≠ r) (v : Word) : (s.storeReg r v).readReg q = s.readReg q := by
  cases r <;> cases q <;> trivial

theorem State.storeReg_mem (s : State) (r : Reg) (v : Word) : (s.storeReg r v).mem = s.mem := by rw [State.storeReg_rest]

theorem State.storeReg_phase (s : State) (r : Reg) (v : Word) : (s.storeReg r v).phase = s.phase := by
  rw [State.storeReg_rest]

theorem State.storeReg_latch (s : State) (r : Reg) (v : Word) : (s.storeReg r v).latch = s.latch := by
  rw [State.storeReg_rest]

theorem State.hostWriteReg_stored_of_idle (h : s.phase = .idle) {r : Reg} (hr : r ∈ storedRegs) (l : Lane) (v : Word) :
    s.hostWriteReg r l v = s.storeReg r (laneWrite l (s.readReg r) v) := by
  rw [State.hostWriteReg_stored hr, State.busy_of_idle h, if_neg Bool.false_ne_true]

theorem State.hostWriteReg_stored_of_busy (h : s.phase = .busy) {r : Reg} (hr : r ∈ storedRegs) (l : Lane) (v : Word) :
    s.hostWriteReg r l v = s.dropWrite := by
  rw [State.hostWriteReg_stored hr, State.busy_of_busy h, if_pos rfl]

/-! ### The other registers and the reserved offsets -/

/-- A write of CMD that reaches its low half is dropped while Busy (10_state.md R34). -/
theorem State.hostWriteReg_cmd_of_busy (h : s.phase = .busy) {l : Lane} (hl : l ≠ .high) (v : Word) :
    s.hostWriteReg .cmd l v = s.dropWrite := by
  simp [State.hostWriteReg, hl, State.busy_of_busy h]

theorem State.hostWriteReg_readOnly {r : Reg} (hr : r ∈ [Reg.id, .bufsz, .errinfo0, .errinfo1, .ucount, .ncount])
    (l : Lane) (v : Word) : s.hostWriteReg r l v = s := by
  cases r <;> simp at hr <;> rfl

theorem State.hostReadReg_of_stable {r : Reg} (h : s.phase = .idle ∨ unstableWhileBusy r = false) (l : Lane) :
    s.hostReadReg r l = { s with readData := laneRead l (s.readReg r) } := by
  have hc : (s.busy && unstableWhileBusy r) = false := by
    rcases h with h | h
    · rw [State.busy_of_idle h, Bool.false_and]
    · rw [h, Bool.and_false]
  rw [State.hostReadReg, hc, if_neg Bool.false_ne_true]

theorem unstableWhileBusy_eq_false {r : Reg}
    (h : r ∉ [Reg.acc, .ctSize, .ctPoly, .errinfo0, .errinfo1, .ucount, .ncount]) : unstableWhileBusy r = false := by
  cases r <;> simp at h <;> rfl

/-- A 32-bit access aligned to 4 reaches a half. -/
theorem laneOf_half {o : Nat} (h : o % 4 = 0) : ∃ l, laneOf .b32 o = some l := by
  by_cases h0 : o % 8 = 0
  · exact ⟨.low, laneOf_low h0⟩
  · exact ⟨.high, laneOf_high (by omega)⟩

/-- The map of R18 ends before the offset 0x0C8 (10_state.md R33). -/
theorem State.hostAccess_reserved {size : AccessSize} {o : Nat} {k : AccessKind} {l : Lane} (h0 : 0x0C8 ≤ o)
    (h1 : o < 0x1000) (hl : laneOf size o = some l) :
    s.hostAccess ⟨size, BitVec.ofNat 24 o, k⟩ =
      .next (match k with | .read => { s with readData := 0 } | .write _ => s) := by
  have ho : (BitVec.ofNat 24 o).toNat = o := offset_toNat (by omega)
  have hnone : regMap[o / 8]? = none := List.getElem?_eq_none (by change 25 ≤ o / 8; omega)
  rw [State.hostAccess_register (l := l) (by rw [ho]; exact hl) (by rw [ho]; exact h1), ho]
  cases k <;> simp only [State.registerAccess, hnone]

/-- A register access that reads changes what the host read and which unspecified word comes next (10_state.md R35). -/
theorem State.registerAccess_read_rest (s : State) (i : Nat) (l : Lane) :
    s.registerAccess i l .read =
      { s with
        readData := (s.registerAccess i l .read).readData, freeIndex := (s.registerAccess i l .read).freeIndex } := by
  unfold State.registerAccess
  cases regMap[i]? with
  | none => rfl
  | some r => exact s.hostReadReg_rest r l

/-- The offsets the spec writes as numbers (10_state.md R18). -/
theorem offset_ctrl : (0x10 : BitVec 24) = BitVec.ofNat 24 (8 * regMap.idxOf .ctrl) := by decide

theorem offset_status : (0x18 : BitVec 24) = BitVec.ofNat 24 (8 * regMap.idxOf .status) := by decide

theorem offset_cmd_high : (0x24 : BitVec 24) = BitVec.ofNat 24 (8 * regMap.idxOf .cmd + 4) := by decide

/-! ### STATUS and CTRL -/

/-- STATUS takes its write-one-to-clear bits from the low half of what is written (10_state.md R22). -/
theorem State.clearStatus_low (s : State) (v : Word) : s.clearStatus (laneWrite .low 0 v) = s.clearStatus v := by
  simp only [State.clearStatus, laneWrite_low_getLsbD v 1 (by omega), laneWrite_low_getLsbD v 2 (by omega),
    laneWrite_low_getLsbD v 3 (by omega)]

/-- CTRL takes IE and SRST from the low half of what is written (R21). -/
theorem State.writeCtrl_low (s : State) (v : Word) : s.writeCtrl (laneWrite .low 0 v) = s.writeCtrl v := by
  simp only [State.writeCtrl, laneWrite_low_getLsbD v 0 (by omega), laneWrite_low_getLsbD v 1 (by omega)]

/-- The mask 0xE has the bits of DONE, ERR and WBUSY alone. -/
theorem getLsbD_clearMask {i : Nat} (hi : i < 64) :
    (0xE : Word).getLsbD i = decide (i = 1 ∨ i = 2 ∨ i = 3) := by
  revert i
  decide

theorem State.clearStatus_statusWord (s : State) (v : Word) :
    (s.clearStatus v).statusWord = s.statusWord &&& ~~~(v &&& 0xE) := by
  apply BitVec.eq_of_getLsbD_eq
  intro i hi
  have hbusy : (s.clearStatus v).busy = s.busy := rfl
  rw [BitVec.getLsbD_and, BitVec.getLsbD_not, BitVec.getLsbD_and, getLsbD_clearMask hi, State.statusWord_getLsbD,
    State.statusWord_getLsbD]
  by_cases h : i = 1 ∨ i = 2 ∨ i = 3
  · rcases h with rfl | rfl | rfl <;> simp
  · obtain ⟨h1, h2, h3⟩ : i ≠ 1 ∧ i ≠ 2 ∧ i ≠ 3 := by omega
    simp [hbusy, h1, h2, h3, hi]

/-! ### Resets -/

theorem State.clearRegisters_statusWord (s : State) : s.clearRegisters.statusWord = 0 := by
  have hbusy : s.clearRegisters.busy = false := State.busy_of_idle rfl
  simp [State.statusWord, hbusy]

/-- With the registers cleared the block is as after power-on, but for BUF and what lies outside the block (R41, R142 a, c). -/
theorem State.clearRegisters_asReset (s : State) :
    readsAsReset s.clearRegisters ∧ s.clearRegisters.phase = .idle ∧ s.clearRegisters.latch = .zero ∧
      s.clearRegisters.irq = false := by
  refine ⟨fun r => ?_, rfl, rfl, rfl⟩
  cases r
  case status => exact s.clearRegisters_statusWord
  all_goals rfl

theorem State.softReset_eq_clearRegisters (s : State) :
    s.softReset = ({ s with mem := s.softReset.mem } : State).clearRegisters := s.softReset_rest

theorem State.softReset_of_idle (h : s.phase = .idle) : s.softReset = s.clearRegisters := by
  rw [State.softReset, h]

theorem Memory.readHalf_nil (h : Nat) : Memory.readHalf [] h = none := rfl

theorem step_reset {rest : List Input} (h : s.inputs = .reset :: rest) :
    step s = .next ({ s with inputs := rest } : State).powerOnReset := by
  rw [step, State.advance, h]

end Sys2Proof.Machine
end

section
/-! What a command that answers leaves of the registers and of a region its overlap predicate names (10_state.md R16, R28;
40_common.md R86), drawn from `exec_next` and `Changed`. -/

namespace Sys2Proof.Machine

open Sys2Proof

variable {i : Instr} {s t u : State}

/-- A command that answers completes, with or without a code, what its pseudocode has changed; a command that is rejected, nothing. -/
theorem exec_changed (h : exec i s = .next t) :
    ∃ u, Changed i s u ∧ (t = u.complete ∨ ∃ x, t = u.raiseError x) := by
  rcases exec_next h with ⟨x, -, ht⟩ | ⟨-, u, hu, ht | ⟨x, ht⟩⟩
  · exact ⟨s, Changed.refl i s, .inr ⟨x, ht⟩⟩
  · exact ⟨u, hu, .inl ht⟩
  · exact ⟨u, hu, .inr ⟨_, ht⟩⟩

theorem of_writesAcc (h : writesAcc i = true) :
    ∃ e w, i = .dot e w ∨ i = .dota e w ∨ i = .dots e w ∨ i = .accld e w ∨ i = .accadd e w := by
  cases i <;> simp [writesAcc] at h <;> simp

theorem Changed.writesAcc_of_acc_ne (h : Changed i s u) (hne : u.acc ≠ s.acc) : writesAcc i = true :=
  eq_true_of_ne_false fun hi => hne (h.acc hi)

theorem Changed.drawsUniform_of_ucount_ne (h : Changed i s u) (hne : u.ucount ≠ s.ucount) : drawsUniform i = true :=
  eq_true_of_ne_false fun hi => hne (h.ucount hi)

theorem Changed.drawsNoise_of_ncount_ne (h : Changed i s u) (hne : u.ncount ≠ s.ncount) : drawsNoise i = true :=
  eq_true_of_ne_false fun hi => hne (h.ncount hi)

theorem Changed.desc_rest (h : Changed i s u) :
    u.desc = { s.desc with ctSize := u.desc.ctSize, ctPoly := u.desc.ctPoly } := by
  rcases h.desc with hd | ⟨-, hd⟩ | ⟨-, hd⟩ <;> rw [hd]

theorem Changed.aenc_of_ctSize_ne (h : Changed i s u) (hne : u.desc.ctSize ≠ s.desc.ctSize) :
    ∃ e w, i = .aencLwe e w ∨ i = .aencGlwe e w := by
  rcases h.desc with hd | ⟨⟨e, w, hi⟩, -⟩ | ⟨⟨e, w, hi⟩, -⟩
  · exact absurd (by rw [hd]) hne
  · exact ⟨e, w, .inl hi⟩
  · exact ⟨e, w, .inr hi⟩

theorem Changed.aencGlwe_of_ctPoly_ne (h : Changed i s u) (hne : u.desc.ctPoly ≠ s.desc.ctPoly) :
    ∃ e w, i = .aencGlwe e w := by
  rcases h.desc with hd | ⟨-, hd⟩ | ⟨hi, -⟩
  · exact absurd (by rw [hd]) hne
  · exact absurd (by rw [hd]) hne
  · exact hi

/-- A byte of a region that stands apart from another lies outside the other. -/
theorem Apart.byte_outside {b l c n a : Nat} (h : Apart b l c n) (h0 : 8 * c ≤ a) (h1 : a < 8 * (c + n)) :
    a < 8 * b ∨ 8 * (b + l) ≤ a := by
  rcases h with h | h | h | h <;> omega

/-- A region that a command's overlap predicates hold apart from all it writes keeps its bytes: a command that runs has found them
true, and one that is rejected writes nothing (40_common.md R82, R86). -/
theorem exec_keeps_apart_region {r : Region} (h : exec i s = .next t)
    (hr : ∀ c ∈ writtenRegions s.latch.desc i, overlapCheck c r ∈ validation s.bufWords s.latch.desc i) {a : Nat}
    (h0 : 8 * r.base ≤ a) (h1 : a < 8 * (r.base + r.len)) : t.mem.readByte a = s.mem.readByte a := by
  rcases exec_next h with ⟨x, -, rfl⟩ | ⟨hpass, u, hu, hend⟩
  · rfl
  · have hout : u.mem.readByte a = s.mem.readByte a := hu.outside a fun c hc =>
      (overlapCheck_holds.1 (firstFailure_eq_none.1 hpass _ (hr c hc))).byte_outside h0 h1
    rcases hend with rfl | ⟨x, rfl⟩ <;> exact hout

end Sys2Proof.Machine
end

section
/-! The statements about the state: registers, BUF at the host port, and the two resets (10_state.md). -/

namespace Sys2Proof.Machine

open Sys2Proof

/-- Settles O9: a 64-bit write gives the cell its word, of which every lane can be read; a 32-bit write is a write of one half. -/
theorem hostSeesLittleEndianLanes : Obligations.HostSeesLittleEndianLanes := by
  unfold Obligations.HostSeesLittleEndianLanes
  intro s a v hidle ha hn
  have hwrite : ∀ l, s.bufAccess a l (.write v) = .next (s.hostWriteCell a l v) := fun l =>
    State.bufAccess_write_of_idle hidle a l v
  refine ⟨⟨s.mem.writeCell a v, (State.hostAccess_cell_whole ha hn).trans (hwrite .whole), ?_, ?_⟩,
    ⟨s.mem.writeHalf (2 * a) (v.extractLsb' 0 32), (State.hostAccess_cell_low ha hn).trans (hwrite .low), ?_, ?_, ?_⟩,
    ⟨s.mem.writeHalf (2 * a + 1) (v.extractLsb' 0 32), (State.hostAccess_cell_high ha hn).trans (hwrite .high), ?_, ?_, ?_⟩⟩
  · exact fun b hb => Memory.readByte_writeCell _ _ _ _ hb
  · exact State.hostAccess_read_of_readCell (s := { s with mem := s.mem.writeCell a v }) hidle ha hn
      (by rw [Memory.readCell_writeCell, if_pos rfl])
  · exact Memory.readHalf_writeHalf_same _ _ _
  · exact Memory.readHalf_writeHalf_other _ _ (by omega)
  · exact fun b hb => Memory.readByte_writeHalf_other _ _ (by omega)
  · exact Memory.readHalf_writeHalf_same _ _ _
  · exact Memory.readHalf_writeHalf_other _ _ (by omega)
  · exact fun b hb => Memory.readByte_writeHalf_other _ _ (by omega)

/-- Settles O10: the access reaches a lane of the register, and what it stores is the old value with that lane replaced. -/
theorem registerWriteStores : Obligations.RegisterWriteStores := by
  unfold Obligations.RegisterWriteStores
  intro s r v hidle hr size above new hnew
  obtain ⟨l, habove, hl, rfl⟩ : ∃ l, above < 8 ∧ laneOf size (8 * regMap.idxOf r + above) = some l ∧
      new = laneWrite l (s.readReg r) v := by
    rcases hnew with ⟨rfl, rfl, rfl⟩ | ⟨rfl, rfl, rfl⟩ | ⟨rfl, rfl, rfl⟩
    · exact ⟨.whole, by omega, laneOf_whole (by omega), rfl⟩
    · exact ⟨.low, by omega, laneOf_low (by omega), rfl⟩
    · exact ⟨.high, by omega, laneOf_high (by omega), rfl⟩
  refine ⟨s.storeReg r (laneWrite l (s.readReg r) v), ?_, State.readReg_storeReg_same hr _,
    fun q hq => State.readReg_storeReg_other hq _, State.storeReg_mem .., (State.storeReg_phase ..).trans hidle,
    State.storeReg_latch ..⟩
  rw [State.hostAccess_reg habove hl]
  exact congrArg _ (State.hostWriteReg_stored_of_idle hidle hr l v)

/-- Settles O11: `regMap` ends before the reserved offsets, and no arm of a read-only register looks at BUSY. -/
theorem readOnlyAndReservedIgnoreWrites : Obligations.ReadOnlyAndReservedIgnoreWrites := by
  unfold Obligations.ReadOnlyAndReservedIgnoreWrites
  intro s v
  refine ⟨fun r hr => ⟨?_, ?_, ?_⟩, fun o h0 h1 => ⟨fun h8 => ?_, fun h4 => ?_⟩⟩
  · exact State.hostAccess_reg_whole.trans (congrArg _ (State.hostWriteReg_readOnly hr _ v))
  · exact State.hostAccess_reg_low.trans (congrArg _ (State.hostWriteReg_readOnly hr _ v))
  · exact State.hostAccess_reg_high.trans (congrArg _ (State.hostWriteReg_readOnly hr _ v))
  · have hl := laneOf_whole h8
    exact ⟨State.hostAccess_reserved h0 h1 hl, State.hostAccess_reserved h0 h1 hl⟩
  · obtain ⟨l, hl⟩ := laneOf_half h4
    exact ⟨State.hostAccess_reserved h0 h1 hl, State.hostAccess_reserved h0 h1 hl⟩

/-- Settles O12: `State.dropWrite` sets WBUSY and does nothing else. -/
theorem writesWhileBusyAreDropped : Obligations.WritesWhileBusyAreDropped := by
  unfold Obligations.WritesWhileBusyAreDropped
  intro s v hbusy
  have hdrop : ∀ r ∈ Reg.cmd :: storedRegs, ∀ l, l ≠ Lane.high → s.hostWriteReg r l v = s.dropWrite := by
    intro r hr l hl
    rcases List.mem_cons.1 hr with rfl | hr
    · exact State.hostWriteReg_cmd_of_busy hbusy hl v
    · exact State.hostWriteReg_stored_of_busy hbusy hr l v
  refine ⟨fun r hr => ⟨?_, ?_⟩, fun r hr => ?_, ?_⟩
  · exact State.hostAccess_reg_whole.trans (congrArg _ (hdrop r hr .whole (by decide)))
  · exact State.hostAccess_reg_low.trans (congrArg _ (hdrop r hr .low (by decide)))
  · exact State.hostAccess_reg_high.trans (congrArg _ (State.hostWriteReg_stored_of_busy hbusy hr .high v))
  · rw [offset_cmd_high, State.hostAccess_reg_high]
    rfl

/-- Settles O18: a read that answers is one of a register, of a reserved offset or of a cell. -/
theorem hostReadsHaveNoSideEffects : Obligations.HostReadsHaveNoSideEffects := by
  unfold Obligations.HostReadsHaveNoSideEffects
  refine ⟨fun s t size o h => ?_, fun s r h => ?_⟩
  · rcases State.hostAccess_next h with ⟨i, l, rfl⟩ | ⟨a, l, -, h⟩
    · exact s.registerAccess_read_rest i l
    · unfold State.bufAccess at h
      split_ifs at h
      rw [State.hostReadCell_next h]
  · have hread : ∀ l, s.hostReadReg r l = { s with readData := laneRead l (s.readReg r) } :=
      State.hostReadReg_of_stable (h.imp_right unstableWhileBusy_eq_false)
    refine ⟨?_, ?_, ?_⟩
    · exact State.hostAccess_reg_whole.trans (congrArg _ (hread .whole))
    · exact State.hostAccess_reg_low.trans (congrArg _ (hread .low))
    · exact State.hostAccess_reg_high.trans (congrArg _ (hread .high))

/-- Settles O24: a completion changes the flags and the information words alone, so the registers are those of the state that the
pseudocode has left. -/
theorem commandsKeepOtherRegisters : Obligations.CommandsKeepOtherRegisters := by
  unfold Obligations.CommandsKeepOtherRegisters
  intro i s t h
  obtain ⟨u, hu, hend⟩ := exec_changed h
  have hbufWords : u.bufWords = s.bufWords := by rw [hu.rest]
  have hie : u.ie = s.ie := by rw [hu.rest]
  have hwbusy : u.wbusy = s.wbusy := by rw [hu.rest]
  have hlastop : u.lastop = s.lastop := by rw [hu.rest]
  have hcmd : u.cmd = s.cmd := by rw [hu.rest]
  have hlatch : u.latch = s.latch := by rw [hu.rest]
  have hinputs : u.inputs = s.inputs := by rw [hu.rest]
  have hreadData : u.readData = s.readData := by rw [hu.rest]
  rcases hend with rfl | ⟨x, rfl⟩ <;>
    exact ⟨hbufWords, hie, hwbusy, hlastop, hcmd, hlatch, hinputs, hreadData,
      fun hne => of_writesAcc (hu.writesAcc_of_acc_ne hne), hu.desc_rest, hu.aenc_of_ctSize_ne,
      hu.aencGlwe_of_ctPoly_ne, hu.drawsUniform_of_ucount_ne, hu.drawsNoise_of_ncount_ne⟩

/-- Settles O26: each of these commands has the overlap predicate of what it writes against its KEY region. -/
theorem secretKeyIsNeverWritten : Obligations.SecretKeyIsNeverWritten := by
  unfold Obligations.SecretKeyIsNeverWritten
  intro i s t r h hkey a h0 h1
  refine exec_keeps_apart_region h ?_ h0 h1
  rcases hkey with ⟨e, w, rfl | rfl | rfl | rfl | rfl, rfl⟩ | ⟨e, w, rfl | rfl | rfl | rfl, rfl⟩ <;>
    simp [writtenRegions, validation, overlapChecks]

/-- Settles O13: both widths reach the three bits, which stand in the low half. -/
theorem statusWriteOneToClear : Obligations.StatusWriteOneToClear := by
  unfold Obligations.StatusWriteOneToClear
  intro s v
  refine ⟨s.clearStatus v, ?_, ?_, s.clearStatus_statusWord v, rfl⟩
  · rw [offset_status, State.hostAccess_reg_whole]
    rfl
  · rw [offset_status, State.hostAccess_reg_low]
    exact congrArg _ (s.clearStatus_low v)

/-- Settles O14: both widths reach IE and SRST, which stand in the low half. -/
theorem ctrlWriteOrSoftReset : Obligations.CtrlWriteOrSoftReset := by
  unfold Obligations.CtrlWriteOrSoftReset
  intro s v
  refine ⟨s.writeCtrl v, ?_, ?_, fun h1 => ?_, fun h1 => ?_⟩
  · rw [offset_ctrl, State.hostAccess_reg_whole]
    rfl
  · rw [offset_ctrl, State.hostAccess_reg_low]
    exact congrArg _ (s.writeCtrl_low v)
  · rw [State.writeCtrl, h1, if_neg Bool.false_ne_true]
  · rw [State.writeCtrl, if_pos h1]
    have hmem : s.phase = .idle → s.softReset.mem = s.mem := fun hidle => by rw [State.softReset_of_idle hidle]; rfl
    rw [State.softReset_eq_clearRegisters]
    obtain ⟨hregs, hphase, hlatch, hirq⟩ := ({ s with mem := s.softReset.mem } : State).clearRegisters_asReset
    exact ⟨hregs, hphase, hlatch, hirq, rfl, hmem⟩

/-- Settles O16: after power-on and after the reset input the registers are cleared and BUF is empty. -/
theorem powerOnReset : Obligations.PowerOnReset := by
  unfold Obligations.PowerOnReset
  refine ⟨fun n => ?_, fun s rest h => ⟨_, step_reset h, ?_⟩⟩
  · obtain ⟨hregs, hphase, hlatch, hirq⟩ := (State.powerOn n).clearRegisters_asReset
    exact ⟨hregs, hphase, hlatch, hirq, rfl, Memory.readHalf_nil⟩
  · obtain ⟨hregs, hphase, hlatch, hirq⟩ := ({ s with inputs := rest, mem := [] } : State).clearRegisters_asReset
    exact ⟨hregs, hphase, hlatch, hirq, rfl, Memory.readHalf_nil, rfl, rfl, rfl⟩

end Sys2Proof.Machine
end

section
/-! What the memory primitives and the host port do at a cell of BUF, once: where they answer, where a half without a value
faults, and where an access is a bus error (20_memory.md R43, R45, R49, R50, R57). -/

namespace Sys2Proof.Machine

open Sys2Proof

variable {s : State} {a : Nat}

/-! ### Cells without a value -/

/-- A cell is read where both its halves hold a value (10_state.md R37). -/
theorem Memory.readCell_eq_none_iff {m : Memory} :
    m.readCell a = none ↔ m.readHalf (2 * a) = none ∨ m.readHalf (2 * a + 1) = none := by
  unfold Memory.readCell
  cases m.readHalf (2 * a) <;> cases m.readHalf (2 * a + 1) <;> simp

/-! ### Memory primitives -/

theorem State.memWrite_of_lt (ha : a < s.bufWords) (v : Word) :
    s.memWrite a v = .done { s with mem := s.mem.writeCell a v } := if_pos ha

theorem State.memWrite_of_le (ha : s.bufWords ≤ a) (v : Word) : s.memWrite a v = .fault .addressRange :=
  if_neg (by omega)

theorem State.memRead_of_le (ha : s.bufWords ≤ a) : s.memRead a = .fault .addressRange := if_neg (by omega)

theorem State.memRead_of_readCell {v : Word} (ha : a < s.bufWords) (h : s.mem.readCell a = some v) :
    s.memRead a = .done v := by
  rw [State.memRead, if_pos ha, h]

theorem State.memRead_uninit (ha : a < s.bufWords) (h : s.mem.readCell a = none) : s.memRead a = .fault .uninitRead := by
  rw [State.memRead, if_pos ha, h]

theorem State.readElem_w64_of_readCell {v : Word} (ha : a < s.bufWords) (h : s.mem.readCell a = some v) :
    s.readElem .w64 a = .done v.toNat := by
  rw [State.readElem_w64, if_pos ha, h]

theorem State.readElem_w64_uninit (ha : a < s.bufWords) (h : s.mem.readCell a = none) :
    s.readElem .w64 a = .fault .uninitRead := by
  rw [State.readElem_w64, if_pos ha, h]

theorem State.readElem_w32_of_readHalf {v : Half} (ha : a < s.bufWords) (h : s.mem.readHalf (2 * a) = some v) :
    s.readElem .w32 a = .done v.toNat := by
  rw [State.readElem_w32, if_pos ha, h]

theorem State.readElem_w32_uninit (ha : a < s.bufWords) (h : s.mem.readHalf (2 * a) = none) :
    s.readElem .w32 a = .fault .uninitRead := by
  rw [State.readElem_w32, if_pos ha, h]

/-! ### Host accesses of BUF -/

theorem State.hostReadCell_whole_uninit (h : s.mem.readCell a = none) : s.hostReadCell a .whole = .fault .uninitRead := by
  simp only [State.hostReadCell, h]

theorem State.hostReadCell_low_uninit (h : s.mem.readHalf (2 * a) = none) : s.hostReadCell a .low = .fault .uninitRead := by
  simp only [State.hostReadCell, h]

theorem State.hostReadCell_high_uninit (h : s.mem.readHalf (2 * a + 1) = none) :
    s.hostReadCell a .high = .fault .uninitRead := by
  simp only [State.hostReadCell, h]

/-- A host read of a cell faults for want of a value alone (20_memory.md R50). -/
theorem State.hostReadCell_fault {l : Lane} {f : Fault} (h : s.hostReadCell a l = .fault f) : f = .uninitRead := by
  unfold State.hostReadCell at h
  split at h <;> split at h <;> cases h <;> rfl

theorem State.bufAccess_of_busy (h : s.phase = .busy) (a : Nat) (l : Lane) (k : AccessKind) :
    s.bufAccess a l k = .fault .hostBufWhileBusy := by
  simp only [State.bufAccess, State.busy_of_busy h, if_true]

/-- Every way an access of a cell can fault (R50, R57). -/
theorem State.bufAccess_fault {l : Lane} {k : AccessKind} {f : Fault} (h : s.bufAccess a l k = .fault f) :
    f = .hostBufWhileBusy ∨ f = .uninitRead := by
  unfold State.bufAccess at h
  split_ifs at h
  · cases h
    exact .inl rfl
  · cases k with
    | read => exact .inr (State.hostReadCell_fault h)
    | write v => cases h

/-! ### Bus errors -/

/-- An access has no lane exactly where R45 does not allow its width or its alignment. -/
theorem laneOf_eq_none_iff {size : AccessSize} {o : Nat} :
    laneOf size o = none ↔
      (size ≠ .b32 ∧ size ≠ .b64) ∨ (size = .b64 ∧ o % 8 ≠ 0) ∨ (size = .b32 ∧ o % 4 ≠ 0) := by
  cases size with
  | b32 =>
    by_cases h : o % 4 = 0
    · obtain ⟨l, hl⟩ := laneOf_half h
      simp [hl, h]
    · simp [laneOf, h, show ¬ o % 8 = 0 by omega, show ¬ o % 8 = 4 by omega]
  | b64 => simp [laneOf]
  | b8 | b16 | b128 => simp [laneOf]

/-- The gap between the register page and the BUF window, and what lies past that window (R43). -/
theorem targetOf_eq_unmapped_iff {n o : Nat} :
    targetOf n o = .unmapped ↔ (0x1000 ≤ o ∧ o < 0x100000) ∨ 0x100000 + 8 * n ≤ o ∧ 0x100000 ≤ o := by
  unfold targetOf
  split_ifs <;> simp only [true_iff, false_iff] <;> omega

/-- Only the offset and the width of an access can make it a bus error: neither a register nor a cell answers one. -/
theorem State.hostAccess_busError_iff {x : Access} :
    s.hostAccess x = .fault .hostBusError ↔
      laneOf x.size x.offset.toNat = none ∨ targetOf s.bufWords x.offset.toNat = .unmapped := by
  unfold State.hostAccess
  split
  next hl => simp [hl]
  next ht => simp [ht]
  next hl ht => simp [hl, ht]
  next l a hl ht =>
    have hcell : s.bufAccess a l x.kind ≠ .fault .hostBusError := fun h => by simpa using State.bufAccess_fault h
    simp [hl, ht, hcell]

end Sys2Proof.Machine
end

section
/-! The statements about BUF and the host window (20_memory.md). -/

namespace Sys2Proof.Machine

open Sys2Proof

/-- Settles O5: the cell takes the word of the element, and what a read of width b needs of that word is the element again. -/
theorem elementTakesOneCell : Obligations.ElementTakesOneCell := by
  unfold Obligations.ElementTakesOneCell
  intro s a ha
  refine ⟨fun w v => ⟨{ s with mem := s.mem.writeCell a (wordOf w v) }, State.writeElem_eq s w a v ha, ?_⟩,
    fun x hx => State.readElem_w64_of_readCell ha hx, fun lo hlo => State.readElem_w32_of_readHalf ha hlo⟩
  have hcell : (s.mem.writeCell a (wordOf w v)).readCell a = some (wordOf w v) := by
    rw [Memory.readCell_writeCell, if_pos rfl]
  refine ⟨⟨wordOf w v, hcell, wordOf_toNat w v⟩, State.readElem_of_cell ha hcell, ?_⟩
  rintro rfl
  rw [(Memory.readHalf_of_readCell hcell).2, high_half_wordOf]

/-- Settles O6: a cell that lacks a half cannot be read whole, and a 32-bit read needs the one half it names. -/
theorem unvaluedHalfFaults : Obligations.UnvaluedHalfFaults := by
  unfold Obligations.UnvaluedHalfFaults
  intro s a ha
  have hhost : ∀ {l}, s.phase = .idle → s.hostReadCell a l = .fault .uninitRead →
      s.bufAccess a l .read = .fault .uninitRead :=
    fun hidle h => (State.bufAccess_read_of_idle hidle a _).trans h
  refine ⟨fun h => ?_, fun h => ?_, fun hidle hn h => ?_, fun hidle hn h => ?_⟩
  · have hcell := Memory.readCell_eq_none_iff.2 (.inl h)
    exact ⟨State.readElem_w32_uninit ha h, State.readElem_w64_uninit ha hcell, State.memRead_uninit ha hcell⟩
  · have hcell := Memory.readCell_eq_none_iff.2 (.inr h)
    exact ⟨State.readElem_w64_uninit ha hcell, State.memRead_uninit ha hcell⟩
  · have hcell := Memory.readCell_eq_none_iff.2 (.inl h)
    exact ⟨(State.hostAccess_cell_whole ha hn).trans (hhost hidle (State.hostReadCell_whole_uninit hcell)),
      (State.hostAccess_cell_low ha hn).trans (hhost hidle (State.hostReadCell_low_uninit h))⟩
  · have hcell := Memory.readCell_eq_none_iff.2 (.inr h)
    exact ⟨(State.hostAccess_cell_whole ha hn).trans (hhost hidle (State.hostReadCell_whole_uninit hcell)),
      (State.hostAccess_cell_high ha hn).trans (hhost hidle (State.hostReadCell_high_uninit h))⟩

/-- Settles O7: no lane, or no target; what an access does once it has both is never a bus error. -/
theorem busErrorsExactly : Obligations.BusErrorsExactly := by
  unfold Obligations.BusErrorsExactly
  intro s x
  rw [State.hostAccess_busError_iff, laneOf_eq_none_iff, targetOf_eq_unmapped_iff]
  simp only [or_assoc]

/-- Settles O4: in range the two primitives are a write and a read of the cell, and past BUF both fault. -/
theorem cellWriteGivesBothHalves : Obligations.CellWriteGivesBothHalves := by
  unfold Obligations.CellWriteGivesBothHalves
  intro s a v
  refine ⟨fun ha => ⟨s.mem.writeCell a v, State.memWrite_of_lt ha v, ?_⟩,
    fun ha => ⟨State.memWrite_of_le ha v, State.memRead_of_le ha⟩⟩
  have hcell : (s.mem.writeCell a v).readCell a = some v := by rw [Memory.readCell_writeCell, if_pos rfl]
  obtain ⟨hlo, hhi⟩ := Memory.readHalf_of_readCell hcell
  exact ⟨hlo, hhi, State.memRead_of_readCell (s := { s with mem := s.mem.writeCell a v }) ha hcell,
    fun b hb => Memory.readByte_writeCell _ _ _ _ hb, fun hwf => Memory.wf_writeCell hwf a v⟩

/-- Settles O8: at either width the access reaches the cell, and `State.bufAccess` looks at BUSY before all else. -/
theorem bufferAccessWhileBusyFaults : Obligations.BufferAccessWhileBusyFaults := by
  unfold Obligations.BufferAccessWhileBusyFaults
  intro s a k hbusy ha hn
  have hfault : ∀ l, s.bufAccess a l k = .fault .hostBufWhileBusy := fun l => State.bufAccess_of_busy hbusy a l k
  exact ⟨(State.hostAccess_cell_whole ha hn).trans (hfault .whole), (State.hostAccess_cell_low ha hn).trans (hfault .low),
    (State.hostAccess_cell_high ha hn).trans (hfault .high)⟩

end Sys2Proof.Machine
end

section
/-! The decoder and the encoder, field by field (30_encoding.md R63, R70, R71): a word is its five fields, a row of the opcode map
is one command, and a word the decoder refuses is one that WellFormed.lean lists. -/

namespace Sys2Proof

open Sys2Proof.Machine

/-! ### The row of a command -/

/-- The mnemonic of a command (R70). -/
def Instr.opcode : Instr → Opcode
  | .nop _ _ => .nop
  | .ufill _ _ => .ufill
  | .nfill _ _ => .nfill
  | .dot _ _ => .dot
  | .dota _ _ => .dota
  | .dots _ _ => .dots
  | .accld _ _ => .accld
  | .accadd _ _ => .accadd
  | .accst _ _ => .accst
  | .encLwe _ _ | .encGlwe _ _ => .enc
  | .aencLwe _ _ | .aencGlwe _ _ => .aenc
  | .zencLwe _ _ | .zencGlwe _ _ => .zenc
  | .tencLwe _ _ | .tencGlwe _ _ => .tenc
  | .atencLwe _ _ | .atencGlwe _ _ => .atenc
  | .decLwe _ _ | .decGlwe _ _ => .dec
  | .encl _ _ => .encl

/-- The ciphertext kind of a command (R67). -/
def Instr.kind : Instr → Kind
  | .encGlwe _ _ | .aencGlwe _ _ | .zencGlwe _ _ | .tencGlwe _ _ | .atencGlwe _ _ | .decGlwe _ _ => .glwe
  | _ => .lwe

theorem rowOf_eq_some_iff {o : Opcode} {k : Kind} {e : Entry} {w : Width} {i : Instr} :
    rowOf o k e w = some i ↔ o = i.opcode ∧ k = i.kind ∧ e = entryOf i ∧ w = widthOf i := by
  constructor
  · intro h
    cases o <;> cases k <;> cases h <;> exact ⟨rfl, rfl, rfl, rfl⟩
  · rintro ⟨rfl, rfl, rfl, rfl⟩
    cases i <;> rfl

theorem encode_eq_commandWord (i : Instr) : encode i = commandWord i.opcode (entryOf i) (widthOf i) i.kind := by
  cases i <;> rfl

/-- The `match` value of a row is its word with the free fields CHK and W at 0 (R71). -/
theorem tableMatch_eq_commandWord (i : Instr) : tableMatch i = commandWord i.opcode .unchecked .w32 i.kind := by
  cases i <;> dsimp only [tableMatch, Instr.opcode, Instr.kind] <;> decide

theorem opcodeOf_eq_some_iff {b : Byte} {o : Opcode} : opcodeOf b = some o ↔ b = opcodeNumber o := by
  constructor
  · intro h
    exact (beq_iff_eq.1 (List.find?_some (p := fun o => opcodeNumber o == b) h)).symm
  · rintro rfl
    cases o <;> rfl

/-! ### The fields of a word -/

theorem ofBool_eq_entryBit_iff {b : Bool} {e : Entry} : BitVec.ofBool b = entryBit e ↔ entryOfBit b = e := by
  cases b <;> cases e <;> decide

theorem ofBool_eq_widthBit_iff {b : Bool} {w : Width} : BitVec.ofBool b = widthBit w ↔ widthOfBit b = w := by
  cases b <;> cases w <;> decide

theorem ofBool_eq_kindBit_iff {b : Bool} {k : Kind} : BitVec.ofBool b = kindBit k ↔ kindOfBit b = k := by
  cases b <;> cases k <;> decide

theorem entryOfBit_eq_iff {b : Bool} {e : Entry} : entryOfBit b = e ↔ (b = true ↔ e = .checked) := by
  cases b <;> cases e <;> decide

theorem widthOfBit_eq_iff {b : Bool} {w : Width} : widthOfBit b = w ↔ (b = true ↔ w = .w64) := by
  cases b <;> cases w <;> decide

theorem bitVec_append_inj {m n : Nat} {x x' : BitVec m} {y y' : BitVec n} : x ++ y = x' ++ y' ↔ x = x' ∧ y = y' := by
  constructor
  · intro h
    have hleft := congrArg (BitVec.extractLsb' n m) h
    have hright := congrArg (BitVec.extractLsb' 0 n) h
    rw [BitVec.extractLsb'_append_eq_left, BitVec.extractLsb'_append_eq_left] at hleft
    rw [BitVec.extractLsb'_append_eq_right, BitVec.extractLsb'_append_eq_right] at hright
    exact ⟨hleft, hright⟩
  · rintro ⟨rfl, rfl⟩
    rfl

/-- A word is its fields, most significant first: RSV, K, W, CHK, OPC (R63). -/
theorem word_eq_fields (c : Word) :
    c = c.extractLsb' 11 53 ++ BitVec.ofBool (c.getLsbD 10) ++ BitVec.ofBool (c.getLsbD 9) ++ BitVec.ofBool (c.getLsbD 8)
      ++ c.extractLsb' 0 8 := by
  have hbit : ∀ i, BitVec.ofBool (c.getLsbD i) = c.extractLsb' i 1 := fun i => by
    ext j hj
    simp [show j = 0 by omega]
  rw [hbit, hbit, hbit]
  iterate 4 rw [BitVec.extractLsb'_append_extractLsb'_eq_extractLsb' (by rfl)]
  exact BitVec.extractLsb'_eq_self.symm

/-- A word is the command word of given fields exactly where its own fields are those, RSV being 0 (R63, R68). -/
theorem eq_commandWord_iff {c : Word} {o : Opcode} {e : Entry} {w : Width} {k : Kind} :
    c = commandWord o e w k ↔ c.extractLsb' 11 53 = 0 ∧ kindOfBit (c.getLsbD 10) = k ∧ widthOfBit (c.getLsbD 9) = w ∧
      entryOfBit (c.getLsbD 8) = e ∧ c.extractLsb' 0 8 = opcodeNumber o := by
  conv_lhs => lhs; rw [word_eq_fields c]
  refine (bitVec_append_inj (m := 53 + 1 + 1 + 1) (n := 8)).trans ?_
  simp only [bitVec_append_inj, ofBool_eq_kindBit_iff, ofBool_eq_widthBit_iff, ofBool_eq_entryBit_iff, and_assoc]

/-! ### The decoder -/

theorem decode_eq_ok_iff_row {c : Word} {i : Instr} :
    decode c = .ok i ↔ c.extractLsb' 11 53 = 0 ∧ ∃ o, c.extractLsb' 0 8 = opcodeNumber o ∧
      rowOf o (kindOfBit (c.getLsbD 10)) (entryOfBit (c.getLsbD 8)) (widthOfBit (c.getLsbD 9)) = some i := by
  simp only [← opcodeOf_eq_some_iff]
  unfold decode
  split
  next hrsv =>
    split
    next hopc => simp [hopc]
    next o hopc =>
      simp only [hrsv, hopc, Option.some.injEq, exists_eq_left', true_and]
      split
      next hrow => simp only [hrow, reduceCtorEq]
      next j hrow => simp only [hrow, Option.some.injEq, Except.ok.injEq]
  next hrsv => simp only [hrsv, reduceCtorEq, false_and]

theorem decode_eq_ok_iff {c : Word} {i : Instr} : decode c = .ok i ↔ c = encode i := by
  rw [decode_eq_ok_iff_row, encode_eq_commandWord, eq_commandWord_iff]
  simp only [rowOf_eq_some_iff]
  constructor
  · rintro ⟨hrsv, o, hopc, rfl, hk, he, hw⟩
    exact ⟨hrsv, hk, hw, he, hopc⟩
  · rintro ⟨hrsv, hk, hw, he, hopc⟩
    exact ⟨hrsv, _, hopc, rfl, hk, he, hw⟩

/-! ### Mask and match -/

/-- The mask of R71 keeps RSV, K and OPC and clears the free fields CHK and W. -/
theorem and_mask_eq_tableMatch_iff {c : Word} {i : Instr} :
    c &&& 0xFFFF_FFFF_FFFF_FCFF = tableMatch i ↔
      c.extractLsb' 11 53 = 0 ∧ kindOfBit (c.getLsbD 10) = i.kind ∧ c.extractLsb' 0 8 = opcodeNumber i.opcode := by
  have hrsv : (c &&& 0xFFFF_FFFF_FFFF_FCFF).extractLsb' 11 53 = c.extractLsb' 11 53 := by
    rw [BitVec.extractLsb'_and]
    exact BitVec.and_allOnes
  have hopc : (c &&& 0xFFFF_FFFF_FFFF_FCFF).extractLsb' 0 8 = c.extractLsb' 0 8 := by
    rw [BitVec.extractLsb'_and]
    exact BitVec.and_allOnes
  rw [tableMatch_eq_commandWord, eq_commandWord_iff, hrsv, hopc]
  simp [entryOfBit, widthOfBit]

/-! ### Legal words -/

/-- OPC is a byte: the reserved values of R70 are all those that no mnemonic has. -/
theorem wordOpcodeListed_iff {c : Word} : wordOpcodeListed c = true ↔ ∃ o, c.extractLsb' 0 8 = opcodeNumber o := by
  simp only [← opcodeOf_eq_some_iff, ← Option.isSome_iff_exists]
  unfold wordOpcodeListed
  generalize c.extractLsb' 0 8 = b
  rw [← Bool.eq_iff_iff]
  revert b
  decide

/-- K = 1 is legal for exactly the mnemonics with a GLWE row, K = 0 for all (R67, R70). -/
theorem wordKindLegal_iff {c : Word} {o : Opcode} (h : c.extractLsb' 0 8 = opcodeNumber o) (e : Entry) (w : Width) :
    wordKindLegal c = true ↔ ∃ i, rowOf o (kindOfBit (c.getLsbD 10)) e w = some i := by
  rw [← Option.isSome_iff_exists]
  unfold wordKindLegal
  rw [h]
  cases c.getLsbD 10 <;> cases o <;> simp [opcodeNumber, kindOfBit, rowOf]

theorem decode_ok_iff_wordWellFormed {c : Word} : (∃ i, decode c = .ok i) ↔ wordWellFormed c = true := by
  simp only [wordWellFormed, Bool.and_eq_true, wordOpcodeListed_iff, decode_eq_ok_iff_row]
  constructor
  · rintro ⟨i, hrsv, o, hopc, hrow⟩
    exact ⟨⟨beq_iff_eq.2 hrsv, o, hopc⟩, (wordKindLegal_iff hopc _ _).2 ⟨i, hrow⟩⟩
  · rintro ⟨⟨hrsv, o, hopc⟩, hkind⟩
    obtain ⟨i, hrow⟩ := (wordKindLegal_iff hopc _ _).1 hkind
    exact ⟨i, beq_iff_eq.1 hrsv, o, hopc, hrow⟩

end Sys2Proof
end

section
/-! The block's turn on a command word and the host's write of a register, as steps (30_encoding.md R71, R75;
40_common.md R79). -/

namespace Sys2Proof.Machine

open Sys2Proof

variable {s t : State} {rest : List Input}

/-! ### The latched word -/

theorem State.runLatched_of_encode {i : Instr} (h : s.latch.cmd = encode i) : s.runLatched = exec i s := by
  rw [State.runLatched, decode_eq_ok_iff.2 h]

/-- An illegal word completes with code 4, the word and 0, whatever its CHK (R71). -/
theorem State.runLatched_of_illegal (h : wordWellFormed s.latch.cmd = false) :
    s.runLatched = .next (s.failedWith 4 s.latch.cmd 0) := by
  unfold State.runLatched
  split
  next i hi => simp [decode_ok_iff_wordWellFormed.1 ⟨i, hi⟩] at h
  next => rfl

/-! ### Steps -/

theorem step_of_busy (hbusy : s.phase = .busy) (h : s.inputs = []) : step s = s.runLatched := by
  rw [step, State.advance, h]
  simp only [State.blockTurn, hbusy]

theorem step_block_of_busy (hbusy : s.phase = .busy) (h : s.inputs = .block :: rest) :
    step s = ({ s with inputs := rest } : State).runLatched := by
  rw [step, State.advance, h]
  simp only [State.blockTurn, hbusy]

/-- `wr REG, v` of ACC or a descriptor register, the block being Idle (R75). -/
theorem step_scriptWr_stored {r : Reg} {v : Word} (hidle : s.phase = .idle) (hr : r ∈ storedRegs)
    (h : s.inputs = scriptWr r v :: rest) : step s = .next (({ s with inputs := rest } : State).storeReg r v) := by
  rw [step, State.advance, h]
  exact State.hostAccess_reg_whole.trans
    (congrArg Host.Outcome.next (State.hostWriteReg_stored_of_idle (s := { s with inputs := rest }) hidle hr .whole v))

theorem State.hostWriteReg_cmd_of_idle (h : s.phase = .idle) (c : Word) : s.hostWriteReg .cmd .whole c = s.start c := by
  simp [State.hostWriteReg, State.busy_of_idle h, laneWrite]

/-- `cmd S`, the block being Idle (R75; 40_common.md R77). -/
theorem step_scriptCmd {sp : Spelling} (hidle : s.phase = .idle) (h : s.inputs = scriptCmd sp :: rest) :
    step s = .next (({ s with inputs := rest } : State).start (spellingWord sp)) := by
  rw [step, State.advance, h]
  exact State.hostAccess_reg_whole.trans
    (congrArg Host.Outcome.next (State.hostWriteReg_cmd_of_idle (s := { s with inputs := rest }) hidle _))

theorem run_succ_of_step {M : Host.Core} {s t : M.State} {k : Nat} (h : M.step s = .next t) : M.run (k + 1) s = M.run k t := by
  rw [Host.Core.run, h]

/-! ### DOT of no elements -/

theorem wordOf_zero (w : Width) : wordOf w 0 = 0 := by cases w <;> rfl

/-- With LEN = 0 no element is in a region, none is read, and the inner product is 0 (42_accumulator.md R99). -/
theorem exec_dot_of_len_zero (e : Entry) (w : Width) (h : s.latch.desc.len = 0) :
    exec (.dot e w) s = .next ({ s with acc := 0 } : State).complete := by
  have hpass : ∀ c ∈ validation s.bufWords s.latch.desc (.dot e w), c.holds = true :=
    addressChecks_pass.2 (by simp [srcARegion, srcBRegion, Fits, h])
  have hproduct : s.innerProduct w s.latch.desc = .done 0 := by
    rw [State.innerProduct, h]
    rfl
  rw [exec_pass hpass, pseudocode, hproduct, Attempt.done_andThen, State.writeAcc, wordOf_zero, Attempt.done_finish]

theorem step_dot_of_len_zero {e : Entry} {w : Width} (hbusy : s.phase = .busy) (h : s.inputs = .block :: rest)
    (hcmd : s.latch.cmd = encode (.dot e w)) (hlen : s.latch.desc.len = 0) :
    step s = .next ({ s with inputs := rest, acc := 0 } : State).complete :=
  (step_block_of_busy hbusy h).trans
    ((State.runLatched_of_encode (s := { s with inputs := rest }) hcmd).trans (exec_dot_of_len_zero e w hlen))

end Sys2Proof.Machine
end

section
/-! The statements about command words and what the host's script writes (30_encoding.md). -/

namespace Sys2Proof.Machine

open Sys2Proof

/-- Settles O1: a word is its five fields, and the row OPC and K select is one command's own. -/
theorem decodeInvertsEncode : Obligations.DecodeInvertsEncode := by
  unfold Obligations.DecodeInvertsEncode
  exact fun _ _ => decode_eq_ok_iff

/-- Settles O2: the mask keeps all the fields of a word but CHK and W; an illegal word is one WellFormed.lean lists, and a Busy
block completes it. -/
theorem decodeByMaskAndMatch : Obligations.DecodeByMaskAndMatch := by
  unfold Obligations.DecodeByMaskAndMatch
  refine ⟨fun c i => ?_, fun _ => decode_ok_iff_wordWellFormed,
    fun s hbusy hillegal => ⟨fun hin => ?_, fun rest hin => ?_⟩⟩
  · rw [decode_eq_ok_iff, encode_eq_commandWord, eq_commandWord_iff, and_mask_eq_tableMatch_iff, ← entryOfBit_eq_iff,
      ← widthOfBit_eq_iff]
    tauto
  · exact (step_of_busy hbusy hin).trans (State.runLatched_of_illegal hillegal)
  · exact (step_block_of_busy hbusy hin).trans (State.runLatched_of_illegal (s := { s with inputs := rest }) hillegal)

/-- Settles O60: LEN is written, the command starts, and DOT of no elements leaves ACC = 0. -/
theorem clearAccumulatorScript : Obligations.ClearAccumulatorScript := by
  unfold Obligations.ClearAccumulatorScript
  intro s w hidle hin
  obtain ⟨t, hwr, htIdle, htInputs, htLen, htMem⟩ : ∃ t, step s = .next t ∧ t.phase = .idle ∧
      t.inputs = [scriptCmd { op := .dot, entry := some .checked, width := w }, .block] ∧ t.desc.len = 0 ∧ t.mem = s.mem :=
    ⟨_, step_scriptWr_stored hidle (by decide) hin, hidle, rfl, rfl, rfl⟩
  obtain ⟨u, hcmd, huBusy, huInputs, huWord, huLatched, huLen, huMem⟩ : ∃ u, step t = .next u ∧ u.phase = .busy ∧
      u.inputs = [.block] ∧ u.latch.cmd = encode (.dot .checked (w.getD .w64)) ∧ u.latch.desc.len = 0 ∧ u.desc.len = 0 ∧
      u.mem = t.mem :=
    ⟨_, step_scriptCmd htIdle htInputs, rfl, rfl, rfl, htLen, htLen, rfl⟩
  have hdot := step_dot_of_len_zero huBusy huInputs huWord huLatched
  exact ⟨_, (run_succ_of_step hwr).trans ((run_succ_of_step hcmd).trans (run_succ_of_step hdot)), rfl, huLen, rfl, rfl,
    huMem.trans htMem⟩

/-- Settles O3: each word listed is the encoding of the command listed with it. -/
theorem spelledWords : Obligations.SpelledWords := by
  unfold Obligations.SpelledWords
  simp only [decode_eq_ok_iff]
  decide

end Sys2Proof.Machine
end

section
/-! How a command starts, runs and completes (40_common.md R77 to R80), and what a draw answers (R87, R88). -/

namespace Sys2Proof.Machine

open Sys2Proof

variable {i : Instr} {s t u : State} {rest : List Input}

/-! ### Start -/

/-- The offset of CMD as the spec writes it (10_state.md R18). -/
theorem offset_cmd : (0x20 : BitVec 24) = BitVec.ofNat 24 (8 * regMap.idxOf .cmd) := by decide

/-- A 32-bit write of a register that held 0 is zero-extended (10_state.md R36). -/
theorem laneWrite_low_zero (v : Word) : laneWrite .low 0 v = (v.extractLsb' 0 32).setWidth 64 := by
  rw [laneWrite, BitVec.setWidth_eq_append (by omega)]
  rfl

/-- A write of CMD that reaches its low half while Idle is the start of the word written (R77). -/
theorem State.hostWriteReg_cmd_start (h : s.phase = .idle) {l : Lane} (hl : l ≠ .high) (v : Word) :
    s.hostWriteReg .cmd l v = s.start (laneWrite l 0 v) := by
  simp [State.hostWriteReg, hl, State.busy_of_idle h]

/-! ### The step -/

theorem State.runLatched_of_decode (h : decode s.latch.cmd = .ok i) : s.runLatched = exec i s :=
  State.runLatched_of_encode (decode_eq_ok_iff.1 h)

theorem State.blockTurn_of_idle (h : s.phase = .idle) : s.blockTurn = .next s := by
  rw [State.blockTurn, h]

theorem step_of_no_input (h : s.inputs = []) : step s = s.blockTurn := by
  rw [step, State.advance, h]

theorem step_block (h : s.inputs = .block :: rest) : step s = ({ s with inputs := rest } : State).blockTurn := by
  rw [step, State.advance, h]

theorem step_host {a : Access} (h : s.inputs = .host a :: rest) :
    step s = ({ s with inputs := rest } : State).hostAccess a := by
  rw [step, State.advance, h]

/-! ### Completion -/

theorem Changed.errinfo (h : Changed i s u) : u.errinfo0 = s.errinfo0 ∧ u.errinfo1 = s.errinfo1 := by
  rw [h.rest]
  exact ⟨rfl, rfl⟩

/-- An error is the completion with its code and words (R80; 60_exceptions.md R126). -/
theorem State.raiseError_eq_failedWith (s : State) (x : CommandError) :
    s.raiseError x = s.failedWith (errorNumber x.code) x.info0 x.info1 := rfl

/-! ### Draws -/

/-- An element is in [0, 2^b) (00_scope.md R8). -/
theorem elemOf_range (w : Width) (v : Word) : 0 ≤ elemOf w v ∧ elemOf w v < (2 ^ widthBits w : Nat) :=
  ⟨torus_nonneg w _, torus_lt w _⟩

theorem noiseElem_range (w : Width) (d v : Word) :
    0 ≤ (if d = 0 then 0 else elemOf w v) ∧ (if d = 0 then 0 else elemOf w v) < (2 ^ widthBits w : Nat) := by
  split_ifs
  · exact ⟨le_rfl, by cases w <;> decide⟩
  · exact elemOf_range w v

/-- A failed draw counts in neither counter. -/
theorem State.draw_of_fail {r : Request} (h : s.answerAt 0 r = .fail) :
    ∃ t, s.draw r = .failed t ∧ t.ucount = s.ucount ∧ t.ncount = s.ncount :=
  ⟨_, State.draw_fail h, rfl, rfl⟩

end Sys2Proof.Machine
end

section
/-! The statements about the life of a command and the draws (40_common.md). -/

namespace Sys2Proof.Machine

open Sys2Proof

/-- Settles O17: both widths reach the low half of CMD, and the high half alone does nothing. -/
theorem commandWriteStarts : Obligations.CommandWriteStarts := by
  unfold Obligations.CommandWriteStarts
  refine ⟨fun s v _ => ?_, fun s v size c hc => ?_⟩
  · rw [offset_cmd_high, State.hostAccess_reg_high]
    rfl
  · obtain ⟨l, hl, hlow, rfl⟩ : ∃ l, laneOf size (8 * regMap.idxOf .cmd + 0) = some l ∧ l ≠ .high ∧
        c = laneWrite l 0 v := by
      rcases hc with ⟨rfl, rfl⟩ | ⟨rfl, rfl⟩
      · exact ⟨.whole, laneOf_whole (by omega), by decide, rfl⟩
      · exact ⟨.low, laneOf_low (by omega), by decide, (laneWrite_low_zero v).symm⟩
    have haccess : s.hostAccess ⟨size, 0x20, .write v⟩ = .next (s.hostWriteReg .cmd l v) := by
      rw [offset_cmd]
      exact State.hostAccess_reg (by omega) hl
    rw [haccess]
    exact ⟨fun hidle => congrArg _ (State.hostWriteReg_cmd_start hidle hlow v),
      fun hbusy => congrArg _ (State.hostWriteReg_cmd_of_busy hbusy hlow v)⟩

/-- Settles O20: the three forms of the next input, the block's turn going by the phase. -/
theorem stepRunsTheLatchedCommand : Obligations.StepRunsTheLatchedCommand := by
  unfold Obligations.StepRunsTheLatchedCommand
  refine ⟨fun s i hbusy hi => ⟨fun hin => ?_, fun rest hin => ?_⟩, fun s hidle => ⟨fun hin => ?_, fun rest hin => ?_⟩,
    fun s a rest hin => step_host hin⟩
  · exact (step_of_busy hbusy hin).trans (State.runLatched_of_decode hi)
  · exact (step_block_of_busy hbusy hin).trans (State.runLatched_of_decode (s := { s with inputs := rest }) hi)
  · exact (step_of_no_input hin).trans (State.blockTurn_of_idle hidle)
  · exact (step_block hin).trans (State.blockTurn_of_idle (s := { s with inputs := rest }) hidle)

/-- Settles O31: NOP has no predicate and its pseudocode is empty. -/
theorem nopCompletes : Obligations.NopCompletes := by
  unfold Obligations.NopCompletes
  intro e w s
  rw [exec_pass (by simp [validation])]
  rfl

/-- Settles O23: a command that answers ends by one of the two completions. -/
theorem everyCommandCompletes : Obligations.EveryCommandCompletes := by
  unfold Obligations.EveryCommandCompletes
  intro i s t h
  obtain ⟨u, hu, rfl | ⟨x, rfl⟩⟩ := exec_changed h
  · exact ⟨rfl, rfl, by simp, by simp, fun _ => hu.errinfo⟩
  · obtain ⟨hne, hle⟩ := errorNumber_range x.code
    exact ⟨rfl, rfl, iff_of_true rfl hne, hle, fun h0 => absurd h0 hne⟩

/-- Settles O25: a command ends at its first false predicate, with nothing changed, or after its pseudocode, whose one error is
that of a failed draw, code 3. -/
theorem commandsWriteTheirRegionsOnly : Obligations.CommandsWriteTheirRegionsOnly := by
  unfold Obligations.CommandsWriteTheirRegionsOnly
  intro i s t h
  rcases exec_next h with ⟨x, -, rfl⟩ | ⟨-, u, hu, rfl | ⟨x, rfl⟩⟩
  · exact ⟨fun _ _ => rfl, fun _ _ => State.raiseError_eq_failedWith s x⟩
  · exact ⟨hu.outside, fun hne => absurd rfl hne⟩
  · exact ⟨hu.outside, fun _ hne => absurd rfl hne⟩

/-- Settles O29: by the oracle's answer to the draw. -/
theorem drawsObeyTheirLaws : Obligations.DrawsObeyTheirLaws := by
  unfold Obligations.DrawsObeyTheirLaws
  intro s w
  have hnoise : ∀ (d : Word) (k : NoiseKind) (v : Word), s.answerAt 0 (.noise w d k) = .ok v →
      s.draw (.noise w d k) = .all [if d = 0 then 0 else elemOf w v] (s.drawn 0 1) := fun d k v h => State.draw_noise_ok h
  refine ⟨fun v h => State.draw_ok h, hnoise, fun r h => State.draw_fail h, fun k => ?_, fun d k => ?_, ?_⟩
  · cases h : s.answerAt 0 (.noise w 0 k) with
    | ok v => exact .inl ⟨_, hnoise 0 k v h, rfl⟩
    | fail => exact .inr (State.draw_of_fail h)
  · cases h : s.answerAt 0 (.noise w d k) with
    | ok v => exact .inl ⟨_, _, hnoise d k v h, (noiseElem_range w d v).1, (noiseElem_range w d v).2, rfl⟩
    | fail => exact .inr (State.draw_of_fail h)
  · cases h : s.answerAt 0 (.uniform w) with
    | ok v => exact .inl ⟨_, _, State.draw_ok h, (elemOf_range w v).1, (elemOf_range w v).2, rfl⟩
    | fail => exact .inr (State.draw_of_fail h)

end Sys2Proof.Machine
end

section
/-! Where a command faults, once for all commands (40_common.md R79, R83; 60_exceptions.md R129): its pseudocode first reads its
operands, and with those read nothing that follows can fault. `Attempt.NeedsCells` says so of a stretch of pseudocode and is put
together read by read. -/

namespace Sys2Proof.Machine

open Sys2Proof

variable {i : Instr} {s : State} {w : Width} {d : Descriptors} {t : Attempt State}

/-! ### Pseudocode that cannot fault -/

/-- The stretch ends with a value or with an error. -/
def Attempt.NoFault (t : Attempt State) : Prop := ∀ f, t ≠ .fault f

theorem Attempt.noFault_done (u : State) : (Attempt.done u).NoFault := nofun

theorem Attempt.noFault_error (x : CommandError) (u : State) : (Attempt.error x u).NoFault := nofun

theorem Attempt.NoFault.finish (h : t.NoFault) : ∃ u, t.finish = .next u := by
  cases t with
  | done u => exact ⟨_, rfl⟩
  | error x u => exact ⟨_, rfl⟩
  | fault f => exact absurd rfl (h f)

theorem Attempt.NoFault.andThen_done (h : t.NoFault) (f : State → State) : (t.andThen fun u => .done (f u)).NoFault := by
  cases t with
  | done u => exact Attempt.noFault_done _
  | error x u => exact Attempt.noFault_error x u
  | fault g => exact absurd rfl (h g)

theorem State.writeElems_noFault {c n : Nat} {vs : List Int} (hn : vs.length = n) (hfit : Fits s.bufWords c n) :
    (s.writeElems w c vs).NoFault := by
  subst hn
  rw [State.writeElems_eq _ _ _ _ hfit]
  exact Attempt.noFault_done _

theorem State.writeElem_noFault {a : Nat} {v : Int} (hfit : Fits s.bufWords a 1) : (s.writeElem w a v).NoFault := by
  rw [State.writeElem_eq _ _ _ _ (by simpa [Fits] using hfit)]
  exact Attempt.noFault_done _

theorem State.sampleInto_noFault {c m b : Nat} {body : List Int → List Int → List Int} (hfit : Fits s.bufWords c (m + b))
    (hbody : ∀ x y, (body x y).length = y.length ∨ (body x y).length = b) : (s.sampleInto w d c m b body).NoFault := by
  rcases sampleInto_result (w := w) (d := d) (p := true) (q := true) hfit hbody nofun nofun with
    ⟨u, h, -⟩ | ⟨x, u, h, -⟩
  · rw [h]
    exact Attempt.noFault_done u
  · rw [h]
    exact Attempt.noFault_error _ u

theorem State.encryptLwe_noFault {key : List Int} {p : Int} {c : Nat} (hfit : Fits s.bufWords c (d.keyDim.toNat + 1)) :
    (s.encryptLwe w d key p c).NoFault :=
  State.sampleInto_noFault hfit fun _ _ => .inl (length_lweBody ..)

theorem State.encryptGlwe_noFault {key pt : List Int}
    (hfit : Fits s.bufWords d.ctBase.toNat ((d.keyDim.toNat + 1) * d.keyPoly.toNat)) : (s.encryptGlwe w d key pt).NoFault := by
  rw [Nat.add_mul, Nat.one_mul] at hfit
  exact State.sampleInto_noFault hfit fun _ _ => .inr (length_glweBody ..)

theorem State.encryptEach_noFault {key ps : List Int} {c : Nat} (hs : d.ctSize.toNat = d.keyDim.toNat + 1)
    (hfit : Fits s.bufWords c (ps.length * d.ctSize.toNat)) : (s.encryptEach w d key c ps).NoFault := by
  induction ps generalizing s c with
  | nil => exact Attempt.noFault_done s
  | cons p ps ih =>
    rw [List.length_cons, Nat.add_mul, Nat.one_mul] at hfit
    have hfirst : Fits s.bufWords c (d.keyDim.toNat + 1) := by unfold Fits at *; omega
    rw [State.encryptEach]
    rcases within_encryptLwe (w := w) key p hfirst with ⟨u, hu, ht⟩ | ⟨x, u, hu, -⟩ | ⟨f, hf⟩
    · rw [hu, Attempt.done_andThen]
      exact ih (by rw [ht.bufWords]; unfold Fits at *; omega)
    · rw [hu]
      exact Attempt.noFault_error _ u
    · exact absurd hf (State.encryptLwe_noFault hfirst f)

/-! ### Pseudocode that reads first -/

/-- The cells of some regions. -/
def cellsOfRegions (rs : List Region) : Set Nat := {a | ∃ r ∈ rs, r.base ≤ a ∧ a < r.base + r.len}

theorem mem_cellsOfRegions {rs : List Region} {a : Nat} :
    a ∈ cellsOfRegions rs ↔ ∃ r ∈ rs, r.base ≤ a ∧ a < r.base + r.len := Iff.rfl

/-- `t` reads the regions `rs` in state `s` at width `w`: it faults as UninitRead if one of their cells cannot be read and does
not fault if all can (20_memory.md R50; 60_exceptions.md R129). -/
structure Attempt.Needs (s : State) (w : Width) (rs : List Region) (t : Attempt State) : Prop where
  uninit : ∀ a ∈ cellsOfRegions rs, (∀ x, s.readElem w a ≠ .done x) → t = .fault .uninitRead
  ends : (∀ a ∈ cellsOfRegions rs, ∃ x, s.readElem w a = .done x) → t.NoFault

theorem Attempt.NoFault.needs (h : t.NoFault) : t.Needs s w [] := ⟨by simp [mem_cellsOfRegions], fun _ => h⟩

/-- What is read counts by its cells alone. -/
theorem Attempt.Needs.congr {rs rs' : List Region} (h : t.Needs s w rs) (e : cellsOfRegions rs' = cellsOfRegions rs) :
    t.Needs s w rs' := ⟨e ▸ h.uninit, e ▸ h.ends⟩

theorem Attempt.Needs.andThen_done {rs : List Region} (h : t.Needs s w rs) (f : State → State) :
    (t.andThen fun u => .done (f u)).Needs s w rs :=
  ⟨fun a ha hno => by rw [h.uninit a ha hno, Attempt.fault_andThen], fun hall => (h.ends hall).andThen_done f⟩

/-- Reads before the rest need the region read and those the rest needs. -/
theorem needs_readElems (r : Region) {rs : List Region} {k : List Int → Attempt State} (hfit : Fits s.bufWords r.base r.len)
    (h : ∀ xs, xs.length = r.len → (k xs).Needs s w rs) :
    ((s.readElems w r.base r.len).andThen k).Needs s w (r :: rs) := by
  by_cases hread : ∀ j < r.len, ∃ x, s.readElem w (r.base + j) = .done x
  · choose! x hx using hread
    have hk := h ((List.range r.len).map x) (by simp)
    rw [State.readElems_of_readable hx, Attempt.done_andThen]
    refine ⟨?_, fun hall => hk.ends fun b hb => hall b ((List.exists_mem_cons_iff _ _ _).2 (.inr hb))⟩
    intro b hb hno
    rcases (List.exists_mem_cons_iff _ _ _).1 hb with ⟨h0, h1⟩ | hb
    · exact absurd (hx (b - r.base) (by omega)) (by rw [Nat.add_sub_cancel' h0]; exact hno _)
    · exact hk.uninit b hb hno
  · push Not at hread
    obtain ⟨j, hj, hno⟩ := hread
    have hfault : (s.readElems w r.base r.len).andThen k = .fault .uninitRead := by
      rw [State.readElems_uninit (by unfold Fits at hfit; omega) hj hno, Attempt.fault_andThen]
    refine ⟨fun _ _ _ => hfault, fun hall => ?_⟩
    obtain ⟨x, hx⟩ := hall (r.base + j) ⟨r, List.mem_cons_self, by omega, by omega⟩
    exact absurd hx (hno x)

/-- A read of one element is a read of a region of one cell. -/
theorem needs_readElem (id : RegionId) (a : Nat) {rs : List Region} {k : Int → Attempt State} (hfit : Fits s.bufWords a 1)
    (h : ∀ x, (k x).Needs s w rs) : ((s.readElem w a).andThen k).Needs s w (⟨id, a, 1⟩ :: rs) := by
  have hone : (s.readElem w a).andThen k = (s.readElems w a 1).andThen fun xs => k (elemAt xs 0) := by
    simp only [State.readElems]
    cases s.readElem w a <;> rfl
  rw [hone]
  exact needs_readElems ⟨id, a, 1⟩ hfit fun _ _ => h _

theorem needs_innerProduct {f : Int → State} (ha : Fits s.bufWords d.srcA.toNat d.len.toNat)
    (hb : Fits s.bufWords d.srcB.toNat d.len.toNat) :
    ((s.innerProduct w d).andThen fun x => .done (f x)).Needs s w [srcARegion d, srcBRegion d] := by
  have hreads : ((s.innerProduct w d).andThen fun x => .done (f x)) = (s.readElems w d.srcA.toNat d.len.toNat).andThen
      fun a => (s.readElems w d.srcB.toNat d.len.toNat).andThen fun b => .done (f (dotSum d.len.toNat a b)) := by
    rw [State.innerProduct]
    cases s.readElems w d.srcA.toNat d.len.toNat <;> cases s.readElems w d.srcB.toNat d.len.toNat <;> rfl
  rw [hreads]
  exact needs_readElems (srcARegion d) ha fun _ _ => needs_readElems (srcBRegion d) hb fun _ _ =>
    (Attempt.noFault_done _).needs

theorem needs_encLwe (hkey : Fits s.bufWords d.keyBase.toNat d.keyDim.toNat) (hpt : Fits s.bufWords d.ptBase.toNat 1)
    (hct : Fits s.bufWords d.ctBase.toNat (d.keyDim.toNat + 1)) : (s.encLwe w d).Needs s w [keyLwe d, ptOne d] :=
  needs_readElems (keyLwe d) hkey fun _ _ => needs_readElem .pt d.ptBase.toNat hpt fun _ =>
    (State.encryptLwe_noFault hct).needs

theorem needs_encGlwe (hkey : Fits s.bufWords d.keyBase.toNat (d.keyDim.toNat * d.keyPoly.toNat))
    (hpt : Fits s.bufWords d.ptBase.toNat d.keyPoly.toNat)
    (hct : Fits s.bufWords d.ctBase.toNat ((d.keyDim.toNat + 1) * d.keyPoly.toNat)) :
    (s.encGlwe w d).Needs s w [keyGlwe d, ptGlwe d] :=
  needs_readElems (keyGlwe d) hkey fun _ _ => needs_readElems (ptGlwe d) hpt fun _ _ =>
    (State.encryptGlwe_noFault hct).needs

theorem needs_trivialLwe (h1 : 1 ≤ d.ctSize.toNat) (hpt : Fits s.bufWords d.ptBase.toNat 1)
    (hct : Fits s.bufWords d.ctBase.toNat d.ctSize.toNat) : (s.trivialLwe w d).Needs s w [ptOne d] :=
  needs_readElem .pt d.ptBase.toNat hpt fun _ => (State.writeElems_noFault (by simp; omega) hct).needs

theorem needs_trivialGlwe (h1 : 1 ≤ d.ctSize.toNat) (hpt : Fits s.bufWords d.ptBase.toNat d.ctPoly.toNat)
    (hct : Fits s.bufWords d.ctBase.toNat (d.ctSize.toNat * d.ctPoly.toNat)) :
    (s.trivialGlwe w d).Needs s w [ptTrivialGlwe d] :=
  needs_readElems (ptTrivialGlwe d) hpt fun pt hlen => by
    have hcells : (List.replicate ((d.ctSize.toNat - 1) * d.ctPoly.toNat) 0 ++ pt).length = d.ctSize.toNat * d.ctPoly.toNat := by
      rw [List.length_append, List.length_replicate, hlen, ptTrivialGlwe, ← Nat.succ_mul]
      congr 1
      omega
    exact (State.writeElems_noFault hcells hct).needs

/-- DEC.LWE reads the ciphertext's mask, the key and the ciphertext's body (43_kernel.md R120). -/
theorem needs_decLwe {f : List Int → List Int → Int → Int} (hkey : Fits s.bufWords d.keyBase.toNat d.keyDim.toNat)
    (hct : Fits s.bufWords d.ctBase.toNat (d.keyDim.toNat + 1)) (hpt : Fits s.bufWords d.ptBase.toNat 1) :
    ((s.readElems w d.ctBase.toNat d.keyDim.toNat).andThen fun a => (s.readKeyLwe w d).andThen fun key =>
      (s.readElem w (d.ctBase.toNat + d.keyDim.toNat)).andThen fun body =>
        s.writeElem w d.ptBase.toNat (f a key body)).Needs s w [keyLwe d, ctLwe d] := by
  have hmask : Fits s.bufWords d.ctBase.toNat d.keyDim.toNat := by unfold Fits at *; omega
  have hbody : Fits s.bufWords (d.ctBase.toNat + d.keyDim.toNat) 1 := by unfold Fits at *; omega
  refine (needs_readElems ⟨.ct, d.ctBase.toNat, d.keyDim.toNat⟩ hmask fun _ _ => needs_readElems (keyLwe d) hkey fun _ _ =>
    needs_readElem .ct _ hbody fun _ => (State.writeElem_noFault hpt).needs).congr ?_
  ext a
  simp only [mem_cellsOfRegions, keyLwe, ctLwe, List.exists_mem_cons_iff, List.not_mem_nil, false_and, exists_false,
    or_false]
  omega

/-- DEC.GLWE reads the ciphertext's mask, its body and the key (R121). -/
theorem needs_decGlwe {f : List Int → List Int → List Int → Nat → Int}
    (hkey : Fits s.bufWords d.keyBase.toNat (d.keyDim.toNat * d.keyPoly.toNat))
    (hct : Fits s.bufWords d.ctBase.toNat ((d.keyDim.toNat + 1) * d.keyPoly.toNat))
    (hpt : Fits s.bufWords d.ptBase.toNat d.keyPoly.toNat) :
    ((s.readElems w d.ctBase.toNat (d.keyDim.toNat * d.keyPoly.toNat)).andThen fun a =>
      (s.readElems w (d.ctBase.toNat + d.keyDim.toNat * d.keyPoly.toNat) d.keyPoly.toNat).andThen fun body =>
        (s.readKeyGlwe w d).andThen fun key =>
          s.writeElems w d.ptBase.toNat ((List.range d.keyPoly.toNat).map (f a body key))).Needs s w
      [keyGlwe d, ctGlwe d] := by
  have hlen : (d.keyDim.toNat + 1) * d.keyPoly.toNat = d.keyDim.toNat * d.keyPoly.toNat + d.keyPoly.toNat := by ring
  rw [hlen] at hct
  have hmask : Fits s.bufWords d.ctBase.toNat (d.keyDim.toNat * d.keyPoly.toNat) := by unfold Fits at *; omega
  have hbody : Fits s.bufWords (d.ctBase.toNat + d.keyDim.toNat * d.keyPoly.toNat) d.keyPoly.toNat := by
    unfold Fits at *; omega
  refine (needs_readElems ⟨.ct, d.ctBase.toNat, d.keyDim.toNat * d.keyPoly.toNat⟩ hmask fun _ _ =>
    needs_readElems ⟨.ct, d.ctBase.toNat + d.keyDim.toNat * d.keyPoly.toNat, d.keyPoly.toNat⟩ hbody fun _ _ =>
      needs_readElems (keyGlwe d) hkey fun _ _ => (State.writeElems_noFault (by simp) hpt).needs).congr ?_
  ext a
  simp only [mem_cellsOfRegions, keyGlwe, ctGlwe, hlen, List.exists_mem_cons_iff, List.not_mem_nil, false_and, exists_false,
    or_false]
  omega

/-! ### The operands of a command -/

/-- Every region a command reads or writes has its address predicate (40_common.md R85). -/
theorem addressCheck_mem_validation (n : Nat) (d : Descriptors) (i : Instr) :
    (∀ r ∈ operandRegions d i, addressCheck n r ∈ validation n d i) ∧
      ∀ r ∈ writtenRegions d i, addressCheck n r ∈ validation n d i := by
  cases i
  case encl =>
    rw [operandRegions]
    split_ifs <;> simp [writtenRegions, validation, addressChecks]
  all_goals simp [operandRegions, writtenRegions, validation, addressChecks]

/-- A command whose predicates hold reads its operands before all else that it does (60_exceptions.md R129). -/
theorem pseudocode_needs (hpass : ∀ c ∈ validation s.bufWords s.latch.desc i, c.holds = true) :
    (pseudocode s i).Needs s (widthOf i) (operandRegions s.latch.desc i) := by
  have hread : ∀ r ∈ operandRegions s.latch.desc i, Fits s.bufWords r.base r.len := fun r hr =>
    addressCheck_holds.1 (hpass _ ((addressCheck_mem_validation _ _ i).1 r hr))
  have hwrite : ∀ r ∈ writtenRegions s.latch.desc i, Fits s.bufWords r.base r.len := fun r hr =>
    addressCheck_holds.1 (hpass _ ((addressCheck_mem_validation _ _ i).2 r hr))
  have hT1 : checkT1 s.latch.desc ∈ validation s.bufWords s.latch.desc i → 1 ≤ s.latch.desc.ctSize.toNat := fun h => by
    simpa [checkT1, shapeCheck] using hpass _ h
  cases i <;>
    simp only [operandRegions, writtenRegions, List.forall_mem_cons, List.not_mem_nil, IsEmpty.forall_iff, implies_true,
      and_true] at hread hwrite
  case nop e w => exact (Attempt.noFault_done s).needs
  case ufill e w =>
    exact (State.sampleInto_noFault (d := s.latch.desc) (b := 0) (body := fun _ _ => []) hwrite fun _ _ => .inr rfl).needs
  case nfill e w =>
    have hdst : Fits s.bufWords s.latch.desc.dst.toNat (0 + s.latch.desc.len.toNat) := by rwa [Nat.zero_add]
    exact (State.sampleInto_noFault hdst fun _ _ => .inl rfl).needs
  case dot e w | dota e w | dots e w => exact needs_innerProduct hread.1 hread.2
  case accld e w | accadd e w => exact needs_readElem .srcA _ hread fun _ => (Attempt.noFault_done _).needs
  case accst e w => exact (State.writeElem_noFault hwrite).needs
  case encLwe e w => exact needs_encLwe hread.1 hread.2 hwrite
  case encGlwe e w => exact needs_encGlwe hread.1 hread.2 hwrite
  case aencLwe e w => exact (needs_encLwe hread.1 hread.2 hwrite).andThen_done _
  case aencGlwe e w => exact (needs_encGlwe hread.1 hread.2 hwrite).andThen_done _
  case zencLwe e w => exact needs_readElems (keyLwe _) hread fun _ _ => (State.encryptLwe_noFault hwrite).needs
  case zencGlwe e w => exact needs_readElems (keyGlwe _) hread fun _ _ => (State.encryptGlwe_noFault hwrite).needs
  case tencLwe e w | atencLwe e w => exact needs_trivialLwe (hT1 (by simp [validation])) hread hwrite
  case tencGlwe e w | atencGlwe e w => exact needs_trivialGlwe (hT1 (by simp [validation])) hread hwrite
  case decLwe e w => exact needs_decLwe hread.1 hread.2 hwrite
  case decGlwe e w => exact needs_decGlwe hread.1 hread.2 hwrite
  case encl e w =>
    have hS1 : s.latch.desc.ctSize.toNat = s.latch.desc.keyDim.toNat + 1 := by
      simpa [checkS1, shapeCheck] using hpass (checkS1 s.latch.desc) (by simp [validation])
    have hC1 : s.latch.desc.ctCount = s.latch.desc.ptCount := by
      simpa [checkC1] using hpass (checkC1 s.latch.desc) (by simp [validation])
    rw [pseudocode, operandRegions]
    by_cases h0 : s.latch.desc.ctCount = 0
    · rw [if_pos h0, if_pos h0]
      exact (Attempt.noFault_done s).needs
    · rw [if_neg h0] at hread ⊢
      rw [if_neg h0]
      refine needs_readElems (keyLwe _) (hread _ (by simp)) fun _ _ => needs_readElems (ptList _) (hread _ (by simp))
        fun ps hps => (State.encryptEach_noFault hS1 ?_).needs
      rw [hps, ptList, ← hC1]
      exact hwrite

/-- A command that its checks let pass, whatever its entry, is its pseudocode. -/
theorem exec_of_no_failure (h : firstFailure (validation s.bufWords s.latch.desc i) = none) :
    exec i s = (pseudocode s i).finish := exec_pass (firstFailure_eq_none.1 h)

theorem exec_uninit (h : firstFailure (validation s.bufWords s.latch.desc i) = none) {r : Region} {k : Nat}
    (hr : r ∈ operandRegions s.latch.desc i) (hk : k < r.len) (hno : ∀ x, s.readElem (widthOf i) (r.base + k) ≠ .done x) :
    exec i s = .fault .uninitRead := by
  have hneeds := pseudocode_needs (firstFailure_eq_none.1 h)
  rw [exec_of_no_failure h, hneeds.uninit (r.base + k) ⟨r, hr, by omega, by omega⟩ hno, Attempt.fault_finish]

theorem exec_completes (h : firstFailure (validation s.bufWords s.latch.desc i) = none)
    (hall : ∀ r ∈ operandRegions s.latch.desc i, ∀ k < r.len, ∃ x, s.readElem (widthOf i) (r.base + k) = .done x) :
    ∃ t, exec i s = .next t := by
  have hneeds := pseudocode_needs (firstFailure_eq_none.1 h)
  rw [exec_of_no_failure h]
  refine (hneeds.ends ?_).finish
  rintro a ⟨r, hr, h0, h1⟩
  have := hall r hr (a - r.base) (by omega)
  rwa [Nat.add_sub_cancel' h0] at this

/-- With its predicates true, a command is not rejected (40_common.md R83). -/
theorem exec_ne_preconditionViolated (h : firstFailure (validation s.bufWords s.latch.desc i) = none) :
    exec i s ≠ .fault .preconditionViolated := by
  by_cases hall : ∀ r ∈ operandRegions s.latch.desc i, ∀ k < r.len, ∃ x, s.readElem (widthOf i) (r.base + k) = .done x
  · obtain ⟨t, ht⟩ := exec_completes h hall
    rw [ht]
    nofun
  · push Not at hall
    obtain ⟨r, hr, k, hk, hno⟩ := hall
    rw [exec_uninit h hr hk hno]
    nofun

theorem throughEntry_entryOf (i : Instr) : throughEntry (entryOf i) i = i := by cases i <;> rfl

/-- A checked command reports its first false predicate (R82). -/
theorem exec_checked_of_failure {x : CommandError} (h : firstFailure (validation s.bufWords s.latch.desc i) = some x) :
    exec (throughEntry .checked i) s = .next (s.raiseError x) := by
  rw [exec_throughEntry, State.enter_checked _ _ h]

/-- An unchecked command has no meaning at a false predicate (R83). -/
theorem exec_unchecked_of_failure {x : CommandError} (h : firstFailure (validation s.bufWords s.latch.desc i) = some x) :
    exec (throughEntry .unchecked i) s = .fault .preconditionViolated := by
  rw [exec_throughEntry, State.enter_unchecked _ _ h]

/-- With its predicates true, a command does the same by both entries (R82, R83). -/
theorem exec_throughEntry_of_no_failure (h : firstFailure (validation s.bufWords s.latch.desc i) = none) (e : Entry) :
    exec (throughEntry e i) s = exec i s := by
  rw [exec_throughEntry, State.enter_pass _ _ _ h, exec_of_no_failure h]

end Sys2Proof.Machine
end

section
/-! The predicates the spec lists for a command are those of its validation, in order, each reported by code and words
(40_common.md R81, R82, R85, R86; 60_exceptions.md R127). -/

namespace Sys2Proof.Machine

open Sys2Proof

/-- What a predicate reports: nothing where it holds, else its error. -/
def Check.reported (c : Check) : Option Reported :=
  if c.holds then none else some (errorNumber c.error.code, c.error.info0, c.error.info1)

/-- The first report of a list is that of the first predicate that is false (R82). -/
theorem findSome?_reported (cs : List Check) :
    (cs.map Check.reported).findSome? id =
      (firstFailure cs).map fun x => (errorNumber x.code, x.info0, x.info1) := by
  induction cs with
  | nil => rfl
  | cons c cs ih =>
    rw [List.map_cons, List.findSome?_cons, ih, firstFailure, Check.reported]
    split_ifs <;> rfl

theorem reported_shapeCheck {holds : Bool} {p : Prop} [Decidable p] (h : holds = true ↔ p) (required : Nat) (supplied : Word) :
    (shapeCheck holds required supplied).reported = expectShape p required supplied := by
  simp [Check.reported, shapeCheck, expectShape, h, errorNumber]

@[simp] theorem reported_addressCheck (n : Nat) (id : RegionId) (base : Word) (len : Nat) :
    (addressCheck n ⟨id, base.toNat, len⟩).reported = expectAddress n (regionNumber id) base len := by
  simp only [Check.reported, addressCheck_holds, expectAddress]
  simp [addressCheck, errorNumber]

@[simp] theorem reported_overlapCheck (i j : RegionId) (a b : Word) (m n : Nat) :
    (overlapCheck ⟨i, a.toNat, m⟩ ⟨j, b.toNat, n⟩).reported =
      expectOverlap (regionNumber i) a m (regionNumber j) b n := by
  simp only [Check.reported, overlapCheck_holds, expectOverlap]
  rfl

@[simp] theorem reported_checkC1 (d : Descriptors) :
    (checkC1 d).reported = if d.ctCount = d.ptCount then none else some (2, d.ctCount, d.ptCount) := by
  simp [Check.reported, checkC1, errorNumber]

@[simp] theorem reported_checkS1 (d : Descriptors) :
    (checkS1 d).reported = expectShape (d.ctSize.toNat = d.keyDim.toNat + 1) (d.keyDim.toNat + 1) d.ctSize :=
  reported_shapeCheck beq_iff_eq _ _

@[simp] theorem reported_checkG1 (d : Descriptors) : (checkG1 d).reported = expectShape (1 ≤ d.keyPoly.toNat) 1 d.keyPoly :=
  reported_shapeCheck decide_eq_true_iff _ _

@[simp] theorem reported_checkG2 (d : Descriptors) :
    (checkG2 d).reported = expectShape (d.ctSize.toNat = d.keyDim.toNat + 1) (d.keyDim.toNat + 1) d.ctSize :=
  reported_shapeCheck beq_iff_eq _ _

@[simp] theorem reported_checkG3 (d : Descriptors) :
    (checkG3 d).reported = expectShape (d.ctPoly = d.keyPoly) d.keyPoly.toNat d.ctPoly :=
  reported_shapeCheck beq_iff_eq _ _

@[simp] theorem reported_checkG4 (d : Descriptors) :
    (checkG4 d).reported = expectShape (d.ptCount = d.keyPoly) d.keyPoly.toNat d.ptCount :=
  reported_shapeCheck beq_iff_eq _ _

@[simp] theorem reported_checkT1 (d : Descriptors) : (checkT1 d).reported = expectShape (1 ≤ d.ctSize.toNat) 1 d.ctSize :=
  reported_shapeCheck decide_eq_true_iff _ _

@[simp] theorem reported_checkT2 (d : Descriptors) : (checkT2 d).reported = expectShape (1 ≤ d.ctPoly.toNat) 1 d.ctPoly :=
  reported_shapeCheck decide_eq_true_iff _ _

@[simp] theorem reported_checkT3 (d : Descriptors) :
    (checkT3 d).reported = expectShape (d.ptCount = d.ctPoly) d.ctPoly.toNat d.ptCount :=
  reported_shapeCheck beq_iff_eq _ _

/-- A command with these predicates rejects at the first that is false and is otherwise not rejected. -/
theorem rejects_and_admits {cmd : Entry → Instr} {s : State} {predicates : List (Option Reported)}
    (hcmd : ∀ e, throughEntry e (cmd .unchecked) = cmd e)
    (h : (validation s.bufWords s.latch.desc (cmd .unchecked)).map Check.reported = predicates) :
    RejectsAtFirst cmd s predicates ∧ AdmitsOtherwise cmd s predicates := by
  subst h
  unfold RejectsAtFirst AdmitsOtherwise
  rw [findSome?_reported, ← hcmd .checked]
  refine ⟨fun x hx => ?_, fun hnone => ?_⟩
  · obtain ⟨y, hy, rfl⟩ := Option.map_eq_some_iff.1 hx
    have hu := exec_unchecked_of_failure hy
    rw [hcmd] at hu
    exact ⟨exec_checked_of_failure hy, hu⟩
  · have hpass := Option.map_eq_none_iff.1 hnone
    exact ⟨exec_throughEntry_of_no_failure hpass .checked, exec_ne_preconditionViolated hpass⟩

end Sys2Proof.Machine
end

section
/-! The statements about the two entries of a command and the predicates of each (40_common.md R81 to R86). -/

namespace Sys2Proof.Machine

open Sys2Proof

/-- Settles O27: both entries find the same first failure. -/
theorem checkedAndUncheckedEntries : Obligations.CheckedAndUncheckedEntries := by
  unfold Obligations.CheckedAndUncheckedEntries
  intro i s
  refine ⟨fun x hx => ⟨exec_checked_of_failure hx, exec_unchecked_of_failure hx⟩, fun hpass => ⟨?_, ?_⟩⟩
  · rw [exec_throughEntry_of_no_failure hpass, exec_throughEntry_of_no_failure hpass]
  · exact exec_ne_preconditionViolated hpass

/-- Settles O28: a command that its predicates let pass reads its operands and then cannot fault. -/
theorem commandsCompleteUnlessAnOperandIsUnvalued : Obligations.CommandsCompleteUnlessAnOperandIsUnvalued := by
  unfold Obligations.CommandsCompleteUnlessAnOperandIsUnvalued
  intro i s
  refine ⟨fun he hne => ?_, fun hpass => ⟨?_, exec_completes hpass⟩⟩
  · obtain ⟨x, hx⟩ := Option.ne_none_iff_exists'.1 hne
    have hreport := exec_checked_of_failure hx
    rw [← he, throughEntry_entryOf] at hreport
    exact ⟨_, hreport⟩
  · rintro ⟨r, hr, k, hk, hno⟩
    exact exec_uninit hpass hr hk hno

/-- Settles O51: one region or two, in the order of their numbers. -/
theorem primitivePredicates : Obligations.PrimitivePredicates := by
  unfold Obligations.PrimitivePredicates
  intro w s
  refine ⟨fun cmd hcmd => ?_, fun cmd hcmd => ?_⟩ <;> simp only [List.mem_cons, List.not_mem_nil, or_false] at hcmd
  · rcases hcmd with rfl | rfl <;> refine rejects_and_admits (fun _ => rfl) ?_ <;>
      simp [validation, addressChecks, dstRegion, regionNumber]
  · rcases hcmd with rfl | rfl | rfl <;> refine rejects_and_admits (fun _ => rfl) ?_ <;>
      simp [validation, addressChecks, srcARegion, srcBRegion, regionNumber]

/-- Settles O52: the lists of R110, R112 and R114. -/
theorem lweEncryptionPredicates : Obligations.LweEncryptionPredicates := by
  unfold Obligations.LweEncryptionPredicates
  intro w s
  refine ⟨rejects_and_admits (fun _ => rfl) ?_, rejects_and_admits (fun _ => rfl) ?_,
    rejects_and_admits (fun _ => rfl) ?_⟩ <;>
    simp [validation, addressChecks, overlapChecks, keyLwe, ctLwe, ptOne, regionNumber]

/-- Settles O53: the lists of R111, R113 and R115. -/
theorem glweEncryptionPredicates : Obligations.GlweEncryptionPredicates := by
  unfold Obligations.GlweEncryptionPredicates
  intro w s
  refine ⟨rejects_and_admits (fun _ => rfl) ?_, rejects_and_admits (fun _ => rfl) ?_,
    rejects_and_admits (fun _ => rfl) ?_⟩ <;>
    simp [validation, addressChecks, overlapChecks, keyGlwe, ctGlwe, ptGlwe, regionNumber]

/-- Settles O54: TENC and ATENC have the same list. -/
theorem trivialPredicates : Obligations.TrivialPredicates := by
  unfold Obligations.TrivialPredicates
  intro w s
  refine ⟨fun cmd hcmd => ?_, fun cmd hcmd => ?_⟩ <;> simp only [List.mem_cons, List.not_mem_nil, or_false] at hcmd
  · rcases hcmd with rfl | rfl <;> refine rejects_and_admits (fun _ => rfl) ?_ <;>
      simp [validation, addressChecks, overlapChecks, ctTrivialLwe, ptOne, regionNumber]
  · rcases hcmd with rfl | rfl <;> refine rejects_and_admits (fun _ => rfl) ?_ <;>
      simp [validation, addressChecks, overlapChecks, ctTrivialGlwe, ptTrivialGlwe, regionNumber]

/-- Settles O55: PT is the written region, held apart from both others. -/
theorem decryptionPredicates : Obligations.DecryptionPredicates := by
  unfold Obligations.DecryptionPredicates
  intro w s
  refine ⟨rejects_and_admits (fun _ => rfl) ?_, rejects_and_admits (fun _ => rfl) ?_⟩
  · simp [validation, addressChecks, overlapChecks, keyLwe, ctLwe, ptOne, regionNumber]
  · simp [validation, addressChecks, overlapChecks, keyGlwe, ctGlwe, ptGlwe, regionNumber]

/-- Settles O56: S1 and C1 come before the regions. -/
theorem listPredicates : Obligations.ListPredicates := by
  unfold Obligations.ListPredicates
  intro w s
  refine rejects_and_admits (fun _ => rfl) ?_
  simp [validation, addressChecks, overlapChecks, keyLwe, ctList, ptList, regionNumber]

end Sys2Proof.Machine
end

section
/-! A command whose draw fails (40_common.md R90): its pseudocode has read its operands and ends with the failed draw of a
sampling, so the command ends with code 3, the cells of the region valued and all else as it was. -/

namespace Sys2Proof.Machine

open Sys2Proof

variable {i : Instr} {s : State} {w : Width} {e : Entry} {n : Nat} {d : Descriptors} {key : Nat → Int} {p : Int}
  {pt : Nat → Int}

/-! ### Predicates that hold -/

theorem validation_fill_pass (hdst : Fits n d.dst.toNat d.len.toNat) :
    (∀ c ∈ validation n d (.ufill e w), c.holds = true) ∧ ∀ c ∈ validation n d (.nfill e w), c.holds = true := by
  simpa [validation, addressChecks, addressCheck_holds, dstRegion] using hdst

/-- A command's list is its shape and count predicates and then those of its regions (40_common.md R81). -/
theorem checks_append_pass {shapes addresses overlaps : List Check} (hshapes : ∀ c ∈ shapes, c.holds = true)
    (hregions : ∀ c ∈ addresses ++ overlaps, c.holds = true) : ∀ c ∈ shapes ++ addresses ++ overlaps, c.holds = true := by
  rw [List.append_assoc]
  exact List.forall_mem_append.2 ⟨hshapes, hregions⟩

/-- A key and a ciphertext that is written. -/
theorem keyRegions_pass {key ct : Region} (hkey : Fits n key.base key.len) (hct : Fits n ct.base ct.len)
    (hctKey : Apart ct.base ct.len key.base key.len) :
    ∀ c ∈ addressChecks n [key, ct] ++ overlapChecks ct [key], c.holds = true :=
  List.forall_mem_append.2 ⟨addressChecks_pass.2 (by simp [hkey, hct]), overlapChecks_pass.2 (by simpa using hctKey)⟩

/-- A key and a plaintext, and a ciphertext that is written. -/
theorem keyedRegions_pass {key ct pt : Region} (hkey : Fits n key.base key.len) (hct : Fits n ct.base ct.len)
    (hpt : Fits n pt.base pt.len) (hctKey : Apart ct.base ct.len key.base key.len)
    (hctPt : Apart ct.base ct.len pt.base pt.len) :
    ∀ c ∈ addressChecks n [key, ct, pt] ++ overlapChecks ct [key, pt], c.holds = true :=
  List.forall_mem_append.2 ⟨addressChecks_pass.2 (by simp [hkey, hct, hpt]),
    overlapChecks_pass.2 (by simp [hctKey, hctPt])⟩

theorem validation_zencLwe_pass (hsize : d.ctSize.toNat = d.keyDim.toNat + 1)
    (hkey : Fits n d.keyBase.toNat d.keyDim.toNat) (hct : Fits n d.ctBase.toNat (d.keyDim.toNat + 1))
    (hctKey : Apart d.ctBase.toNat (d.keyDim.toNat + 1) d.keyBase.toNat d.keyDim.toNat) :
    ∀ c ∈ validation n d (.zencLwe e w), c.holds = true :=
  checks_append_pass (by simpa [checkS1, shapeCheck] using hsize)
    (keyRegions_pass (key := keyLwe d) (ct := ctLwe d) hkey hct hctKey)

theorem validation_aencLwe_pass (hkey : Fits n d.keyBase.toNat d.keyDim.toNat)
    (hct : Fits n d.ctBase.toNat (d.keyDim.toNat + 1)) (hpt : Fits n d.ptBase.toNat 1)
    (hctKey : Apart d.ctBase.toNat (d.keyDim.toNat + 1) d.keyBase.toNat d.keyDim.toNat)
    (hctPt : Apart d.ctBase.toNat (d.keyDim.toNat + 1) d.ptBase.toNat 1) :
    ∀ c ∈ validation n d (.aencLwe e w), c.holds = true :=
  keyedRegions_pass (key := keyLwe d) (ct := ctLwe d) (pt := ptOne d) hkey hct hpt hctKey hctPt

/-- ENC.LWE has the predicates of AENC.LWE after S1 (43_kernel.md R110, R112). -/
theorem validation_encLwe_pass (hsize : d.ctSize.toNat = d.keyDim.toNat + 1)
    (h : ∀ c ∈ validation n d (.aencLwe e w), c.holds = true) : ∀ c ∈ validation n d (.encLwe e w), c.holds = true :=
  checks_append_pass (by simpa [checkS1, shapeCheck] using hsize) h

theorem validation_zencGlwe_pass (hpoly : 1 ≤ d.keyPoly.toNat) (hsize : d.ctSize.toNat = d.keyDim.toNat + 1)
    (hctPoly : d.ctPoly = d.keyPoly) (hkey : Fits n d.keyBase.toNat (d.keyDim.toNat * d.keyPoly.toNat))
    (hct : Fits n d.ctBase.toNat ((d.keyDim.toNat + 1) * d.keyPoly.toNat))
    (hctKey : Apart d.ctBase.toNat ((d.keyDim.toNat + 1) * d.keyPoly.toNat) d.keyBase.toNat
      (d.keyDim.toNat * d.keyPoly.toNat)) :
    ∀ c ∈ validation n d (.zencGlwe e w), c.holds = true :=
  checks_append_pass (by simpa [checkG1, checkG2, checkG3, shapeCheck] using ⟨hpoly, hsize, hctPoly⟩)
    (keyRegions_pass (key := keyGlwe d) (ct := ctGlwe d) hkey hct hctKey)

theorem validation_aencGlwe_pass (hpoly : 1 ≤ d.keyPoly.toNat) (hcount : d.ptCount = d.keyPoly)
    (hkey : Fits n d.keyBase.toNat (d.keyDim.toNat * d.keyPoly.toNat))
    (hct : Fits n d.ctBase.toNat ((d.keyDim.toNat + 1) * d.keyPoly.toNat)) (hpt : Fits n d.ptBase.toNat d.keyPoly.toNat)
    (hctKey : Apart d.ctBase.toNat ((d.keyDim.toNat + 1) * d.keyPoly.toNat) d.keyBase.toNat
      (d.keyDim.toNat * d.keyPoly.toNat))
    (hctPt : Apart d.ctBase.toNat ((d.keyDim.toNat + 1) * d.keyPoly.toNat) d.ptBase.toNat d.keyPoly.toNat) :
    ∀ c ∈ validation n d (.aencGlwe e w), c.holds = true :=
  checks_append_pass (by simpa [checkG1, checkG4, shapeCheck] using ⟨hpoly, hcount⟩)
    (keyedRegions_pass (key := keyGlwe d) (ct := ctGlwe d) (pt := ptGlwe d) hkey hct hpt hctKey hctPt)

/-- ENC.GLWE has the predicates of AENC.GLWE with G2 and G3 among them (R111, R113). -/
theorem validation_encGlwe_pass (hsize : d.ctSize.toNat = d.keyDim.toNat + 1) (hctPoly : d.ctPoly = d.keyPoly)
    (h : ∀ c ∈ validation n d (.aencGlwe e w), c.holds = true) : ∀ c ∈ validation n d (.encGlwe e w), c.holds = true := by
  simp only [validation, List.cons_append, List.nil_append, List.forall_mem_cons] at h ⊢
  obtain ⟨hG1, hG4, hregions⟩ := h
  exact ⟨hG1, beq_iff_eq.2 hsize, beq_iff_eq.2 hctPoly, hG4, hregions⟩

theorem validation_encl_pass (hsize : d.ctSize.toNat = d.keyDim.toNat + 1) (hcount : d.ctCount = d.ptCount)
    (hkey : Fits n d.keyBase.toNat d.keyDim.toNat) (hct : Fits n d.ctBase.toNat (d.ctCount.toNat * d.ctSize.toNat))
    (hpt : Fits n d.ptBase.toNat d.ptCount.toNat)
    (hctKey : Apart d.ctBase.toNat (d.ctCount.toNat * d.ctSize.toNat) d.keyBase.toNat d.keyDim.toNat)
    (hctPt : Apart d.ctBase.toNat (d.ctCount.toNat * d.ctSize.toNat) d.ptBase.toNat d.ptCount.toNat) :
    ∀ c ∈ validation n d (.encl e w), c.holds = true :=
  checks_append_pass (by simpa [checkS1, checkC1, shapeCheck] using ⟨hsize, hcount⟩)
    (keyedRegions_pass (key := keyLwe d) (ct := ctList d) (pt := ptList d) hkey hct hpt hctKey hctPt)

/-! ### Operands that can be read -/

theorem State.readKeyLwe_of_readable (h : Readable s w d.keyBase.toNat d.keyDim.toNat key) :
    s.readKeyLwe w d = .done ((List.range d.keyDim.toNat).map key) := State.readElems_of_readable h

theorem State.readKeyGlwe_of_readable (h : Readable s w d.keyBase.toNat (d.keyDim.toNat * d.keyPoly.toNat) key) :
    s.readKeyGlwe w d = .done ((List.range (d.keyDim.toNat * d.keyPoly.toNat)).map key) := State.readElems_of_readable h

theorem State.encLwe_of_readable (hkey : Readable s w d.keyBase.toNat d.keyDim.toNat key)
    (hp : s.readElem w d.ptBase.toNat = .done p) :
    s.encLwe w d = s.encryptLwe w d ((List.range d.keyDim.toNat).map key) p d.ctBase.toNat := by
  rw [State.encLwe, State.readKeyLwe_of_readable hkey, Attempt.done_andThen, hp, Attempt.done_andThen]

theorem State.encGlwe_of_readable (hkey : Readable s w d.keyBase.toNat (d.keyDim.toNat * d.keyPoly.toNat) key)
    (hpt : Readable s w d.ptBase.toNat d.keyPoly.toNat pt) :
    s.encGlwe w d = s.encryptGlwe w d ((List.range (d.keyDim.toNat * d.keyPoly.toNat)).map key)
      ((List.range d.keyPoly.toNat).map pt) := by
  rw [State.encGlwe, State.readKeyGlwe_of_readable hkey, Attempt.done_andThen, State.readElems_of_readable hpt,
    Attempt.done_andThen]

/-! ### The failed draw -/

/-- A command whose pseudocode ends with a failed draw (R90). -/
theorem drawFailure_of_error {u m base cells : Nat} {source : Word}
    (hpass : ∀ c ∈ validation s.bufWords s.latch.desc i, c.holds = true)
    (h : pseudocode s i = .error ⟨.engineFailure, source, 0⟩ ((s.drawn u m).takeAnswer.fillCells base cells)) :
    drawFailure i s u m source base cells := by
  rw [State.drawn_takeAnswer_fillCells] at h
  refine ⟨s.mem.writeCells base ((List.range cells).map fun k => Config.unspecifiedWord (s.freeIndex + k)), ?_,
    Memory.writeCells_valued _ _ _ _, sameOutside_writeCells _ _ _ _ (by simp)⟩
  rw [exec_pass hpass, h]
  rfl

/-- Either draw of an LWE encryption fails the command that ends as the encryption does (R110, R112, R114). -/
theorem lweDrawFailure {u : Nat → Word} {ks : List Int}
    (hpass : ∀ c ∈ validation s.bufWords s.latch.desc i, c.holds = true)
    (hcode : ∀ x t, s.encryptLwe w s.latch.desc ks p s.latch.desc.ctBase.toNat = .error x t → pseudocode s i = .error x t) :
    (∀ j < s.latch.desc.keyDim.toNat, Delivers s 0 (.uniform w) j u → s.answerAt j (.uniform w) = .fail →
      drawFailure i s j 0 1 s.latch.desc.ctBase.toNat (s.latch.desc.keyDim.toNat + 1)) ∧
    (Delivers s 0 (.uniform w) s.latch.desc.keyDim.toNat u →
      s.answerAt s.latch.desc.keyDim.toNat (noiseRequest w s.latch.desc) = .fail →
      drawFailure i s s.latch.desc.keyDim.toNat 0 2 s.latch.desc.ctBase.toNat (s.latch.desc.keyDim.toNat + 1)) :=
  ⟨fun _ hj hu hf => drawFailure_of_error hpass (hcode _ _ (State.sampleInto_uniform_fails hj hu hf)),
    fun hu hf => drawFailure_of_error hpass
      (hcode _ _ (State.sampleInto_noise_fails (j := 0) (e := u) hu Nat.one_pos nofun hf))⟩

/-- Any draw of a GLWE encryption fails the command that ends as the encryption does (R111, R113, R115). -/
theorem glweDrawFailure {u v : Nat → Word} {ks ps : List Int}
    (hpass : ∀ c ∈ validation s.bufWords s.latch.desc i, c.holds = true)
    (hcode : ∀ x t, s.encryptGlwe w s.latch.desc ks ps = .error x t → pseudocode s i = .error x t) :
    (∀ j < s.latch.desc.keyDim.toNat * s.latch.desc.keyPoly.toNat, Delivers s 0 (.uniform w) j u →
      s.answerAt j (.uniform w) = .fail →
      drawFailure i s j 0 1 s.latch.desc.ctBase.toNat ((s.latch.desc.keyDim.toNat + 1) * s.latch.desc.keyPoly.toNat)) ∧
    (∀ j < s.latch.desc.keyPoly.toNat,
      Delivers s 0 (.uniform w) (s.latch.desc.keyDim.toNat * s.latch.desc.keyPoly.toNat) u →
      Delivers s (s.latch.desc.keyDim.toNat * s.latch.desc.keyPoly.toNat) (noiseRequest w s.latch.desc) j v →
      s.answerAt (s.latch.desc.keyDim.toNat * s.latch.desc.keyPoly.toNat + j) (noiseRequest w s.latch.desc) = .fail →
      drawFailure i s (s.latch.desc.keyDim.toNat * s.latch.desc.keyPoly.toNat) j 2 s.latch.desc.ctBase.toNat
        ((s.latch.desc.keyDim.toNat + 1) * s.latch.desc.keyPoly.toNat)) := by
  rw [Nat.add_mul, Nat.one_mul]
  exact ⟨fun _ hj hu hf => drawFailure_of_error hpass (hcode _ _ (State.sampleInto_uniform_fails hj hu hf)),
    fun _ hj hu hv hf => drawFailure_of_error hpass (hcode _ _ (State.sampleInto_noise_fails hu hj hv hf))⟩

end Sys2Proof.Machine
end

section
/-! The statements about failed draws (40_common.md R90). -/

namespace Sys2Proof.Machine

open Sys2Proof

/-- Settles O47: UFILL samples a mask alone, NFILL a body alone. -/
theorem samplerDrawFailure : Obligations.SamplerDrawFailure := by
  unfold Obligations.SamplerDrawFailure
  intro e w s j u d hfit hj
  obtain ⟨hufill, hnfill⟩ := validation_fill_pass (w := w) (e := e) hfit
  refine ⟨fun hu hf => drawFailure_of_error hufill (State.sampleInto_uniform_fails (d := d) (b := 0)
    (body := fun _ _ => []) hj hu hf), fun hv hf => ?_⟩
  have hsample := State.sampleInto_noise_fails (m := 0) (c := d.dst.toNat) (body := fun _ noise => noise) (u := u) nofun hj hv
    (by rwa [Nat.zero_add])
  rw [Nat.zero_add] at hsample
  exact drawFailure_of_error hnfill hsample

/-- Settles O48: each of the three ends as the encryption of its operands does where that fails. -/
theorem lweEncryptionDrawFailure : Obligations.LweEncryptionDrawFailure := by
  unfold Obligations.LweEncryptionDrawFailure
  intro e w s key p u d n c fails hct hctKey hkey
  refine ⟨fun hsize => ?_, fun hctPt hp => ?_⟩
  · refine lweDrawFailure (validation_zencLwe_pass hsize hkey.fits hct hctKey)
      (ks := (List.range n).map key) (p := 0) fun x t ht => ?_
    rw [pseudocode, State.readKeyLwe_of_readable hkey, Attempt.done_andThen, ht]
  · have hpass := validation_aencLwe_pass (e := e) (w := w) hkey.fits hct (State.readElem_fits hp) hctKey hctPt
    have henc := State.encLwe_of_readable hkey hp
    refine ⟨lweDrawFailure hpass (ks := (List.range n).map key) (p := p) fun x t ht => ?_,
      fun hsize => lweDrawFailure (validation_encLwe_pass hsize hpass) (ks := (List.range n).map key) (p := p)
        fun x t ht => henc.trans ht⟩
    rw [pseudocode, henc, ht, Attempt.error_andThen]

/-- Settles O49: as for LWE, with the draws of N noise elements. -/
theorem glweEncryptionDrawFailure : Obligations.GlweEncryptionDrawFailure := by
  unfold Obligations.GlweEncryptionDrawFailure
  intro e w s key pt u v d k n c fails hpoly hct hctKey hkey
  refine ⟨fun hsize hctPoly => ?_, fun hcount hctPt hpt => ?_⟩
  · refine glweDrawFailure (validation_zencGlwe_pass hpoly hsize hctPoly hkey.fits hct hctKey)
      (ks := (List.range (k * n)).map key) (ps := List.replicate n 0) fun x t ht => ?_
    rw [pseudocode, State.readKeyGlwe_of_readable hkey, Attempt.done_andThen, ht]
  · have hpass := validation_aencGlwe_pass (e := e) (w := w) hpoly hcount hkey.fits hct hpt.fits hctKey hctPt
    have henc := State.encGlwe_of_readable hkey hpt
    refine ⟨glweDrawFailure hpass (ks := (List.range (k * n)).map key) (ps := (List.range n).map pt) fun x t ht => ?_,
      fun hsize hctPoly => glweDrawFailure (validation_encGlwe_pass hsize hctPoly hpass)
        (ks := (List.range (k * n)).map key) (ps := (List.range n).map pt) fun x t ht => henc.trans ht⟩
    rw [pseudocode, henc, ht, Attempt.error_andThen]

/-- Settles O50: the list's own failed draw (`State.encryptEach_fails`), the key and the plaintexts having been read. -/
theorem enclDrawFailureKeepsFinishedElements : Obligations.EnclDrawFailureKeepsFinishedElements := by
  unfold Obligations.EnclDrawFailureKeepsFinishedElements
  intro e w s key pt u v q j d n c l hsize hcount hct hctKey hctPt hkey hpt hq hu hv hd hfail
  have hpass : ∀ x ∈ validation s.bufWords d (.encl e w), x.holds = true := by
    apply validation_encl_pass hsize hcount.symm hkey.fits <;> simp only [hsize, hcount]
    · exact hct
    · exact hpt.fits
    · exact hctKey
    · exact hctPt
  obtain ⟨m, hm, hlist, hvalued, houtside⟩ := State.encryptEach_fails hsize q l s c j pt u v hq hct hu hv hd hfail
  refine ⟨m, ?_, hlist, hvalued, houtside⟩
  have hne : d.ctCount ≠ 0 := fun h0 => by simp [l, h0] at hq
  have hps : s.readElems w d.ptBase.toNat d.ptCount.toNat = .done ((List.range l).map pt) := by
    rw [hcount]
    exact State.readElems_of_readable hpt
  rw [exec_pass hpass, pseudocode, if_neg hne, State.readKeyLwe_of_readable hkey, Attempt.done_andThen, hps,
    Attempt.done_andThen, hm]
  rfl

end Sys2Proof.Machine
end

section
/-! A sampler whose draws are all delivered (41_samplers.md R92, R94, R95): UFILL is a sampling of a mask alone and NFILL of a body
alone, and what the sampling wrote is the result of the command. -/

namespace Sys2Proof.Machine

open Sys2Proof

variable {s : State} {w : Width} {d : Descriptors} {c n : Nat} {v : Nat → Word}

/-- A mask alone: the cells take the uniform draws as they come. -/
theorem State.sampleInto_mask_delivers (hu : Delivers s 0 (.uniform w) n v) (hfit : Fits s.bufWords c n) :
    s.sampleInto w d c n 0 (fun _ _ => []) =
      .done { s.drawn n 0 with
        mem := s.mem.writeCells c (((List.range n).map fun i => elemOf w (v i)).map (wordOf w)) } := by
  rw [State.sampleInto_delivers (b := 0) (e := v) (y := fun i => elemOf w (v i)) hu nofun hfit rfl, List.range_zero, List.map_nil,
    List.append_nil]

/-- A body alone, kept as it is drawn: the cells take the noise draws as they come, zeros at DISP = 0 (R92). -/
theorem State.sampleInto_body_delivers (he : Delivers s 0 (noiseRequest w d) n v) (hfit : Fits s.bufWords c n) :
    s.sampleInto w d c 0 n (fun _ noise => noise) =
      .done { s.drawn 0 n with
        mem := s.mem.writeCells c (((List.range n).map fun i => noiseOf w d (v i)).map (wordOf w)) } := by
  rw [State.sampleInto_delivers (m := 0) (u := v) nofun he (by rwa [Nat.zero_add]) rfl, List.range_zero, List.map_nil, List.nil_append]

/-- A command whose pseudocode ends with `n` elements written from `c` on completes with them stored and all else as the
draws left it (40_common.md R80). -/
theorem exec_stores_of_pseudocode {i : Instr} {t : State} {x : Nat → Int}
    (hpass : ∀ k ∈ validation s.bufWords s.latch.desc i, k.holds = true)
    (h : pseudocode s i = .done { t with mem := s.mem.writeCells c (((List.range n).map x).map (wordOf w)) }) :
    ∃ m, exec i s = .next { t with mem := m }.succeeded ∧ Stores m w c n x ∧ SameOutside s.mem m c n := by
  refine ⟨_, ?_, stores_writeCells s.mem w c n x, sameOutside_writeCells _ _ _ _ (by simp)⟩
  rw [exec_pass hpass, h, Attempt.done_finish]
  rfl

end Sys2Proof.Machine
end

section
/-! The statement about the samplers (41_samplers.md). -/

namespace Sys2Proof.Machine

open Sys2Proof

/-- Settles O32: each sampler's pseudocode is its sampling, with every draw delivered. -/
theorem samplersWriteTheirDraws : Obligations.SamplersWriteTheirDraws := by
  unfold Obligations.SamplersWriteTheirDraws
  intro e w s v d hfit
  obtain ⟨hufill, hnfill⟩ := validation_fill_pass (w := w) (e := e) hfit
  exact ⟨fun hu => exec_stores_of_pseudocode hufill (State.sampleInto_mask_delivers (d := d) hu hfit),
    fun hv => exec_stores_of_pseudocode hnfill (State.sampleInto_body_delivers hv hfit)⟩

end Sys2Proof.Machine
end

section
/-! Accumulating mod 2^b (42_accumulator.md R97): wrapping multiply and add in a `b`-bit register is exact arithmetic reduced once, and
exact addition does not depend on the order of the terms. -/

namespace Sys2Proof.Machine

open Sys2Proof

theorem toNat_ofInt_widthBits (w : Width) (x : Int) : ((BitVec.ofInt (widthBits w) x).toNat : Int) = torus w x := by
  rw [BitVec.toNat_ofInt]
  exact Int.toNat_of_nonneg (torus_nonneg w x)

/-- A register of any width that holds `x` mod 2^b holds, after wrapping accumulation, `x` plus the exact products mod 2^b. -/
theorem foldl_wrapping_eq_ofInt (b : Nat) (a s : Nat → Int) (order : List Nat) (x : Int) :
    order.foldl (fun acc i => acc + BitVec.ofInt b (a i) * BitVec.ofInt b (s i)) (BitVec.ofInt b x) =
      BitVec.ofInt b (x + (order.map fun i => a i * s i).sum) := by
  induction order generalizing x with
  | nil => simp
  | cons i order ih =>
    rw [List.foldl_cons, ← BitVec.ofInt_mul, ← BitVec.ofInt_add, ih, List.map_cons, List.sum_cons, add_assoc]

/-- The exact products of the first `n` terms add up to the inner product in any order. -/
theorem sum_products_of_perm {n : Nat} {a s : Nat → Int} {order : List Nat} (h : order.Perm (List.range n)) :
    (order.map fun i => a i * s i).sum = innerProductOf n a s :=
  (h.map _).sum_eq

/-- Settles O30: the register ends with the exact sum mod 2^b, and the exact sum is the inner product. -/
theorem innerProductReducedOnceOrPerTerm : Obligations.InnerProductReducedOnceOrPerTerm := by
  unfold Obligations.InnerProductReducedOnceOrPerTerm
  intro w n a s order hperm
  have hfold := foldl_wrapping_eq_ofInt (widthBits w) a s order 0
  have hzero : BitVec.ofInt (widthBits w) 0 = 0 := BitVec.ofInt_ofNat _ 0
  rw [hzero, zero_add, sum_products_of_perm hperm] at hfold
  rw [hfold, toNat_ofInt_widthBits, dotSum_eq]

end Sys2Proof.Machine
end

section
/-! The accumulator commands (42_accumulator.md R99 to R104): what each reads, and the completion with the result in ACC. -/

namespace Sys2Proof.Machine

open Sys2Proof

variable {i : Instr} {s : State} {w : Width} {d : Descriptors} {n : Nat}

theorem State.innerProduct_of_readable {a b : Nat → Int} (ha : Readable s w d.srcA.toNat d.len.toNat a)
    (hb : Readable s w d.srcB.toNat d.len.toNat b) : s.innerProduct w d = .done (innerProductOf d.len.toNat a b) := by
  rw [State.innerProduct, State.readElems_of_readable ha, Attempt.done_andThen, State.readElems_of_readable hb,
    Attempt.done_andThen, dotSum_eq]

/-- A command whose pseudocode writes ACC and ends completes with ACC alone changed (40_common.md R80, R96). -/
theorem exec_of_writeAcc {x : Int} (hpass : ∀ c ∈ validation s.bufWords s.latch.desc i, c.holds = true)
    (h : pseudocode s i = .done (s.writeAcc w x)) : exec i s = .next { s with acc := wordOf w x }.succeeded := by
  rw [exec_pass hpass, h, Attempt.done_finish]
  rfl

/-- The address predicates of DOT, DOTA and DOTS (R99). -/
theorem sourceChecks_pass (ha : Fits n d.srcA.toNat d.len.toNat) (hb : Fits n d.srcB.toNat d.len.toNat) :
    ∀ c ∈ addressChecks n [srcARegion d, srcBRegion d], c.holds = true :=
  addressChecks_pass.2 (by simp [srcARegion, srcBRegion, ha, hb])

/-! ### Commands on one cell -/

theorem cellCheck_pass {id : RegionId} {a : Nat} (h : a < n) : ∀ c ∈ addressChecks n [⟨id, a, 1⟩], c.holds = true :=
  addressChecks_pass.2 (by simpa [Fits] using h)

/-- A command whose only predicate is that its one cell is in BUF, with the cell past the end (40_common.md R82, R83, R85). -/
theorem exec_cell_past_end {cmd : Entry → Instr} {id : RegionId} {a : Word}
    (hcmd : ∀ e, throughEntry e (cmd .unchecked) = cmd e)
    (hval : validation s.bufWords s.latch.desc (cmd .unchecked) = addressChecks s.bufWords [⟨id, a.toNat, 1⟩])
    (h : s.bufWords ≤ a.toNat) :
    exec (cmd .checked) s = .next (s.failedWith 5 (regionNumber id) a) ∧
      exec (cmd .unchecked) s = .fault .preconditionViolated := by
  have hno : ¬ Fits s.bufWords a.toNat 1 := by unfold Fits; omega
  refine (rejects_and_admits hcmd rfl).1 (5, regionNumber id, a) ?_
  rw [hval, addressChecks, List.map_singleton, List.map_singleton, reported_addressCheck, expectAddress, if_neg hno]
  rfl

end Sys2Proof.Machine
end

section
/-! The statements about the accumulator commands (42_accumulator.md). -/

namespace Sys2Proof.Machine

open Sys2Proof

/-- Settles O33: the three commands read the same inner product and differ in what they make of it. -/
theorem innerProductCommands : Obligations.InnerProductCommands := by
  unfold Obligations.InnerProductCommands
  intro e w s a b d n hfitA hfitB ha hb
  have hpass := sourceChecks_pass hfitA hfitB
  have hproduct : s.innerProduct w d = .done (innerProductOf n a b) := State.innerProduct_of_readable ha hb
  refine ⟨exec_of_writeAcc hpass ?_, exec_of_writeAcc hpass ?_, exec_of_writeAcc hpass ?_⟩
  · rw [pseudocode, hproduct, Attempt.done_andThen]
  · rw [pseudocode, hproduct, Attempt.done_andThen, State.readAcc]
  · rw [pseudocode, hproduct, Attempt.done_andThen, State.readAcc]

/-- Settles O34: the cell at SRCA is past the end of BUF, or it is read or cannot be. -/
theorem accumulatorLoadAndAdd : Obligations.AccumulatorLoadAndAdd := by
  unfold Obligations.AccumulatorLoadAndAdd
  intro w s d
  refine ⟨fun hpast => ?_, fun hin e => ?_⟩
  · obtain ⟨hld, hldUnchecked⟩ := exec_cell_past_end (cmd := (.accld · w)) (id := .srcA) (fun _ => rfl) rfl hpast
    obtain ⟨hadd, haddUnchecked⟩ := exec_cell_past_end (cmd := (.accadd · w)) (id := .srcA) (fun _ => rfl) rfl hpast
    exact ⟨hld, hadd, hldUnchecked, haddUnchecked⟩
  · have hpass := cellCheck_pass (id := .srcA) hin
    refine ⟨fun x hx => ⟨exec_of_writeAcc hpass ?_, exec_of_writeAcc hpass ?_⟩, fun hno => ?_⟩
    · rw [pseudocode, hx, Attempt.done_andThen]
    · rw [pseudocode, hx, Attempt.done_andThen, State.readAcc]
    · have hpass := firstFailure_eq_none.2 hpass
      exact ⟨exec_uninit (k := 0) hpass List.mem_cons_self one_pos hno, exec_uninit (k := 0) hpass List.mem_cons_self one_pos hno⟩

/-- Settles O35: the cell at DST is past the end of BUF, or it is written as a region of one cell. -/
theorem accumulatorStore : Obligations.AccumulatorStore := by
  unfold Obligations.AccumulatorStore
  intro w s d
  refine ⟨exec_cell_past_end (cmd := (.accst · w)) (id := .dst) (fun _ => rfl) rfl, fun hin e => ?_⟩
  obtain ⟨m, hexec, hstores, hsame⟩ := exec_stores_of_pseudocode (i := .accst e w) (n := 1) (x := fun _ => elemOf w s.acc)
    (cellCheck_pass hin) (State.writeElem_eq s w d.dst.toNat (s.readAcc w) hin)
  exact ⟨m, hexec, hstores 0 one_pos, hsame⟩

end Sys2Proof.Machine
end

section
/-! Commands that complete with code 0, forwards from the end of their pseudocode and backwards from the completion, and the
regions their predicates put within BUF (40_common.md R80 to R85). -/

namespace Sys2Proof.Machine

open Sys2Proof

variable {i : Instr} {s t : State} {w : Width} {a n c l : Nat}

theorem exec_of_pseudocode_done (hpass : ∀ c ∈ validation s.bufWords s.latch.desc i, c.holds = true)
    (h : pseudocode s i = .done t) : exec i s = .next t.succeeded := by
  rw [exec_pass hpass, h]
  rfl

/-- An error has a code other than 0 (60_exceptions.md R127), so a command that completes with code 0 ran to its end. -/
theorem exec_completed (h : exec i s = .next t) (hcode : t.errcode = 0) :
    (∀ c ∈ validation s.bufWords s.latch.desc i, c.holds = true) ∧ ∃ u, pseudocode s i = .done u := by
  rw [exec_eq_enter] at h
  rcases State.enter_next h with ⟨x, -, -, rfl⟩ | ⟨hnone, u, hu, -⟩ | ⟨-, x, u, -, rfl⟩
  · exact absurd hcode (errorNumber_range x.code).1
  · exact ⟨firstFailure_eq_none.1 hnone, u, hu⟩
  · exact absurd hcode (errorNumber_range x.code).1

theorem fits_of_operand {r : Region} (hpass : ∀ c ∈ validation s.bufWords s.latch.desc i, c.holds = true)
    (hr : r ∈ operandRegions s.latch.desc i) : Fits s.bufWords r.base r.len :=
  addressCheck_holds.1 (hpass _ ((addressCheck_mem_validation _ _ i).1 r hr))

theorem fits_of_written {r : Region} (hpass : ∀ c ∈ validation s.bufWords s.latch.desc i, c.holds = true)
    (hr : r ∈ writtenRegions s.latch.desc i) : Fits s.bufWords r.base r.len :=
  addressCheck_holds.1 (hpass _ ((addressCheck_mem_validation _ _ i).2 r hr))

/-- Regions within BUF, and a written one apart from the others. -/
theorem regions_pass {regions others : List Region} {written : Region} (hfit : ∀ r ∈ regions, Fits n r.base r.len)
    (hapart : ∀ r ∈ others, Apart written.base written.len r.base r.len) :
    ∀ c ∈ addressChecks n regions ++ overlapChecks written others, c.holds = true :=
  List.forall_mem_append.2 ⟨addressChecks_pass.2 hfit, overlapChecks_pass.2 hapart⟩

/-! ### Cells kept from one state to another -/

theorem readCell_of_keepsCells (h : keepsCells s t c l) (h0 : c ≤ a) (h1 : a < c + l) :
    t.mem.readCell a = s.mem.readCell a :=
  Memory.readCell_congr fun j hj => h _ (by omega) (by omega)

theorem stores_of_keepsCells {x : Nat → Int} (h : keepsCells s t c l) (hx : Stores s.mem w a n x) (h0 : c ≤ a)
    (h1 : a + n ≤ c + l) : Stores t.mem w a n x := fun j hj => by
  rw [readCell_of_keepsCells h (by omega) (by omega), hx j hj]

theorem readable_of_keepsCells {x : Nat → Int} (h : keepsCells s t a n) (hbuf : t.bufWords = s.bufWords)
    (hx : Readable s w a n x) : Readable t w a n x := fun j hj => by
  rw [State.readElem_congr hbuf fun b hb => h _ (by omega) (by omega), hx j hj]

end Sys2Proof.Machine
end

section
/-! The keyed encryptions (43_kernel.md R110 to R115): a command whose pseudocode is one encryption and perhaps a report of sizes
completes with the ciphertext that the encryption wrote. -/

namespace Sys2Proof.Machine

open Sys2Proof

variable {i : Instr} {s t : State} {w : Width} {e : Entry} {key : Nat → Int} {f : State → State}

/-- A command that ends with an LWE encryption and then `f` (R110, R112, R114). -/
theorem exec_of_encryptLwe {p : Int} {u : Nat → Word} {v : Word}
    (hpass : ∀ c ∈ validation s.bufWords s.latch.desc i, c.holds = true)
    (hct : Fits s.bufWords s.latch.desc.ctBase.toNat (s.latch.desc.keyDim.toNat + 1))
    (hu : Delivers s 0 (.uniform w) s.latch.desc.keyDim.toNat u)
    (hv : s.answerAt s.latch.desc.keyDim.toNat (noiseRequest w s.latch.desc) = .ok v)
    (hcode : ∀ t, s.encryptLwe w s.latch.desc ((List.range s.latch.desc.keyDim.toNat).map key) p s.latch.desc.ctBase.toNat
      = .done t → pseudocode s i = .done (f t)) :
    ∃ m, exec i s = .next (f { s.drawn s.latch.desc.keyDim.toNat 1 with mem := m }).succeeded ∧
      lweCiphertext s m w s.latch.desc.keyDim.toNat s.latch.desc.ctBase.toNat u (noiseOf w s.latch.desc v) key p := by
  obtain ⟨m, hm, hcipher⟩ := State.encryptLwe_delivers hu hv hct
  exact ⟨m, exec_of_pseudocode_done hpass (hcode _ hm), hcipher⟩

/-- A command that ends with a GLWE encryption and then `f` (R111, R113, R115). -/
theorem exec_of_encryptGlwe {ps : List Int} {pt : Nat → Int} {u v : Nat → Word}
    (hpass : ∀ c ∈ validation s.bufWords s.latch.desc i, c.holds = true)
    (hct : Fits s.bufWords s.latch.desc.ctBase.toNat ((s.latch.desc.keyDim.toNat + 1) * s.latch.desc.keyPoly.toNat))
    (hps : ∀ j < s.latch.desc.keyPoly.toNat, elemAt ps j = pt j)
    (hu : Delivers s 0 (.uniform w) (s.latch.desc.keyDim.toNat * s.latch.desc.keyPoly.toNat) u)
    (hv : Delivers s (s.latch.desc.keyDim.toNat * s.latch.desc.keyPoly.toNat) (noiseRequest w s.latch.desc)
      s.latch.desc.keyPoly.toNat v)
    (hcode : ∀ t, s.encryptGlwe w s.latch.desc
        ((List.range (s.latch.desc.keyDim.toNat * s.latch.desc.keyPoly.toNat)).map key) ps = .done t →
      pseudocode s i = .done (f t)) :
    ∃ m, exec i s = .next (f { s.drawn (s.latch.desc.keyDim.toNat * s.latch.desc.keyPoly.toNat) s.latch.desc.keyPoly.toNat with
        mem := m }).succeeded ∧
      glweCiphertext s m w s.latch.desc.keyDim.toNat s.latch.desc.keyPoly.toNat s.latch.desc.ctBase.toNat u
        (fun j => noiseOf w s.latch.desc (v j)) key pt := by
  obtain ⟨m, hm, hcipher⟩ := State.encryptGlwe_delivers hps hu hv hct
  exact ⟨m, exec_of_pseudocode_done hpass (hcode _ hm), hcipher⟩

/-! ### Backwards from a completion with code 0 -/

/-- ENC.LWE that completed has read a key, drawn a mask and written their ciphertext. -/
theorem encLwe_completed {p : Int} {v : Word} (h : exec (.encLwe e w) s = .next t) (hcode : t.errcode = 0)
    (hp : s.readElem w s.latch.desc.ptBase.toNat = .done p)
    (hv : s.answerAt s.latch.desc.keyDim.toNat (noiseRequest w s.latch.desc) = .ok v) :
    ∃ key u, Readable s w s.latch.desc.keyBase.toNat s.latch.desc.keyDim.toNat key ∧
      lweCiphertext s t.mem w s.latch.desc.keyDim.toNat s.latch.desc.ctBase.toNat u (noiseOf w s.latch.desc v) key p := by
  obtain ⟨hpass, r, hr⟩ := exec_completed h hcode
  obtain ⟨key, hkey, hrest⟩ := State.readElems_andThen_done hr
  obtain ⟨q, -, hencrypt⟩ := State.readElem_andThen_done hrest
  obtain ⟨⟨u, hu⟩, -⟩ := State.sampleInto_done hencrypt
  obtain ⟨m, hexec, hcipher⟩ := exec_of_encryptLwe (f := id) hpass (fits_of_written hpass List.mem_cons_self) hu hv
    fun _ => (State.encLwe_of_readable hkey hp).trans
  obtain rfl := Host.Outcome.next.inj (h.symm.trans hexec)
  exact ⟨key, u, hkey, hcipher⟩

/-- ENC.GLWE that completed has read a key, drawn a mask and written their ciphertext. -/
theorem encGlwe_completed {pt : Nat → Int} {v : Nat → Word} (h : exec (.encGlwe e w) s = .next t) (hcode : t.errcode = 0)
    (hpt : Readable s w s.latch.desc.ptBase.toNat s.latch.desc.keyPoly.toNat pt)
    (hv : Delivers s (s.latch.desc.keyDim.toNat * s.latch.desc.keyPoly.toNat) (noiseRequest w s.latch.desc)
      s.latch.desc.keyPoly.toNat v) :
    ∃ key u, Readable s w s.latch.desc.keyBase.toNat (s.latch.desc.keyDim.toNat * s.latch.desc.keyPoly.toNat) key ∧
      glweCiphertext s t.mem w s.latch.desc.keyDim.toNat s.latch.desc.keyPoly.toNat s.latch.desc.ctBase.toNat u
        (fun j => noiseOf w s.latch.desc (v j)) key pt := by
  obtain ⟨hpass, r, hr⟩ := exec_completed h hcode
  obtain ⟨key, hkey, hrest⟩ := State.readElems_andThen_done hr
  obtain ⟨q, -, hencrypt⟩ := State.readElems_andThen_done hrest
  obtain ⟨⟨u, hu⟩, -⟩ := State.sampleInto_done hencrypt
  obtain ⟨m, hexec, hcipher⟩ := exec_of_encryptGlwe (f := id) hpass (fits_of_written hpass List.mem_cons_self)
    (fun _ => elemAt_map_range _ pt) hu hv fun _ => (State.encGlwe_of_readable hkey hpt).trans
  obtain rfl := Host.Outcome.next.inj (h.symm.trans hexec)
  exact ⟨key, u, hkey, hcipher⟩

end Sys2Proof.Machine
end

section
/-! The statements about the keyed encryptions whose draws are all delivered (43_kernel.md R110 to R115). -/

namespace Sys2Proof.Machine

open Sys2Proof

/-- Settles O36: the operands are read and encrypted. -/
theorem encLweEncrypts : Obligations.EncLweEncrypts := by
  unfold Obligations.EncLweEncrypts
  intro e w s key p u v d n c hsize hct hctKey hctPt hkey hp hu hv
  have hpass := validation_aencLwe_pass (e := e) (w := w) hkey.fits hct (State.readElem_fits hp) hctKey hctPt
  exact exec_of_encryptLwe (f := id) (validation_encLwe_pass hsize hpass) hct hu hv
    fun _ => (State.encLwe_of_readable hkey hp).trans

/-- Settles O37: the operands are read and encrypted. -/
theorem encGlweEncrypts : Obligations.EncGlweEncrypts := by
  unfold Obligations.EncGlweEncrypts
  intro e w s key pt u v d k n c hpoly hsize hctPoly hcount hct hctKey hctPt hkey hpt hu hv
  have hpass := validation_aencGlwe_pass (e := e) (w := w) hpoly hcount hkey.fits hct hpt.fits hctKey hctPt
  exact exec_of_encryptGlwe (f := id) (validation_encGlwe_pass hsize hctPoly hpass) hct (fun _ => elemAt_map_range n pt) hu hv
    fun _ => (State.encGlwe_of_readable hkey hpt).trans

/-- Settles O38: AENC.LWE has no S1, and reports its size after the encryption. -/
theorem aencLweEncryptsAndReportsSize : Obligations.AencLweEncryptsAndReportsSize := by
  unfold Obligations.AencLweEncryptsAndReportsSize
  intro e w s key p u v d n c hct hctKey hctPt hkey hp hu hv
  refine exec_of_encryptLwe (f := fun t => t.reportSizeLwe d)
    (validation_aencLwe_pass hkey.fits hct (State.readElem_fits hp) hctKey hctPt) hct hu hv fun t ht => ?_
  rw [pseudocode, State.encLwe_of_readable hkey hp, ht, Attempt.done_andThen]

/-- Settles O39: AENC.GLWE has no G2 and no G3, and reports its sizes after the encryption. -/
theorem aencGlweEncryptsAndReportsSizes : Obligations.AencGlweEncryptsAndReportsSizes := by
  unfold Obligations.AencGlweEncryptsAndReportsSizes
  intro e w s key pt u v d k n c hpoly hcount hct hctKey hctPt hkey hpt hu hv
  refine exec_of_encryptGlwe (f := fun t => t.reportSizeGlwe d)
    (validation_aencGlwe_pass hpoly hcount hkey.fits hct hpt.fits hctKey hctPt) hct (fun _ => elemAt_map_range n pt) hu hv
    fun t ht => ?_
  rw [pseudocode, State.encGlwe_of_readable hkey hpt, ht, Attempt.done_andThen]

/-- Settles O40: ZENC.LWE reads no plaintext and encrypts 0. -/
theorem zencLweEncryptsZero : Obligations.ZencLweEncryptsZero := by
  unfold Obligations.ZencLweEncryptsZero
  intro e w s key u v d n c hsize hct hctKey hkey hu hv
  refine exec_of_encryptLwe (f := id) (validation_zencLwe_pass hsize hkey.fits hct hctKey) hct hu hv fun t ht => ?_
  rw [pseudocode, State.readKeyLwe_of_readable hkey, Attempt.done_andThen, ht, id]

/-- Settles O41: ZENC.GLWE reads no plaintext and encrypts zeros. -/
theorem zencGlweEncryptsZero : Obligations.ZencGlweEncryptsZero := by
  unfold Obligations.ZencGlweEncryptsZero
  intro e w s key u v d k n c hpoly hsize hctPoly hct hctKey hkey hu hv
  refine exec_of_encryptGlwe (f := id) (ps := List.replicate n 0)
    (validation_zencGlwe_pass hpoly hsize hctPoly hkey.fits hct hctKey) hct (fun _ _ => elemAt_replicate_zero n _) hu hv
    fun t ht => ?_
  rw [pseudocode, State.readKeyGlwe_of_readable hkey, Attempt.done_andThen, ht, id]

end Sys2Proof.Machine
end

section
/-! The trivial encryptions (43_kernel.md R116 to R119): TENC and ATENC have one pseudocode, which writes zeros and then
the plaintext. -/

namespace Sys2Proof.Machine

open Sys2Proof

variable {i : Instr} {s t : State} {w : Width} {e : Entry} {c k n : Nat} {d : Descriptors} {p : Int} {pt : Nat → Int}

theorem stores_writeCells_append (m : Memory) (w : Width) (c k n : Nat) (x y : Nat → Int) :
    Stores (m.writeCells c (((List.range k).map x ++ (List.range n).map y).map (wordOf w))) w c k x ∧
      Stores (m.writeCells c (((List.range k).map x ++ (List.range n).map y).map (wordOf w))) w (c + k) n y := by
  refine ⟨fun j hj => ?_, fun j hj => ?_⟩
  · rw [Memory.readCell_writeCells _ _ _ _ (by simp; omega)]
    simp [List.getElem?_append_left, hj]
  · rw [Nat.add_assoc, Memory.readCell_writeCells _ _ _ _ (by simpa using hj)]
    simp [hj]

theorem State.writeElems_zeros_append (hfit : Fits s.bufWords c (k + n)) :
    ∃ m, s.writeElems w c (List.replicate k 0 ++ (List.range n).map pt) = .done { s with mem := m } ∧
      Stores m w c k (fun _ => 0) ∧ Stores m w (c + k) n pt ∧ SameOutside s.mem m c (k + n) := by
  have hzeros : List.replicate k (0 : Int) = (List.range k).map fun _ => 0 := by rw [List.map_const', List.length_range]
  obtain ⟨hmask, hbody⟩ := stores_writeCells_append s.mem w c k n (fun _ => 0) pt
  rw [hzeros, State.writeElems_eq _ _ _ _ (by simpa using hfit)]
  exact ⟨_, rfl, hmask, hbody, sameOutside_writeCells _ _ _ _ (by simp)⟩

theorem State.trivialLwe_stores (hsize : 1 ≤ d.ctSize.toNat) (hct : Fits s.bufWords d.ctBase.toNat d.ctSize.toNat)
    (hp : s.readElem w d.ptBase.toNat = .done p) :
    ∃ m, s.trivialLwe w d = .done { s with mem := m } ∧ Stores m w d.ctBase.toNat (d.ctSize.toNat - 1) (fun _ => 0) ∧
      m.readCell (d.ctBase.toNat + (d.ctSize.toNat - 1)) = some (wordOf w p) ∧
      SameOutside s.mem m d.ctBase.toNat d.ctSize.toNat := by
  have hlen : d.ctSize.toNat - 1 + 1 = d.ctSize.toNat := Nat.sub_add_cancel hsize
  obtain ⟨m, hm, hmask, hbody, hsame⟩ := State.writeElems_zeros_append (s := s) (w := w) (c := d.ctBase.toNat)
    (k := d.ctSize.toNat - 1) (n := 1) (pt := fun _ => p) (by rwa [hlen])
  rw [hlen] at hsame
  refine ⟨m, ?_, hmask, hbody 0 one_pos, hsame⟩
  rw [State.trivialLwe, hp, Attempt.done_andThen]
  exact hm

theorem State.trivialGlwe_stores (hsize : 1 ≤ d.ctSize.toNat)
    (hct : Fits s.bufWords d.ctBase.toNat (d.ctSize.toNat * d.ctPoly.toNat))
    (hpt : Readable s w d.ptBase.toNat d.ctPoly.toNat pt) :
    ∃ m, s.trivialGlwe w d = .done { s with mem := m } ∧
      Stores m w d.ctBase.toNat ((d.ctSize.toNat - 1) * d.ctPoly.toNat) (fun _ => 0) ∧
      Stores m w (d.ctBase.toNat + (d.ctSize.toNat - 1) * d.ctPoly.toNat) d.ctPoly.toNat pt ∧
      SameOutside s.mem m d.ctBase.toNat (d.ctSize.toNat * d.ctPoly.toNat) := by
  have hlen : (d.ctSize.toNat - 1) * d.ctPoly.toNat + d.ctPoly.toNat = d.ctSize.toNat * d.ctPoly.toNat := by
    rw [← Nat.succ_mul, Nat.succ_eq_add_one, Nat.sub_add_cancel hsize]
  rw [← hlen] at hct ⊢
  obtain ⟨m, hm, hstores⟩ := State.writeElems_zeros_append (w := w) (pt := pt) hct
  refine ⟨m, ?_, hstores⟩
  rw [State.trivialGlwe, State.readElems_of_readable hpt, Attempt.done_andThen, hm]

theorem validation_tencLwe_pass (hsize : 1 ≤ d.ctSize.toNat) (hct : Fits n d.ctBase.toNat d.ctSize.toNat)
    (hpt : Fits n d.ptBase.toNat 1) (hctPt : Apart d.ctBase.toNat d.ctSize.toNat d.ptBase.toNat 1) :
    ∀ c ∈ validation n d (.tencLwe e w), c.holds = true :=
  checks_append_pass (by simpa [checkT1, shapeCheck] using hsize)
    (regions_pass (by simp [ctTrivialLwe, ptOne, hct, hpt]) (by simpa [ctTrivialLwe, ptOne] using hctPt))

theorem validation_tencGlwe_pass (hsize : 1 ≤ d.ctSize.toNat) (hpoly : 1 ≤ d.ctPoly.toNat) (hcount : d.ptCount = d.ctPoly)
    (hct : Fits n d.ctBase.toNat (d.ctSize.toNat * d.ctPoly.toNat)) (hpt : Fits n d.ptBase.toNat d.ctPoly.toNat)
    (hctPt : Apart d.ctBase.toNat (d.ctSize.toNat * d.ctPoly.toNat) d.ptBase.toNat d.ctPoly.toNat) :
    ∀ c ∈ validation n d (.tencGlwe e w), c.holds = true :=
  checks_append_pass (by simpa [checkT1, checkT2, checkT3, shapeCheck] using ⟨hsize, hpoly, hcount⟩)
    (regions_pass (by simp [ctTrivialGlwe, ptTrivialGlwe, hct, hpt])
      (by simpa [ctTrivialGlwe, ptTrivialGlwe] using hctPt))

/-- TENC.LWE or ATENC.LWE that completed has written its zeros and its plaintext. -/
theorem trivialLwe_completed (hi : i = .tencLwe e w ∨ i = .atencLwe e w) (h : exec i s = .next t) (hcode : t.errcode = 0)
    (hp : s.readElem w s.latch.desc.ptBase.toNat = .done p) :
    Stores t.mem w s.latch.desc.ctBase.toNat (s.latch.desc.ctSize.toNat - 1) (fun _ => 0) ∧
      t.mem.readCell (s.latch.desc.ctBase.toNat + (s.latch.desc.ctSize.toNat - 1)) = some (wordOf w p) := by
  replace h : exec (.tencLwe e w) s = .next t := by rcases hi with rfl | rfl <;> exact h
  obtain ⟨hpass, -⟩ := exec_completed h hcode
  have hsize : 1 ≤ s.latch.desc.ctSize.toNat := by
    simpa [checkT1, shapeCheck] using hpass (checkT1 s.latch.desc) (by simp [validation])
  obtain ⟨m, hm, hmask, hbody, -⟩ := State.trivialLwe_stores hsize (fits_of_written hpass List.mem_cons_self) hp
  obtain rfl := Host.Outcome.next.inj (h.symm.trans (exec_of_pseudocode_done hpass hm))
  exact ⟨hmask, hbody⟩

/-- TENC.GLWE or ATENC.GLWE that completed has written its zeros and its plaintext. -/
theorem trivialGlwe_completed (hi : i = .tencGlwe e w ∨ i = .atencGlwe e w) (h : exec i s = .next t) (hcode : t.errcode = 0)
    (hpt : Readable s w s.latch.desc.ptBase.toNat s.latch.desc.ctPoly.toNat pt) :
    Stores t.mem w s.latch.desc.ctBase.toNat ((s.latch.desc.ctSize.toNat - 1) * s.latch.desc.ctPoly.toNat) (fun _ => 0) ∧
      Stores t.mem w (s.latch.desc.ctBase.toNat + (s.latch.desc.ctSize.toNat - 1) * s.latch.desc.ctPoly.toNat)
        s.latch.desc.ctPoly.toNat pt := by
  replace h : exec (.tencGlwe e w) s = .next t := by rcases hi with rfl | rfl <;> exact h
  obtain ⟨hpass, -⟩ := exec_completed h hcode
  have hsize : 1 ≤ s.latch.desc.ctSize.toNat := by
    simpa [checkT1, shapeCheck] using hpass (checkT1 s.latch.desc) (by simp [validation])
  obtain ⟨m, hm, hmask, hbody, -⟩ := State.trivialGlwe_stores hsize (fits_of_written hpass List.mem_cons_self) hpt
  obtain rfl := Host.Outcome.next.inj (h.symm.trans (exec_of_pseudocode_done hpass hm))
  exact ⟨hmask, hbody⟩

end Sys2Proof.Machine
end

section
/-! The decryptions (43_kernel.md R120, R121): from what their operands read, and from what the cells of the ciphertext hold. -/

namespace Sys2Proof.Machine

open Sys2Proof

variable {i : Instr} {s t : State} {w : Width} {e : Entry} {n : Nat} {d : Descriptors} {key mask : Nat → Int}

theorem validation_decLwe_pass (hsize : d.ctSize.toNat = d.keyDim.toNat + 1) (hkey : Fits n d.keyBase.toNat d.keyDim.toNat)
    (hct : Fits n d.ctBase.toNat (d.keyDim.toNat + 1)) (hpt : Fits n d.ptBase.toNat 1)
    (hptKey : Apart d.ptBase.toNat 1 d.keyBase.toNat d.keyDim.toNat)
    (hptCt : Apart d.ptBase.toNat 1 d.ctBase.toNat (d.keyDim.toNat + 1)) :
    ∀ c ∈ validation n d (.decLwe e w), c.holds = true :=
  checks_append_pass (by simpa [checkS1, shapeCheck] using hsize)
    (regions_pass (by simp [keyLwe, ctLwe, ptOne, hkey, hct, hpt]) (by simpa [keyLwe, ctLwe, ptOne] using ⟨hptKey, hptCt⟩))

theorem validation_decGlwe_pass (hpoly : 1 ≤ d.keyPoly.toNat) (hsize : d.ctSize.toNat = d.keyDim.toNat + 1)
    (hctPoly : d.ctPoly = d.keyPoly) (hcount : d.ptCount = d.keyPoly)
    (hkey : Fits n d.keyBase.toNat (d.keyDim.toNat * d.keyPoly.toNat))
    (hct : Fits n d.ctBase.toNat ((d.keyDim.toNat + 1) * d.keyPoly.toNat)) (hpt : Fits n d.ptBase.toNat d.keyPoly.toNat)
    (hptKey : Apart d.ptBase.toNat d.keyPoly.toNat d.keyBase.toNat (d.keyDim.toNat * d.keyPoly.toNat))
    (hptCt : Apart d.ptBase.toNat d.keyPoly.toNat d.ctBase.toNat ((d.keyDim.toNat + 1) * d.keyPoly.toNat)) :
    ∀ c ∈ validation n d (.decGlwe e w), c.holds = true :=
  checks_append_pass (by simpa [checkG1, checkG2, checkG3, checkG4, shapeCheck] using ⟨hpoly, hsize, hctPoly, hcount⟩)
    (regions_pass (by simp [keyGlwe, ctGlwe, ptGlwe, hkey, hct, hpt])
      (by simpa [keyGlwe, ctGlwe, ptGlwe] using ⟨hptKey, hptCt⟩))

/-! ### From the operands -/

/-- DEC.LWE with its predicates true and its operands readable. -/
theorem exec_decLwe {body : Int} (hpass : ∀ c ∈ validation s.bufWords s.latch.desc (.decLwe e w), c.holds = true)
    (hkey : Readable s w s.latch.desc.keyBase.toNat s.latch.desc.keyDim.toNat key)
    (hmask : Readable s w s.latch.desc.ctBase.toNat s.latch.desc.keyDim.toNat mask)
    (hbody : s.readElem w (s.latch.desc.ctBase.toNat + s.latch.desc.keyDim.toNat) = .done body) :
    ∃ m, exec (.decLwe e w) s = .next { s with mem := m }.succeeded ∧
      m.readCell s.latch.desc.ptBase.toNat = some (wordOf w (body - innerProductOf s.latch.desc.keyDim.toNat mask key)) ∧
      SameOutside s.mem m s.latch.desc.ptBase.toNat 1 := by
  have hpt : Fits s.bufWords s.latch.desc.ptBase.toNat 1 := fits_of_written hpass List.mem_cons_self
  have hcode : pseudocode s (.decLwe e w) = s.writeElem w s.latch.desc.ptBase.toNat
      (torus w (body - innerProductOf s.latch.desc.keyDim.toNat mask key)) := by
    rw [pseudocode, State.readElems_of_readable hmask, Attempt.done_andThen, State.readKeyLwe_of_readable hkey,
      Attempt.done_andThen, hbody, Attempt.done_andThen, dotSum_eq]
  rw [State.writeElem_eq _ _ _ _ (by simpa [Fits] using hpt), wordOf_torus] at hcode
  obtain ⟨m, hexec, hstores, hsame⟩ := exec_stores_of_pseudocode (n := 1)
    (x := fun _ => body - innerProductOf s.latch.desc.keyDim.toNat mask key) hpass hcode
  exact ⟨m, hexec, hstores 0 one_pos, hsame⟩

/-- DEC.GLWE with its predicates true and its operands readable. -/
theorem exec_decGlwe {body : Nat → Int} (hpass : ∀ c ∈ validation s.bufWords s.latch.desc (.decGlwe e w), c.holds = true)
    (hkey : Readable s w s.latch.desc.keyBase.toNat (s.latch.desc.keyDim.toNat * s.latch.desc.keyPoly.toNat) key)
    (hmask : Readable s w s.latch.desc.ctBase.toNat (s.latch.desc.keyDim.toNat * s.latch.desc.keyPoly.toNat) mask)
    (hbody : Readable s w (s.latch.desc.ctBase.toNat + s.latch.desc.keyDim.toNat * s.latch.desc.keyPoly.toNat)
      s.latch.desc.keyPoly.toNat body) :
    ∃ m, exec (.decGlwe e w) s = .next { s with mem := m }.succeeded ∧
      Stores m w s.latch.desc.ptBase.toNat s.latch.desc.keyPoly.toNat
        (fun j => body j - glweInnerOf s.latch.desc.keyDim.toNat s.latch.desc.keyPoly.toNat mask key j) ∧
      SameOutside s.mem m s.latch.desc.ptBase.toNat s.latch.desc.keyPoly.toNat := by
  have hpt : Fits s.bufWords s.latch.desc.ptBase.toNat s.latch.desc.keyPoly.toNat :=
    fits_of_written hpass List.mem_cons_self
  have hcode : pseudocode s (.decGlwe e w) = s.writeElems w s.latch.desc.ptBase.toNat
      ((List.range s.latch.desc.keyPoly.toNat).map fun j =>
        torus w (body j - glweInnerOf s.latch.desc.keyDim.toNat s.latch.desc.keyPoly.toNat mask key j)) := by
    rw [pseudocode, State.readElems_of_readable hmask, Attempt.done_andThen, State.readElems_of_readable hbody,
      Attempt.done_andThen, State.readKeyGlwe_of_readable hkey, Attempt.done_andThen]
    congr 1
    refine List.map_congr_left fun j hj => ?_
    rw [List.mem_range] at hj
    rw [elemAt_map_range _ body hj, innerCoeff_eq _ _ _ _ _ hj, torus_sub_right]
  rw [State.writeElems_eq _ _ _ _ (by simpa using hpt)] at hcode
  obtain ⟨m, hexec, hstores, hsame⟩ := exec_stores_of_pseudocode hpass hcode
  exact ⟨m, hexec, hstores.congr fun _ _ => torus_torus w _, hsame⟩

/-! ### Backwards from a completion with code 0 -/

theorem decLwe_reads_key (h : exec (.decLwe e w) s = .next t) (hcode : t.errcode = 0) :
    ∃ key, Readable s w s.latch.desc.keyBase.toNat s.latch.desc.keyDim.toNat key := by
  obtain ⟨-, r, hr⟩ := exec_completed h hcode
  obtain ⟨_, -, hrest⟩ := State.readElems_andThen_done hr
  obtain ⟨key, hkey, -⟩ := State.readElems_andThen_done hrest
  exact ⟨key, hkey⟩

theorem decGlwe_reads_key (h : exec (.decGlwe e w) s = .next t) (hcode : t.errcode = 0) :
    ∃ key, Readable s w s.latch.desc.keyBase.toNat (s.latch.desc.keyDim.toNat * s.latch.desc.keyPoly.toNat) key := by
  obtain ⟨-, r, hr⟩ := exec_completed h hcode
  obtain ⟨_, -, hrest⟩ := State.readElems_andThen_done hr
  obtain ⟨_, -, hrest⟩ := State.readElems_andThen_done hrest
  obtain ⟨key, hkey, -⟩ := State.readElems_andThen_done hrest
  exact ⟨key, hkey⟩

/-- DEC.LWE that completed on stored words decrypted their elements. -/
theorem decLwe_of_stores {body : Int} (h : exec (.decLwe e w) s = .next t) (hcode : t.errcode = 0)
    (hkey : Readable s w s.latch.desc.keyBase.toNat s.latch.desc.keyDim.toNat key)
    (hmask : Stores s.mem w s.latch.desc.ctBase.toNat s.latch.desc.keyDim.toNat mask)
    (hbody : s.mem.readCell (s.latch.desc.ctBase.toNat + s.latch.desc.keyDim.toNat) = some (wordOf w body)) :
    t.mem.readCell s.latch.desc.ptBase.toNat =
      some (wordOf w (body - innerProductOf s.latch.desc.keyDim.toNat (fun j => torus w (mask j)) key)) := by
  obtain ⟨hpass, -⟩ := exec_completed h hcode
  have hct : Fits s.bufWords s.latch.desc.ctBase.toNat (s.latch.desc.keyDim.toNat + 1) :=
    fits_of_operand hpass (List.mem_cons_of_mem _ List.mem_cons_self)
  have hend : s.latch.desc.ctBase.toNat + s.latch.desc.keyDim.toNat < s.bufWords := by unfold Fits at hct; omega
  obtain ⟨m, hexec, hcell, -⟩ := exec_decLwe hpass hkey (hmask.readable (.inr hend.le)) (State.readElem_of_cell hend hbody)
  obtain rfl := Host.Outcome.next.inj (h.symm.trans hexec)
  exact hcell.trans (congrArg some (wordOf_congr (torus_sub_left w _ _)))

/-- DEC.GLWE that completed on stored words decrypted their elements. -/
theorem decGlwe_of_stores {body : Nat → Int} (h : exec (.decGlwe e w) s = .next t) (hcode : t.errcode = 0)
    (hkey : Readable s w s.latch.desc.keyBase.toNat (s.latch.desc.keyDim.toNat * s.latch.desc.keyPoly.toNat) key)
    (hmask : Stores s.mem w s.latch.desc.ctBase.toNat (s.latch.desc.keyDim.toNat * s.latch.desc.keyPoly.toNat) mask)
    (hbody : Stores s.mem w (s.latch.desc.ctBase.toNat + s.latch.desc.keyDim.toNat * s.latch.desc.keyPoly.toNat)
      s.latch.desc.keyPoly.toNat body) :
    Stores t.mem w s.latch.desc.ptBase.toNat s.latch.desc.keyPoly.toNat fun j =>
      body j - glweInnerOf s.latch.desc.keyDim.toNat s.latch.desc.keyPoly.toNat (fun j => torus w (mask j)) key j := by
  obtain ⟨hpass, -⟩ := exec_completed h hcode
  have hct : Fits s.bufWords s.latch.desc.ctBase.toNat ((s.latch.desc.keyDim.toNat + 1) * s.latch.desc.keyPoly.toNat) :=
    fits_of_operand hpass (List.mem_cons_of_mem _ List.mem_cons_self)
  rw [Nat.succ_mul] at hct
  have hmaskFits : Fits s.bufWords s.latch.desc.ctBase.toNat (s.latch.desc.keyDim.toNat * s.latch.desc.keyPoly.toNat) := by
    unfold Fits at *; omega
  have hbodyFits : Fits s.bufWords (s.latch.desc.ctBase.toNat + s.latch.desc.keyDim.toNat * s.latch.desc.keyPoly.toNat)
      s.latch.desc.keyPoly.toNat := by
    unfold Fits at *; omega
  obtain ⟨m, hexec, hstores, -⟩ := exec_decGlwe hpass hkey (hmask.readable hmaskFits) (hbody.readable hbodyFits)
  obtain rfl := Host.Outcome.next.inj (h.symm.trans hexec)
  exact hstores.congr fun j _ => torus_sub_left w _ _

/-! ### Masks of zeros and of drawn elements -/

theorem innerProductOf_zero_left (n : Nat) (key : Nat → Int) : innerProductOf n (fun _ => 0) key = 0 := by
  simp [innerProductOf]

theorem glweInnerOf_zero_left (k n : Nat) (key : Nat → Int) (j : Nat) : glweInnerOf k n (fun _ => 0) key j = 0 := by
  simp [glweInnerOf, polymulOf]

end Sys2Proof.Machine
end

section
/-! The statements about the trivial encryptions and the decryptions, and the two round trips (43_kernel.md R116 to R123). -/

namespace Sys2Proof.Machine

open Sys2Proof

/-- Settles O42: both commands write zeros and the plaintext. -/
theorem trivialLweEncrypts : Obligations.TrivialLweEncrypts := by
  unfold Obligations.TrivialLweEncrypts
  intro e w s p d c g hsize hct hctPt hp
  have hpass := validation_tencLwe_pass (e := e) (w := w) hsize hct (State.readElem_fits hp) hctPt
  obtain ⟨m, hm, hstores⟩ := State.trivialLwe_stores hsize hct hp
  exact ⟨m, exec_of_pseudocode_done hpass hm, exec_of_pseudocode_done (i := .atencLwe e w) hpass hm, hstores⟩

/-- Settles O43: both commands write zeros and the plaintext. -/
theorem trivialGlweEncrypts : Obligations.TrivialGlweEncrypts := by
  unfold Obligations.TrivialGlweEncrypts
  intro e w s pt d c g n hsize hpoly hcount hct hctPt hpt
  have hpass := validation_tencGlwe_pass (e := e) (w := w) hsize hpoly hcount hct hpt.fits hctPt
  obtain ⟨m, hm, hstores⟩ := State.trivialGlwe_stores hsize hct hpt
  exact ⟨m, exec_of_pseudocode_done hpass hm, exec_of_pseudocode_done (i := .atencGlwe e w) hpass hm, hstores⟩

/-- Settles O44: the ciphertext fits because its last cell, the body, can be read. -/
theorem decLweDecrypts : Obligations.DecLweDecrypts := by
  unfold Obligations.DecLweDecrypts
  intro e w s key mask body d n c hsize hpt hptKey hptCt hkey hmask hbody
  have hct : Fits s.bufWords c (n + 1) := .inr (State.readElem_lt hbody)
  exact exec_decLwe (validation_decLwe_pass hsize hkey.fits hct (.inr hpt) hptKey hptCt) hkey hmask hbody

/-- Settles O45: the ciphertext fits because its body, which is not empty, can be read. -/
theorem decGlweDecrypts : Obligations.DecGlweDecrypts := by
  unfold Obligations.DecGlweDecrypts
  intro e w s key mask body d k n c hpoly hsize hctPoly hcount hpt hptKey hptCt hkey hmask hbody
  have hct : Fits s.bufWords c ((k + 1) * n) := by
    rw [Nat.succ_mul]
    have := hbody.fits
    unfold Fits at *
    omega
  exact exec_decGlwe (validation_decGlwe_pass hpoly hsize hctPoly hcount hkey.fits hct hpt hptKey hptCt) hkey hmask hbody

/-- Settles O57: DEC subtracts the inner product that ENC has added. -/
theorem roundTrip : Obligations.RoundTrip := by
  unfold Obligations.RoundTrip
  refine ⟨?_, ?_⟩
  · intro e1 e2 w s1 t1 s2 t2 p v d henc hcode1 hp hv hbuf hdesc hkeepKey hkeepCt hdec hcode2
    obtain ⟨key, u, hkey, hmask, hbody, -⟩ := encLwe_completed henc hcode1 hp hv
    have hdim : s2.latch.desc.keyDim = d.keyDim := by rw [hdesc]
    have hkeyBase : s2.latch.desc.keyBase = d.keyBase := by rw [hdesc]
    have hctBase : s2.latch.desc.ctBase = d.ctBase := by rw [hdesc]
    have hround := decLwe_of_stores hdec hcode2
      (by rw [hdim, hkeyBase]; exact readable_of_keepsCells hkeepKey hbuf hkey)
      (by rw [hdim, hctBase]; exact stores_of_keepsCells hkeepCt hmask le_rfl (by omega))
      (by rw [hdim, hctBase, readCell_of_keepsCells hkeepCt (by omega) (by omega)]; exact hbody)
    simp only [torus_elemOf, hdim] at hround
    rw [add_right_comm, add_sub_cancel_right, add_comm] at hround
    exact ⟨hround, fun hdisp => by rwa [noiseOf, if_pos hdisp, add_zero] at hround⟩
  · intro e1 e2 w s1 t1 s2 t2 pt v d k n henc hcode1 hpt hv hbuf hdesc hkeepKey hkeepCt hdec hcode2
    obtain ⟨key, u, hkey, hmask, hbody, -⟩ := encGlwe_completed henc hcode1 hpt hv
    have hend : d.ctBase.toNat + k * n + n = d.ctBase.toNat + (k + 1) * n := by rw [Nat.succ_mul, Nat.add_assoc]
    have hdim : s2.latch.desc.keyDim = d.keyDim := by rw [hdesc]
    have hpoly : s2.latch.desc.keyPoly = d.keyPoly := by rw [hdesc]
    have hkeyBase : s2.latch.desc.keyBase = d.keyBase := by rw [hdesc]
    have hctBase : s2.latch.desc.ctBase = d.ctBase := by rw [hdesc]
    have hround := decGlwe_of_stores hdec hcode2
      (by rw [hdim, hpoly, hkeyBase]; exact readable_of_keepsCells hkeepKey hbuf hkey)
      (by rw [hdim, hpoly, hctBase]; exact stores_of_keepsCells hkeepCt hmask le_rfl (hend ▸ Nat.le_add_right _ _))
      (by rw [hdim, hpoly, hctBase]; exact stores_of_keepsCells hkeepCt hbody (Nat.le_add_right _ _) hend.le)
    simp only [torus_elemOf, hdim, hpoly] at hround
    have hsum : Stores t2.mem w s2.latch.desc.ptBase.toNat n fun j => pt j + noiseOf w d (v j) :=
      hround.congr fun j _ => congrArg (torus w) (by ring)
    exact ⟨hsum, fun hdisp => hsum.congr fun j _ => by rw [noiseOf, if_pos hdisp, add_zero]⟩

/-- Settles O58: the inner product of a zero mask with any key is 0. -/
theorem trivialRoundTrip : Obligations.TrivialRoundTrip := by
  unfold Obligations.TrivialRoundTrip
  refine ⟨?_, ?_⟩
  · intro i e1 e2 w s1 t1 s2 t2 p hi henc hcode1 hp hbuf hctBase hctSize hkeep hdec hcode2
    obtain ⟨hmask, hbody⟩ := trivialLwe_completed hi henc hcode1 hp
    obtain ⟨key, hkey⟩ := decLwe_reads_key hdec hcode2
    have hsize : s1.latch.desc.ctSize.toNat = s2.latch.desc.keyDim.toNat + 1 := by
      rw [← hctSize]
      simpa [checkS1, shapeCheck] using (exec_completed hdec hcode2).1 (checkS1 s2.latch.desc) (by simp [validation])
    rw [hsize, Nat.add_sub_cancel] at hmask hbody
    rw [← hctBase] at hmask hbody hkeep
    have hround := decLwe_of_stores hdec hcode2 hkey (stores_of_keepsCells hkeep hmask le_rfl (by omega))
      ((readCell_of_keepsCells hkeep (by omega) (by omega)).trans hbody)
    simpa only [torus_zero, innerProductOf_zero_left, sub_zero] using hround
  · intro i e1 e2 w s1 t1 s2 t2 pt hi henc hcode1 hpt hbuf hctBase hctSize hctPoly hkeep hdec hcode2
    obtain ⟨hmask, hbody⟩ := trivialGlwe_completed hi henc hcode1 hpt
    obtain ⟨key, hkey⟩ := decGlwe_reads_key hdec hcode2
    obtain ⟨hpass, -⟩ := exec_completed hdec hcode2
    have hsize : s1.latch.desc.ctSize.toNat = s2.latch.desc.keyDim.toNat + 1 := by
      rw [← hctSize]
      simpa [checkG2, shapeCheck] using hpass (checkG2 s2.latch.desc) (by simp [validation])
    have hpoly : s1.latch.desc.ctPoly = s2.latch.desc.keyPoly := by
      rw [← hctPoly]
      simpa [checkG3, shapeCheck] using hpass (checkG3 s2.latch.desc) (by simp [validation])
    rw [hsize, hpoly, Nat.add_sub_cancel, ← hctBase] at hmask hbody
    rw [hsize, hpoly, Nat.succ_mul, ← hctBase] at hkeep
    have hround := decGlwe_of_stores hdec hcode2 hkey (stores_of_keepsCells hkeep hmask le_rfl (by omega))
      (stores_of_keepsCells hkeep hbody (by omega) (by omega))
    rw [hpoly]
    simpa only [torus_zero, glweInnerOf_zero_left, sub_zero] using hround

end Sys2Proof.Machine
end

section
/-! A list encryption (44_list.md R124) that completes: the list that `State.encryptEach` writes once its draws are delivered, and,
backwards from a completion with code 0, the key, the plaintexts and the draws that it has used. -/

namespace Sys2Proof.Machine

open Sys2Proof

variable {s t : State} {w : Width} {e : Entry} {d : Descriptors} {c l : Nat} {key pt : Nat → Int} {u : Nat → Nat → Word}
  {v : Nat → Word}

/-! ### The pseudocode -/

/-- S1 and C1 are among the predicates (44_list.md R124). -/
theorem shape_of_validation_encl (hpass : ∀ k ∈ validation s.bufWords d (.encl e w), k.holds = true) :
    d.ctSize.toNat = d.keyDim.toNat + 1 ∧ d.ptCount = d.ctCount :=
  ⟨by simpa [checkS1, shapeCheck] using hpass (checkS1 d) (by simp [validation]),
    Eq.symm (by simpa [checkC1] using hpass (checkC1 d) (by simp [validation]))⟩

theorem ctList_fits_of_validation_encl (hpass : ∀ k ∈ validation s.bufWords s.latch.desc (.encl e w), k.holds = true) :
    Fits s.bufWords s.latch.desc.ctBase.toNat (s.latch.desc.ctCount.toNat * (s.latch.desc.keyDim.toNat + 1)) := by
  rw [← (shape_of_validation_encl hpass).1]
  exact fits_of_written hpass List.mem_cons_self

/-- An empty list is encrypted as a list of no elements, its key unread (log 9). -/
theorem pseudocode_encl (hcount : s.latch.desc.ptCount = s.latch.desc.ctCount)
    (hkey : s.latch.desc.ctCount.toNat ≠ 0 → Readable s w s.latch.desc.keyBase.toNat s.latch.desc.keyDim.toNat key)
    (hpt : Readable s w s.latch.desc.ptBase.toNat s.latch.desc.ctCount.toNat pt) :
    pseudocode s (.encl e w) = s.encryptEach w s.latch.desc ((List.range s.latch.desc.keyDim.toNat).map key)
      s.latch.desc.ctBase.toNat ((List.range s.latch.desc.ctCount.toNat).map pt) := by
  rw [pseudocode, hcount]
  by_cases hempty : s.latch.desc.ctCount = 0
  · rw [if_pos hempty, hempty]
    rfl
  · have hne : s.latch.desc.ctCount.toNat ≠ 0 := fun h0 => hempty (BitVec.eq_of_toNat_eq h0)
    rw [if_neg hempty, State.readKeyLwe_of_readable (hkey hne), Attempt.done_andThen, State.readElems_of_readable hpt,
      Attempt.done_andThen]

/-- A list command whose draws are all delivered. -/
theorem exec_of_encryptEach (hpass : ∀ k ∈ validation s.bufWords s.latch.desc (.encl e w), k.holds = true)
    (hkey : s.latch.desc.ctCount.toNat ≠ 0 → Readable s w s.latch.desc.keyBase.toNat s.latch.desc.keyDim.toNat key)
    (hpt : Readable s w s.latch.desc.ptBase.toNat s.latch.desc.ctCount.toNat pt)
    (hu : ∀ i < s.latch.desc.ctCount.toNat,
      Delivers s (i * (s.latch.desc.keyDim.toNat + 1)) (.uniform w) s.latch.desc.keyDim.toNat (u i))
    (hv : ∀ i < s.latch.desc.ctCount.toNat,
      s.answerAt (i * (s.latch.desc.keyDim.toNat + 1) + s.latch.desc.keyDim.toNat) (noiseRequest w s.latch.desc) = .ok (v i)) :
    ∃ m, exec (.encl e w) s = .next { s.drawn (s.latch.desc.ctCount.toNat * s.latch.desc.keyDim.toNat)
        s.latch.desc.ctCount.toNat with mem := m }.succeeded ∧
      listCiphertexts m w s.latch.desc s.latch.desc.ctBase.toNat s.latch.desc.ctCount.toNat u v key pt ∧
      SameOutside s.mem m s.latch.desc.ctBase.toNat (s.latch.desc.ctCount.toNat * (s.latch.desc.keyDim.toNat + 1)) := by
  obtain ⟨hsize, hcount⟩ := shape_of_validation_encl hpass
  obtain ⟨m, hm, hlist⟩ := State.encryptEach_delivers hsize _ s _ pt u v (ctList_fits_of_validation_encl hpass) hu hv
  exact ⟨m, exec_of_pseudocode_done hpass ((pseudocode_encl hcount hkey hpt).trans hm), hlist⟩

/-! ### Backwards from a completion with code 0 -/

/-- A list that was encrypted to its end had every draw of every element delivered (40_common.md R89, R90). -/
theorem State.encryptEach_done (hsize : d.ctSize.toNat = d.keyDim.toNat + 1)
    (hfit : Fits s.bufWords c (l * (d.keyDim.toNat + 1)))
    (h : s.encryptEach w d ((List.range d.keyDim.toNat).map key) c ((List.range l).map pt) = .done t) :
    ∀ i < l, (∃ x, Delivers s (i * (d.keyDim.toNat + 1)) (.uniform w) d.keyDim.toNat x) ∧
      ∃ y, s.answerAt (i * (d.keyDim.toNat + 1) + d.keyDim.toNat) (noiseRequest w d) = .ok y := by
  induction l generalizing s c pt with
  | zero => exact fun i hi => absurd hi (Nat.not_lt_zero i)
  | succ l ih =>
    rw [Nat.succ_mul] at hfit
    rw [List.range_succ_eq_map, List.map_cons, List.map_map, State.encryptEach] at h
    obtain ⟨r, hr, h⟩ := Attempt.andThen_done h
    obtain ⟨⟨x, hx⟩, y, hy⟩ := State.sampleInto_done hr
    obtain ⟨m, hm, -⟩ := State.encryptLwe_delivers (key := key) (p := pt 0) (c := c) hx (hy 0 one_pos)
      (by unfold Fits at *; omega)
    obtain rfl := Attempt.done.inj (hr.symm.trans hm)
    rw [hsize] at h
    have hrest := ih (by unfold Fits at *; simp only [State.drawn]; omega) h
    rintro (_ | i) hi
    · rw [Nat.zero_mul]
      exact ⟨⟨x, hx⟩, y 0, by simpa using hy 0 one_pos⟩
    · obtain ⟨⟨x', hx'⟩, y', hy'⟩ := hrest i (by omega)
      have hnext : ∀ k, (i + 1) * (d.keyDim.toNat + 1) + k = d.keyDim.toNat + 1 + (i * (d.keyDim.toNat + 1) + k) :=
        fun k => by ring
      simp only [Delivers, State.answerAt_drawn_mem, ← hnext] at hx' hy'
      exact ⟨⟨x', hx'⟩, y', hy'⟩

/-- ENCL that completed on a list that is not empty has read a key and plaintexts, drawn its masks and its noise, and written
their ciphertexts. -/
theorem encl_completed (h : exec (.encl e w) s = .next t) (hcode : t.errcode = 0) (hne : s.latch.desc.ctCount ≠ 0) :
    s.latch.desc.ctSize.toNat = s.latch.desc.keyDim.toNat + 1 ∧ ∃ key pt u v,
      Readable s w s.latch.desc.keyBase.toNat s.latch.desc.keyDim.toNat key ∧
      Readable s w s.latch.desc.ptBase.toNat s.latch.desc.ctCount.toNat pt ∧
      listCiphertexts t.mem w s.latch.desc s.latch.desc.ctBase.toNat s.latch.desc.ctCount.toNat u v key pt := by
  obtain ⟨hpass, r, hr⟩ := exec_completed h hcode
  obtain ⟨hsize, hcount⟩ := shape_of_validation_encl hpass
  rw [pseudocode, if_neg hne, hcount] at hr
  obtain ⟨key, hkey, hrest⟩ := State.readElems_andThen_done hr
  obtain ⟨pt, hpt, hencrypt⟩ := State.readElems_andThen_done hrest
  have hdraws := State.encryptEach_done hsize (ctList_fits_of_validation_encl hpass) hencrypt
  choose! u hu using fun i hi => (hdraws i hi).1
  choose! v hv using fun i hi => (hdraws i hi).2
  obtain ⟨m, hexec, hlist, -⟩ := exec_of_encryptEach hpass (fun _ => hkey) hpt hu hv
  obtain rfl := Host.Outcome.next.inj (h.symm.trans hexec)
  exact ⟨hsize, key, pt, u, v, hkey, hpt, hlist⟩

end Sys2Proof.Machine
end

section
/-! The statements about the list encryption (44_list.md R124, R125). -/

namespace Sys2Proof.Machine

open Sys2Proof

/-- Settles O46: the predicates hold, and the list is encrypted with the draws delivered. -/
theorem enclEncryptsTheList : Obligations.EnclEncryptsTheList := by
  unfold Obligations.EnclEncryptsTheList
  intro e w s key pt u v d n c l hsize hcount hkeyFits hct hctKey hctPt hkey hpt hu hv
  have hpass : ∀ x ∈ validation s.bufWords d (.encl e w), x.holds = true := by
    apply validation_encl_pass hsize hcount.symm hkeyFits <;> simp only [hsize, hcount]
    · exact hct
    · exact hpt.fits
    · exact hctKey
    · exact hctPt
  exact exec_of_encryptEach hpass hkey hpt hu hv

/-- Settles O59: DEC subtracts the inner product that ENCL has added to plaintext i, the noise being 0. -/
theorem batchConsistency : Obligations.BatchConsistency := by
  unfold Obligations.BatchConsistency
  intro e1 e2 w s1 t1 s2 t2 i p
  dsimp only
  intro hencl hcode1 hdisp hi hp hbuf hkeyBase hdim hctBase hkeepKey hkeepCt hdec hcode2
  have hne : s1.latch.desc.ctCount ≠ 0 := fun h0 => by simp [h0] at hi
  obtain ⟨hsize, key, pt, u, v, hkey, hpt, hlist⟩ := encl_completed hencl hcode1 hne
  obtain rfl : pt i = p := Attempt.done.inj ((hpt i hi).symm.trans hp)
  obtain ⟨hmask, hbody⟩ := hlist i hi
  have hlast : i * s1.latch.desc.ctSize.toNat + (s1.latch.desc.keyDim.toNat + 1) ≤
      s1.latch.desc.ctCount.toNat * s1.latch.desc.ctSize.toNat := by
    rw [← hsize, ← Nat.succ_mul]
    exact Nat.mul_le_mul_right _ hi
  rw [← hsize, ← hctBase] at hmask hbody
  have hround := decLwe_of_stores hdec hcode2
    (by rw [hdim, hkeyBase]; exact readable_of_keepsCells hkeepKey hbuf hkey)
    (by rw [hdim]; exact stores_of_keepsCells hkeepCt hmask (by omega) (by omega))
    (by rw [hdim, readCell_of_keepsCells hkeepCt (by omega) (by omega)]; exact hbody)
  have hnoise : noiseOf w s1.latch.desc (v i) = 0 := if_pos hdisp
  simpa only [torus_elemOf, hdim, hnoise, zero_add, add_sub_cancel_left] using hround

end Sys2Proof.Machine
end

section
/-! The interrupt level (60_exceptions.md R130): what the CTRL and STATUS registers show of it, and where it stands at the two ends
of a command's life. -/

namespace Sys2Proof.Machine

open Sys2Proof

variable {i : Instr} {s t : State}

theorem State.readReg_ctrl_ie (s : State) : (s.readReg .ctrl).getLsbD 0 = s.ie := by
  simp [State.readReg]

theorem State.readReg_status_done (s : State) : (s.readReg .status).getLsbD 1 = s.done :=
  s.statusWord_getLsbD 1

theorem State.readReg_status_err (s : State) : (s.readReg .status).getLsbD 2 = s.err :=
  s.statusWord_getLsbD 2

/-- DONE raises the level, whatever ERR is. -/
theorem State.irq_of_done (h : s.done = true) : s.irq = s.ie := by
  rw [State.irq, h, Bool.true_or, Bool.and_true]

/-- A start clears DONE and ERR (40_common.md R77), whatever IE is. -/
theorem State.start_irq (s : State) (c : Word) : (s.start c).irq = false := Bool.and_false s.ie

/-- A completion sets DONE (R80) and leaves IE alone. -/
theorem exec_irq (h : exec i s = .next t) : t.irq = s.ie := by
  obtain ⟨-, hdone, -⟩ := everyCommandCompletes i s t h
  obtain ⟨-, hie, -⟩ := commandsKeepOtherRegisters i s t h
  exact (State.irq_of_done hdone).trans hie

/-- Settles O19: the level is a function of three register bits, which a completion and a start set as R80 and R77 say. -/
theorem interruptLevel : Obligations.InterruptLevel := by
  unfold Obligations.InterruptLevel
  refine ⟨fun s => ?_, fun i s t h => exec_irq h, fun s v hidle => ⟨s.start v, ?_, s.start_irq v⟩⟩
  · rw [s.readReg_ctrl_ie, s.readReg_status_done, s.readReg_status_err]
    rfl
  · obtain ⟨hstart, -⟩ := commandWriteStarts.2 s v .b64 v (.inl ⟨rfl, rfl⟩)
    exact hstart hidle

end Sys2Proof.Machine
end

section
/-! The soft reset of a running block (70_reset_and_hazards.md R142 b): the regions that lose their values are those the latched
word's rule names as written. -/

namespace Sys2Proof.Machine

open Sys2Proof

variable {i : Instr} {s : State}

theorem State.abandonedRegions_of_decode (h : decode s.latch.cmd = .ok i) :
    s.abandonedRegions = writtenRegions s.latch.desc i := by
  rw [State.abandonedRegions, h]

/-- An illegal word has no rule that names a region. -/
theorem State.abandonedRegions_of_illegal (h : wordWellFormed s.latch.cmd = false) : s.abandonedRegions = [] := by
  unfold State.abandonedRegions
  split
  next i hi => simp [decode_ok_iff_wordWellFormed.1 ⟨i, hi⟩] at h
  next => rfl

theorem State.softReset_of_busy (h : s.phase = .busy) :
    s.softReset = (s.abandonedRegions.foldl State.emptyRegion s).clearRegisters := by
  rw [State.softReset, h]

/-- A write of CTRL with SRST set is a soft reset, in any phase (R21). -/
theorem State.hostAccess_ctrl_softReset (s : State) {v : Word} (h : v.getLsbD 1 = true) :
    s.hostAccess ⟨.b64, 0x10, .write v⟩ = .next s.softReset := by
  rw [offset_ctrl, State.hostAccess_reg_whole]
  exact congrArg _ (if_pos h)

/-- Settles O15: a running block empties the abandoned regions and then clears the registers, DONE and ERR among them. -/
theorem softResetAbandonsTheCommand : Obligations.SoftResetAbandonsTheCommand := by
  unfold Obligations.SoftResetAbandonsTheCommand
  intro s v hbusy hsrst
  refine ⟨_, s.hostAccess_ctrl_softReset hsrst, ?_⟩
  rw [State.softReset_of_busy hbusy]
  refine ⟨rfl, rfl, fun i hi a => ?_, fun hill => ?_⟩
  · rw [State.clearRegisters_mem, State.abandonedRegions_of_decode hi]
    exact s.emptyRegions_readByte _ a
  · rw [State.abandonedRegions_of_illegal hill]
    rfl

end Sys2Proof.Machine
end
